-- ==== Sys2Proof/Word.lean ====
section
/-! DEFINITION. The widths of the block: stream words, µ-law Bytes, Samples, and the 64-bit images of `Num`.

The streams `CMD`, `DIN`, `DOUT`, `RSP` carry 32-bit items (30_encoding.md R72); a Byte is 8 bits and a Sample 16 bits
(00_scope.md R9); a `Num` is held as its binary64 image (00_scope.md R13, log entry 1). -/

namespace Sys2Proof

/-- One 32-bit item of a stream (R72). -/
abbrev Word := BitVec 32

/-- A µ-law Byte, and the 8-bit header fields `OPC` and `CTX` (R9, R73). -/
abbrev Byte := BitVec 8

/-- A Sample: 16-bit two's complement, −32768 … 32767 (R9, R11). -/
abbrev Sample := BitVec 16

/-- A `Num`: an IEEE binary64 value, held as its interchange image `bits64` (R13). -/
abbrev Num := BitVec 64

end Sys2Proof
end

