-- ==== Sys2Proof/Config.lean ====
section
/-! DEFINITION. What an implementation fixes and the spec leaves OPEN (00_scope.md R9; 92_eei_decisions.md, last line):
`NCTX`, `NMAX`, and the two functions `SIN`, `COS` of the numerics record. None of them has a body: no proof can see a value.

The state carries `NCTX` and `NMAX` as the model's arguments (`Machine.Params`); the values here are what the state after
reset carries. -/

namespace Sys2Proof.Config

/-- `NCTX − 1`: any number of 0 … 255 (R9: 1 ≤ NCTX ≤ 256). -/
opaque nctxLess1 : Fin 256

/-- `(NMAX − 1) / 2`: any number of 0 … 32767 (R9: NMAX is odd, 1 ≤ NMAX ≤ 65535). -/
opaque nmaxHalf : Fin 32768

/-- The number of filter contexts of the block (R9, D9). -/
def nctx : Nat := nctxLess1.val + 1

/-- The largest FIR tap count a context can hold (R9, D25). -/
def nmax : Nat := 2 * nmaxHalf.val + 1

/-- The block's sine before the three laws of R15 are imposed on it (`F64.sin` imposes them). -/
opaque sinRaw : Num → Num

/-- The block's cosine before the three laws of R15 are imposed on it (`F64.cos` imposes them). -/
opaque cosRaw : Num → Num

end Sys2Proof.Config
end

