-- ==== Sys2Proof/Syntax.lean ====
section
/-! DEFINITION. The thirty commands (30_encoding.md R78, R79), one constructor per row of the opcode map, and what a
decoder can answer about the words of `CMD`. -/

namespace Sys2Proof

/-- The thirty mnemonics of R78, without operands: what the `OPC` byte of a header names. -/
inductive Op where
  | ulawDec | ulawEnc | ulawDecb | ulawEncb
  | alphaHp | alphaLp | bqdBp | bqdHp | firdLp
  | createHp | createLp | createBp | createBqbp | createBqhp | createFir
  | createcHp | createcLp | createcBp | createcBq | createcFir
  | procHp | procLp | procBp | procBq | procFir
  | stateRd | stateWr | coefRd | release | statusRd
  deriving DecidableEq, Repr

/-- What the 16-bit `ARG` field of a header holds (R73). -/
inductive ArgUse where
  /-- Must be zero. -/
  | none
  /-- A Byte in bits 7:0; bits 15:8 must be zero. -/
  | byte
  /-- The tap count N. -/
  | taps
  deriving DecidableEq, Repr

/-- A command with its operands (R79). `c` is the `CTX` field, `n` the tap count in `ARG`, `len` the `LEN` word.

The two variable-length forms carry their words as a list, whose length is the count the encoding carries:
`createcFir c cs` has `ARG` = the number of coefficients, `stateWr c ws` has `WC` = the number of image words. -/
inductive Instr where
  /-- `ULAW.DEC` (R100). -/
  | ulawDec (b : Byte)
  /-- `ULAW.ENC` (R101). -/
  | ulawEnc (x : Word)
  /-- `ULAW.DECB` (R102). -/
  | ulawDecb (len : Word)
  /-- `ULAW.ENCB` (R103). -/
  | ulawEncb (len : Word)
  /-- `ALPHA.HP` (R120). -/
  | alphaHp (fc fs : Num)
  /-- `ALPHA.LP` (R121). -/
  | alphaLp (fc fs : Num)
  /-- `BQD.BP` (R150). -/
  | bqdBp (f fs q : Num)
  /-- `BQD.HP` (R151). -/
  | bqdHp (f fs q : Num)
  /-- `FIRD.LP` (R170). -/
  | firdLp (n : BitVec 16) (fc fs : Num)
  /-- `CREATE.HP` (R122). -/
  | createHp (c : Byte) (fc fs : Num)
  /-- `CREATE.LP` (R123). -/
  | createLp (c : Byte) (fc fs : Num)
  /-- `CREATE.BP` (R140). -/
  | createBp (c : Byte) (low high fs : Num)
  /-- `CREATE.BQBP` (R152). -/
  | createBqbp (c : Byte) (f fs q : Num)
  /-- `CREATE.BQHP` (R153). -/
  | createBqhp (c : Byte) (f fs q : Num)
  /-- `CREATE.FIR` (R172). -/
  | createFir (c : Byte) (n : BitVec 16) (fc fs : Num)
  /-- `CREATEC.HP` (R124). -/
  | createcHp (c : Byte) (alpha : Num)
  /-- `CREATEC.LP` (R125). -/
  | createcLp (c : Byte) (alpha : Num)
  /-- `CREATEC.BP` (R141). -/
  | createcBp (c : Byte) (alphaHP alphaLP : Num)
  /-- `CREATEC.BQ` (R154). -/
  | createcBq (c : Byte) (a0 a1 a2 b1 b2 : Num)
  /-- `CREATEC.FIR` (R173). -/
  | createcFir (c : Byte) (cs : List Num)
  /-- `PROC.HP` (R126). -/
  | procHp (c : Byte) (len : Word)
  /-- `PROC.LP` (R127). -/
  | procLp (c : Byte) (len : Word)
  /-- `PROC.BP` (R143). -/
  | procBp (c : Byte) (len : Word)
  /-- `PROC.BQ` (R156). -/
  | procBq (c : Byte) (len : Word)
  /-- `PROC.FIR` (R176). -/
  | procFir (c : Byte) (len : Word)
  /-- `STATE.RD` (R190). -/
  | stateRd (c : Byte)
  /-- `STATE.WR` (R192). -/
  | stateWr (c : Byte) (ws : List Word)
  /-- `COEF.RD` (R194). -/
  | coefRd (c : Byte)
  /-- `RELEASE` (R196). -/
  | release (c : Byte)
  /-- `STATUS.RD` (R198). -/
  | statusRd
  deriving DecidableEq, Repr

/-- Why a header word is `ILLEGAL` (R80). -/
inductive Illegal where
  /-- `OPC` is none of the thirty values of R78. -/
  | reservedOpcode
  /-- A must-be-zero field of the header is not zero (R73). -/
  | mustBeZero
  deriving DecidableEq, Repr

/-- What the words at hand on `CMD` are. -/
inductive Decoded where
  /-- A whole command stands at the front of `CMD`. -/
  | instr (i : Instr)
  /-- The word at the front is no header of a command (R80). -/
  | illegal (h : Word) (why : Illegal)
  /-- The header, or an operand word it calls for, has not arrived yet: the block waits (R248). -/
  | incomplete
  deriving DecidableEq, Repr

end Sys2Proof
end

