-- ==== Sys2Proof/Machine/State.lean ====
section
/-! DEFINITION. What the block holds between commands (10_state.md), the four streams that carry a command's arguments and
results (30_encoding.md R72), and the state after reset (R36). All of it is plain data. -/

namespace Sys2Proof.Machine

/-- The five kinds of context (R23). -/
inductive Kind where
  | hp | lp | bp | bq | fir
  deriving DecidableEq, Repr

/-- State registers of a high-pass context (R24). -/
structure HpState where
  /-- `ST.prevIn`: the previous input sample. -/
  prevIn : Sample
  /-- `ST.prevOut`: the previous output, unconverted. -/
  prevOut : Num
  deriving DecidableEq, Repr

/-- State registers of a band-pass context (R26). -/
structure BpState where
  /-- `ST.prevInHP`. -/
  prevInHP : Sample
  /-- `ST.prevOutHP`. -/
  prevOutHP : Num
  /-- `ST.prevOutLP`. -/
  prevOutLP : Num
  deriving DecidableEq, Repr

/-- State registers of a biquad context (R27). -/
structure BqState where
  /-- `ST.x1`: the input one sample ago. -/
  x1 : Sample
  /-- `ST.x2`: the input two samples ago. -/
  x2 : Sample
  /-- `ST.y1`: the unrounded output one sample ago. -/
  y1 : Num
  /-- `ST.y2`: the unrounded output two samples ago. -/
  y2 : Num
  deriving DecidableEq, Repr

/-- State registers of a FIR context (R28): the addressed memory `HIST` and the write position. -/
structure FirState where
  /-- `HIST[c][0 … N−1]`, by address. -/
  hist : List Sample
  /-- `ST.wp`: the address the next input sample is written at. -/
  wp : Nat
  deriving DecidableEq, Repr

/-- Coefficient registers of a band-pass context (R29). -/
structure BpCoef where
  /-- `COEF.alphaHP`. -/
  alphaHP : Num
  /-- `COEF.alphaLP`. -/
  alphaLP : Num
  deriving DecidableEq, Repr

/-- Coefficient registers of a biquad context (R29): `a0 a1 a2` multiply inputs, `b1 b2` past outputs. -/
structure BqCoef where
  /-- `COEF.a0`. -/
  a0 : Num
  /-- `COEF.a1`. -/
  a1 : Num
  /-- `COEF.a2`. -/
  a2 : Num
  /-- `COEF.b1`. -/
  b1 : Num
  /-- `COEF.b2`. -/
  b2 : Num
  deriving DecidableEq, Repr

/-- An ACTIVE context (R21): the constructor is `KIND`, its arguments are `COEF` and `ST`, and for FIR `NTAPS`. An
INACTIVE context holds no value (R22), so it is no value of this type. -/
inductive Context where
  /-- Kind HP: `COEF.alpha` and the state of R24. -/
  | hp (alpha : Num) (st : HpState)
  /-- Kind LP: `COEF.alpha` and `ST.prevOut` (R25). -/
  | lp (alpha : Num) (prevOut : Num)
  /-- Kind BP. -/
  | bp (coef : BpCoef) (st : BpState)
  /-- Kind BQ. -/
  | bq (coef : BqCoef) (st : BqState)
  /-- Kind FIR: `NTAPS`, `COEF.c[0 … N−1]` and the state of R28. -/
  | fir (ntaps : Nat) (coef : List Num) (st : FirState)
  deriving DecidableEq, Repr

/-- `CTX`: the ACTIVE contexts by index, indices rising. A context that is not listed is INACTIVE (R22; DEDUCED, log
entry 4, safe). -/
abbrev Bank := List (Nat × Context)

/-- The parameters R9 marks OPEN, which "a model takes as arguments". The spec does not count them as block state (R20);
they ride in `State` because a meaning's only argument beside the command is the state. No step changes them (DESIGN CHOICE,
log entry 2, safe). -/
structure Params where
  /-- `NCTX`: the number of contexts. -/
  nctx : Nat
  /-- `NMAX`: the largest tap count. -/
  nmax : Nat
  deriving DecidableEq, Repr

/-- The block state `(CTX, STATUS, HALT)` of R20, the parameters of R9, and the four streams of R72 with the items on them that
are not taken yet (R50: the arguments and results of a command). -/
structure State where
  /-- `NCTX` and `NMAX` (R9). -/
  par : Params
  /-- `CTX` (R21). -/
  ctx : Bank
  /-- `STATUS` (R31). -/
  status : BitVec 32
  /-- `HALT` (R32). -/
  halt : Bool
  /-- `CMD`: command words the block has not read, the next one first. -/
  cmd : List Word
  /-- `DIN`: input beats the block has not read, the next one first. -/
  din : List Word
  /-- `DOUT`: output beats the host has not taken, oldest first. -/
  dout : List Word
  /-- `RSP`: response words the host has not taken, oldest first. -/
  rsp : List Word
  deriving DecidableEq, Repr

/-- The response codes (R75). -/
inductive Code where
  | ok | illegal | ctxRange | ctxInactive | kindMismatch | cfgInvalid | stateInvalid | numNonfinite
  deriving DecidableEq, Repr

/-- Reasons to stop with a fault: none. A command the block turns away is answered by a response code and the block goes on
(60_exceptions.md R212), a halted block stays as it is (R32), and a missing word or beat is waited for, which "is not a
fault" (R248). -/
inductive Fault where
  deriving DecidableEq, Repr

/-- Reasons to give no meaning. -/
inductive Refusal where
  /-- Raised by `exec`'s arm of an instruction that has no meaning yet; safe. No arm raises it. -/
  | notModelled (mnemonic : String)
  deriving DecidableEq, Repr

/-- The outcome of a step. -/
abbrev Result := Host.Outcome State Fault Refusal

/-- The block right after reset (R36, R240): every context INACTIVE, `STATUS` = 0, `HALT` = 0, nothing on the streams
(DESIGN CHOICE, log entry 3, unsafe). -/
def State.reset : State where
  par := ⟨Config.nctx, Config.nmax⟩
  ctx := []
  status := 0#32
  halt := false
  cmd := []
  din := []
  dout := []
  rsp := []

end Sys2Proof.Machine
end

