-- ==== Sys2Proof/Machine/Flags.lean ====
section
/-! DEFINITION. `STATUS` (10_state.md R31), the response codes (30_encoding.md R75) and the code-to-bit table (60_exceptions.md
R213). -/

namespace Sys2Proof.Machine

/-- `STATUS.OVF`, bit 0: `narrow16` saturated an output element. -/
def Flag.ovf : BitVec 32 := 0x00000001#32

/-- `STATUS.ILL`, bit 1: a command was refused with `ILLEGAL`. -/
def Flag.ill : BitVec 32 := 0x00000002#32

/-- `STATUS.CTXERR`, bit 2: `CTX_RANGE`, `CTX_INACTIVE` or `KIND_MISMATCH`. -/
def Flag.ctxerr : BitVec 32 := 0x00000004#32

/-- `STATUS.CFGERR`, bit 3: `CFG_INVALID` or `STATE_INVALID`. -/
def Flag.cfgerr : BitVec 32 := 0x00000008#32

/-- `STATUS.NUMERR`, bit 4: `NUM_NONFINITE`. -/
def Flag.numerr : BitVec 32 := 0x00000010#32

/-- The reserved bits 31:5, which read as 0. -/
def Flag.reserved : BitVec 32 := 0xFFFFFFE0#32

/-- The `CODE` byte of a response header (R75). -/
def Code.byte : Code → Byte
  | .ok => 0x00#8
  | .illegal => 0x01#8
  | .ctxRange => 0x02#8
  | .ctxInactive => 0x03#8
  | .kindMismatch => 0x04#8
  | .cfgInvalid => 0x05#8
  | .stateInvalid => 0x06#8
  | .numNonfinite => 0x07#8

/-- The `STATUS` bit a code sets (R213); `OK` sets none. -/
def Code.flag : Code → BitVec 32
  | .ok => 0#32
  | .illegal => Flag.ill
  | .ctxRange | .ctxInactive | .kindMismatch => Flag.ctxerr
  | .cfgInvalid | .stateInvalid => Flag.cfgerr
  | .numNonfinite => Flag.numerr

/-- The flag a command that saturated, or did not, sets (R16, R31): set only, never cleared. -/
def Flag.ofOvf (ovf : Bool) : BitVec 32 := if ovf then Flag.ovf else 0#32

end Sys2Proof.Machine
end

