-- ==== Sys2Proof/WellFormed.lean ====
section
/-! DEFINITION. Which terms of `Instr` are commands: those whose counts fit the fields that carry them. Every other operand is
bounded by its type. -/

namespace Sys2Proof

/-- `ARG` is 16 bits, so `CREATEC.FIR` carries at most 65535 coefficients; `WC` is 32 bits, so `STATE.WR` carries at most
2^32 − 1 image words (R73, R79, R192 (f)). -/
def Instr.wellFormed : Instr → Bool
  | .createcFir _ cs => decide (cs.length < 2 ^ 16)
  | .stateWr _ ws => decide (ws.length < 2 ^ 32)
  | .ulawDec _ | .ulawEnc _ | .ulawDecb _ | .ulawEncb _ | .alphaHp _ _ | .alphaLp _ _ => true
  | .bqdBp _ _ _ | .bqdHp _ _ _ | .firdLp _ _ _ => true
  | .createHp _ _ _ | .createLp _ _ _ | .createBp _ _ _ _ | .createBqbp _ _ _ _ | .createBqhp _ _ _ _ => true
  | .createFir _ _ _ _ | .createcHp _ _ | .createcLp _ _ | .createcBp _ _ _ | .createcBq _ _ _ _ _ _ => true
  | .procHp _ _ | .procLp _ _ | .procBp _ _ | .procBq _ _ | .procFir _ _ => true
  | .stateRd _ | .coefRd _ | .release _ | .statusRd => true

end Sys2Proof
end

