-- ==== Sys2Proof/Decode.lean ====
section
/-! DEFINITION. The encodings of 30_encoding.md: the opcode map (R78), the header word (R73), the operand words (R74, R79), the
decoder of `CMD` and, from the same tables, the encoder. -/

namespace Sys2Proof

/-! ## The opcode map (R78) -/

/-- The `OPC` byte of each command (R78). -/
def Op.code : Op → Byte
  | .ulawDec => 0x01#8 | .ulawEnc => 0x02#8 | .ulawDecb => 0x03#8 | .ulawEncb => 0x04#8
  | .alphaHp => 0x10#8 | .alphaLp => 0x11#8 | .bqdBp => 0x12#8 | .bqdHp => 0x13#8 | .firdLp => 0x14#8
  | .createHp => 0x20#8 | .createLp => 0x21#8 | .createBp => 0x22#8 | .createBqbp => 0x23#8
  | .createBqhp => 0x24#8 | .createFir => 0x25#8
  | .createcHp => 0x28#8 | .createcLp => 0x29#8 | .createcBp => 0x2A#8 | .createcBq => 0x2B#8
  | .createcFir => 0x2C#8
  | .procHp => 0x30#8 | .procLp => 0x31#8 | .procBp => 0x32#8 | .procBq => 0x33#8 | .procFir => 0x34#8
  | .stateRd => 0x40#8 | .stateWr => 0x41#8 | .coefRd => 0x42#8 | .release => 0x4E#8 | .statusRd => 0x4F#8

/-- The thirty commands in the order of R78. -/
def Op.all : List Op :=
  [.ulawDec, .ulawEnc, .ulawDecb, .ulawEncb, .alphaHp, .alphaLp, .bqdBp, .bqdHp, .firdLp,
   .createHp, .createLp, .createBp, .createBqbp, .createBqhp, .createFir,
   .createcHp, .createcLp, .createcBp, .createcBq, .createcFir,
   .procHp, .procLp, .procBp, .procBq, .procFir,
   .stateRd, .stateWr, .coefRd, .release, .statusRd]

/-- The command an `OPC` byte names; none for a reserved one (R80). -/
def Op.ofCode (b : Byte) : Option Op := Op.all.find? fun o => o.code == b

/-- The "ctx" column of R78: does `CTX` name a context? -/
def Op.namesCtx : Op → Bool
  | .ulawDec | .ulawEnc | .ulawDecb | .ulawEncb => false
  | .alphaHp | .alphaLp | .bqdBp | .bqdHp | .firdLp | .statusRd => false
  | .createHp | .createLp | .createBp | .createBqbp | .createBqhp | .createFir => true
  | .createcHp | .createcLp | .createcBp | .createcBq | .createcFir => true
  | .procHp | .procLp | .procBp | .procBq | .procFir | .stateRd | .stateWr | .coefRd | .release => true

/-- What `ARG` holds (R73, the `ARG` column of R79). -/
def Op.argUse : Op → ArgUse
  | .ulawDec => .byte
  | .firdLp | .createFir | .createcFir => .taps
  | .ulawEnc | .ulawDecb | .ulawEncb | .alphaHp | .alphaLp | .bqdBp | .bqdHp => .none
  | .createHp | .createLp | .createBp | .createBqbp | .createBqhp => .none
  | .createcHp | .createcLp | .createcBp | .createcBq => .none
  | .procHp | .procLp | .procBp | .procBq | .procFir => .none
  | .stateRd | .stateWr | .coefRd | .release | .statusRd => .none

/-- `match` and `mask` of every row of spec/opcode_table.json, over the header word (R81). -/
def opcodeRows : List (Op × Word × Word) :=
  [(.ulawDec, 0x01000000#32, 0xFFFFFF00#32), (.ulawEnc, 0x02000000#32, 0xFFFFFFFF#32),
   (.ulawDecb, 0x03000000#32, 0xFFFFFFFF#32), (.ulawEncb, 0x04000000#32, 0xFFFFFFFF#32),
   (.alphaHp, 0x10000000#32, 0xFFFFFFFF#32), (.alphaLp, 0x11000000#32, 0xFFFFFFFF#32),
   (.bqdBp, 0x12000000#32, 0xFFFFFFFF#32), (.bqdHp, 0x13000000#32, 0xFFFFFFFF#32),
   (.firdLp, 0x14000000#32, 0xFFFF0000#32),
   (.createHp, 0x20000000#32, 0xFF00FFFF#32), (.createLp, 0x21000000#32, 0xFF00FFFF#32),
   (.createBp, 0x22000000#32, 0xFF00FFFF#32), (.createBqbp, 0x23000000#32, 0xFF00FFFF#32),
   (.createBqhp, 0x24000000#32, 0xFF00FFFF#32), (.createFir, 0x25000000#32, 0xFF000000#32)] ++
  [(.createcHp, 0x28000000#32, 0xFF00FFFF#32), (.createcLp, 0x29000000#32, 0xFF00FFFF#32),
   (.createcBp, 0x2A000000#32, 0xFF00FFFF#32), (.createcBq, 0x2B000000#32, 0xFF00FFFF#32),
   (.createcFir, 0x2C000000#32, 0xFF000000#32),
   (.procHp, 0x30000000#32, 0xFF00FFFF#32), (.procLp, 0x31000000#32, 0xFF00FFFF#32),
   (.procBp, 0x32000000#32, 0xFF00FFFF#32), (.procBq, 0x33000000#32, 0xFF00FFFF#32),
   (.procFir, 0x34000000#32, 0xFF00FFFF#32),
   (.stateRd, 0x40000000#32, 0xFF00FFFF#32), (.stateWr, 0x41000000#32, 0xFF00FFFF#32),
   (.coefRd, 0x42000000#32, 0xFF00FFFF#32), (.release, 0x4E000000#32, 0xFF00FFFF#32),
   (.statusRd, 0x4F000000#32, 0xFFFFFFFF#32)]

/-! ## The header word (R73) and the operand forms (R74) -/

/-- `OPC`, bits 31:24. -/
def hdrOpc (h : Word) : Byte := h.extractLsb' 24 8

/-- `CTX`, bits 23:16. -/
def hdrCtx (h : Word) : Byte := h.extractLsb' 16 8

/-- `ARG`, bits 15:0. -/
def hdrArg (h : Word) : BitVec 16 := h.extractLsb' 0 16

/-- A header word from its three fields (R73). -/
def mkHeader (o : Op) (c : Byte) (arg : BitVec 16) : Word := o.code ++ c ++ arg

/-- Every must-be-zero field of the header is zero (R73). -/
def fieldsLegal (o : Op) (h : Word) : Bool :=
  (o.namesCtx || hdrCtx h == 0#8) &&
  match o.argUse with
  | .none => hdrArg h == 0#16
  | .byte => (hdrArg h).extractLsb' 8 8 == 0#8
  | .taps => true

/-- Check 1 of R211: the command a header names, or why it is `ILLEGAL` (R80). -/
def headerOp (h : Word) : Except Illegal Op :=
  match Op.ofCode (hdrOpc h) with
  | none => .error .reservedOpcode
  | some o => if fieldsLegal o h then .ok o else .error .mustBeZero

/-- The `Num` of an `F64` operand: the low word comes first (R74, R56 (b)). -/
def f64 (lo hi : Word) : Num := hi ++ lo

/-- The two words of a `Num`, low word first (R74, R56 (b)). -/
def f64Words (v : Num) : List Word := [v.extractLsb' 0 32, v.extractLsb' 32 32]

/-- One operand word. -/
def with1 (ws : List Word) (k : Word → Instr) : Option Instr :=
  match ws with
  | w :: _ => some (k w)
  | _ => none

/-- Format `H-1F64` (R81). -/
def withF1 (ws : List Word) (k : Num → Instr) : Option Instr :=
  match ws with
  | a :: a' :: _ => some (k (f64 a a'))
  | _ => none

/-- Format `H-2F64` (R81). -/
def withF2 (ws : List Word) (k : Num → Num → Instr) : Option Instr :=
  match ws with
  | a :: a' :: b :: b' :: _ => some (k (f64 a a') (f64 b b'))
  | _ => none

/-- Format `H-3F64` (R81). -/
def withF3 (ws : List Word) (k : Num → Num → Num → Instr) : Option Instr :=
  match ws with
  | a :: a' :: b :: b' :: c :: c' :: _ => some (k (f64 a a') (f64 b b') (f64 c c'))
  | _ => none

/-- Format `H-5F64` (R81). -/
def withF5 (ws : List Word) (k : Num → Num → Num → Num → Num → Instr) : Option Instr :=
  match ws with
  | a :: a' :: b :: b' :: c :: c' :: d :: d' :: e :: e' :: _ =>
    some (k (f64 a a') (f64 b b') (f64 c c') (f64 d d') (f64 e e'))
  | _ => none

/-- The `n` `F64` operands of format `H-NF64` (R81), if all their words are there. -/
def takeF64s : Nat → List Word → Option (List Num)
  | 0, _ => some []
  | n + 1, a :: a' :: ws => (takeF64s n ws).map fun vs => f64 a a' :: vs
  | _ + 1, _ => none

/-- Format `H-WC` (R81): the `WC` word, then `WC` words, if they are all there. -/
def withWC (ws : List Word) (k : List Word → Instr) : Option Instr :=
  match ws with
  | wc :: rest => if wc.toNat ≤ rest.length then some (k (rest.take wc.toNat)) else none
  | [] => none

/-! ## The decoder -/

/-- The command with header `h` and operand words at the front of `ws` (R79); none while a word is missing. -/
def operands (o : Op) (h : Word) (ws : List Word) : Option Instr :=
  match o with
  | .ulawDec => some (.ulawDec ((hdrArg h).extractLsb' 0 8))
  | .ulawEnc => with1 ws .ulawEnc
  | .ulawDecb => with1 ws .ulawDecb
  | .ulawEncb => with1 ws .ulawEncb
  | .alphaHp => withF2 ws .alphaHp
  | .alphaLp => withF2 ws .alphaLp
  | .bqdBp => withF3 ws .bqdBp
  | .bqdHp => withF3 ws .bqdHp
  | .firdLp => withF2 ws (.firdLp (hdrArg h))
  | .createHp => withF2 ws (.createHp (hdrCtx h))
  | .createLp => withF2 ws (.createLp (hdrCtx h))
  | .createBp => withF3 ws (.createBp (hdrCtx h))
  | .createBqbp => withF3 ws (.createBqbp (hdrCtx h))
  | .createBqhp => withF3 ws (.createBqhp (hdrCtx h))
  | .createFir => withF2 ws (.createFir (hdrCtx h) (hdrArg h))
  | .createcHp => withF1 ws (.createcHp (hdrCtx h))
  | .createcLp => withF1 ws (.createcLp (hdrCtx h))
  | .createcBp => withF2 ws (.createcBp (hdrCtx h))
  | .createcBq => withF5 ws (.createcBq (hdrCtx h))
  | .createcFir => (takeF64s (hdrArg h).toNat ws).map (.createcFir (hdrCtx h))
  | .procHp => with1 ws (.procHp (hdrCtx h))
  | .procLp => with1 ws (.procLp (hdrCtx h))
  | .procBp => with1 ws (.procBp (hdrCtx h))
  | .procBq => with1 ws (.procBq (hdrCtx h))
  | .procFir => with1 ws (.procFir (hdrCtx h))
  | .stateRd => some (.stateRd (hdrCtx h))
  | .stateWr => withWC ws (.stateWr (hdrCtx h))
  | .coefRd => some (.coefRd (hdrCtx h))
  | .release => some (.release (hdrCtx h))
  | .statusRd => some .statusRd

/-- What stands at the front of `CMD` (R72, R76): total, and every word that is no header is rejected by name (R80). -/
def decode : List Word → Decoded
  | [] => .incomplete
  | h :: ws =>
    match headerOp h with
    | .error why => .illegal h why
    | .ok o =>
      match operands o h ws with
      | some i => .instr i
      | none => .incomplete

/-! ## The fields of a command, and the encoder -/

/-- The mnemonic of a command. -/
def Instr.op : Instr → Op
  | .ulawDec _ => .ulawDec | .ulawEnc _ => .ulawEnc | .ulawDecb _ => .ulawDecb | .ulawEncb _ => .ulawEncb
  | .alphaHp _ _ => .alphaHp | .alphaLp _ _ => .alphaLp | .bqdBp _ _ _ => .bqdBp | .bqdHp _ _ _ => .bqdHp
  | .firdLp _ _ _ => .firdLp
  | .createHp _ _ _ => .createHp | .createLp _ _ _ => .createLp | .createBp _ _ _ _ => .createBp
  | .createBqbp _ _ _ _ => .createBqbp | .createBqhp _ _ _ _ => .createBqhp
  | .createFir _ _ _ _ => .createFir
  | .createcHp _ _ => .createcHp | .createcLp _ _ => .createcLp | .createcBp _ _ _ => .createcBp
  | .createcBq _ _ _ _ _ _ => .createcBq | .createcFir _ _ => .createcFir
  | .procHp _ _ => .procHp | .procLp _ _ => .procLp | .procBp _ _ => .procBp | .procBq _ _ => .procBq
  | .procFir _ _ => .procFir
  | .stateRd _ => .stateRd | .stateWr _ _ => .stateWr | .coefRd _ => .coefRd | .release _ => .release
  | .statusRd => .statusRd

/-- The `CTX` field of a command: 0 for a command that names no context (R73). -/
def Instr.ctx : Instr → Byte
  | .createHp c _ _ | .createLp c _ _ | .createBp c _ _ _ | .createBqbp c _ _ _ | .createBqhp c _ _ _ => c
  | .createFir c _ _ _ | .createcHp c _ | .createcLp c _ | .createcBp c _ _ | .createcBq c _ _ _ _ _ => c
  | .createcFir c _ | .procHp c _ | .procLp c _ | .procBp c _ | .procBq c _ | .procFir c _ => c
  | .stateRd c | .stateWr c _ | .coefRd c | .release c => c
  | .ulawDec _ | .ulawEnc _ | .ulawDecb _ | .ulawEncb _ | .alphaHp _ _ | .alphaLp _ _ => 0#8
  | .bqdBp _ _ _ | .bqdHp _ _ _ | .firdLp _ _ _ | .statusRd => 0#8

/-- The `ARG` field of a command (R73, R79). -/
def Instr.arg : Instr → BitVec 16
  | .ulawDec b => b.setWidth 16
  | .firdLp n _ _ => n
  | .createFir _ n _ _ => n
  | .createcFir _ cs => BitVec.ofNat 16 cs.length
  | .ulawEnc _ | .ulawDecb _ | .ulawEncb _ | .alphaHp _ _ | .alphaLp _ _ | .bqdBp _ _ _ | .bqdHp _ _ _ => 0#16
  | .createHp _ _ _ | .createLp _ _ _ | .createBp _ _ _ _ | .createBqbp _ _ _ _ | .createBqhp _ _ _ _ => 0#16
  | .createcHp _ _ | .createcLp _ _ | .createcBp _ _ _ | .createcBq _ _ _ _ _ _ => 0#16
  | .procHp _ _ | .procLp _ _ | .procBp _ _ | .procBq _ _ | .procFir _ _ => 0#16
  | .stateRd _ | .stateWr _ _ | .coefRd _ | .release _ | .statusRd => 0#16

/-- How many input beats a command takes from `DIN` (the DIN column of R79). -/
def Instr.beats : Instr → Nat
  | .ulawDecb len | .ulawEncb len => len.toNat
  | .procHp _ len | .procLp _ len | .procBp _ len | .procBq _ len | .procFir _ len => len.toNat
  | .ulawDec _ | .ulawEnc _ | .alphaHp _ _ | .alphaLp _ _ | .bqdBp _ _ _ | .bqdHp _ _ _ | .firdLp _ _ _ => 0
  | .createHp _ _ _ | .createLp _ _ _ | .createBp _ _ _ _ | .createBqbp _ _ _ _ | .createBqhp _ _ _ _ => 0
  | .createFir _ _ _ _ | .createcHp _ _ | .createcLp _ _ | .createcBp _ _ _ | .createcBq _ _ _ _ _ _ => 0
  | .createcFir _ _ | .stateRd _ | .stateWr _ _ | .coefRd _ | .release _ | .statusRd => 0

/-- The operand words that follow the header (R79). -/
def Instr.operandWords : Instr → List Word
  | .ulawDec _ => []
  | .ulawEnc x => [x]
  | .ulawDecb len | .ulawEncb len => [len]
  | .alphaHp fc fs | .alphaLp fc fs => f64Words fc ++ f64Words fs
  | .bqdBp f fs q | .bqdHp f fs q => f64Words f ++ f64Words fs ++ f64Words q
  | .firdLp _ fc fs => f64Words fc ++ f64Words fs
  | .createHp _ fc fs | .createLp _ fc fs => f64Words fc ++ f64Words fs
  | .createBp _ low high fs => f64Words low ++ f64Words high ++ f64Words fs
  | .createBqbp _ f fs q | .createBqhp _ f fs q => f64Words f ++ f64Words fs ++ f64Words q
  | .createFir _ _ fc fs => f64Words fc ++ f64Words fs
  | .createcHp _ alpha | .createcLp _ alpha => f64Words alpha
  | .createcBp _ aH aL => f64Words aH ++ f64Words aL
  | .createcBq _ a0 a1 a2 b1 b2 => f64Words a0 ++ f64Words a1 ++ f64Words a2 ++ f64Words b1 ++ f64Words b2
  | .createcFir _ cs => cs.flatMap f64Words
  | .procHp _ len | .procLp _ len | .procBp _ len | .procBq _ len | .procFir _ len => [len]
  | .stateRd _ | .coefRd _ | .release _ | .statusRd => []
  | .stateWr _ ws => BitVec.ofNat 32 ws.length :: ws

/-- The words of a command on `CMD` (R73, R79). -/
def encode (i : Instr) : List Word := mkHeader i.op i.ctx i.arg :: i.operandWords

/-- How many words a command occupies on `CMD`: 1 + the number of its operand words (R76). -/
def Instr.numWords : Instr → Nat
  | .ulawDec _ | .stateRd _ | .coefRd _ | .release _ | .statusRd => 1
  | .ulawEnc _ | .ulawDecb _ | .ulawEncb _ => 2
  | .procHp _ _ | .procLp _ _ | .procBp _ _ | .procBq _ _ | .procFir _ _ => 2
  | .createcHp _ _ | .createcLp _ _ => 3
  | .alphaHp _ _ | .alphaLp _ _ | .firdLp _ _ _ => 5
  | .createHp _ _ _ | .createLp _ _ _ | .createFir _ _ _ _ | .createcBp _ _ _ => 5
  | .bqdBp _ _ _ | .bqdHp _ _ _ => 7
  | .createBp _ _ _ _ | .createBqbp _ _ _ _ | .createBqhp _ _ _ _ => 7
  | .createcBq _ _ _ _ _ _ => 11
  | .createcFir _ cs => 1 + 2 * cs.length
  | .stateWr _ ws => 2 + ws.length

/-! ## Words numbered as spec/opcode_table.json numbers them -/

/-- The 32-bit words of an `nbits`-bit instruction `w`, first word first (bit 0 is the least significant bit of the
first word). -/
def tableBits (nbits w : Nat) : List Word :=
  (List.range ((nbits + 31) / 32)).map fun k => BitVec.ofNat 32 ((w % 2 ^ nbits) >>> (32 * k))

/-- The same words with as many operand words of zeros after them as the header can call for: ten, or 2·`ARG` for
`CREATEC.FIR`. -/
def tableWords (nbits w : Nat) : List Word :=
  let ws := tableBits nbits w
  match ws with
  | [] => []
  | h :: _ => ws ++ List.replicate (if hdrOpc h == Op.code .createcFir then 2 * (hdrArg h).toNat else 10) 0#32

/-- The instruction the decoder reads from an instruction whose bits are `w`, the operand bits above `nbits` being 0. -/
def decodeTableWord (nbits w : Nat) : Option Instr :=
  match decode (tableWords nbits w) with
  | .instr i => some i
  | _ => none

/-- Exactly the words of that instruction; for a word that is no header, the words `w` has. -/
def tableCommand (nbits w : Nat) : List Word :=
  match decode (tableWords nbits w) with
  | .instr i => (tableWords nbits w).take i.numWords
  | _ => tableBits nbits w

end Sys2Proof
end

