-- ==== Sys2Proof/Machine/Constants.lean ====
section
/-! DEFINITION. The named constants of the codec and of the FIR window (00_scope.md R10), and π (R13). The source's literals are
unaudited, so each stands here once. -/

namespace Sys2Proof.Machine.Constants

/-- `DEC_MANT_SHIFT`. -/
def decMantShift : Nat := 4

/-- `DEC_HALF`. -/
def decHalf : Nat := 8

/-- `DEC_SEG_BASE`. -/
def decSegBase : Nat := 0x100

/-- `ENC_PRESHIFT`. -/
def encPreshift : Nat := 2

/-- `ENC_LIMIT`. -/
def encLimit : Nat := 0x3f

/-- `ENC_CAND_MASK`: the low 6 bits. -/
def encCandMask : Nat := 0x3f

/-- `ENC_MANT_MASK`: the low 4 bits. -/
def encMantMask : Nat := 0x0f

/-- `CLAMP_MIN`. -/
def clampMin : Int := -32768

/-- `CLAMP_MAX`. -/
def clampMax : Int := 32767

/-- `PI`: the binary64 value nearest π (R13). -/
def pi : Num := 0x400921FB54442D18#64

/-- `WIN_A`: the binary64 value nearest 0.54 (R10, R13). -/
def winA : Num := 0x3FE147AE147AE148#64

/-- `WIN_B`: the binary64 value nearest 0.46 (R10, R13). -/
def winB : Num := 0x3FDD70A3D70A3D71#64

end Sys2Proof.Machine.Constants
end

