-- ==== Sys2Proof/Machine/Numerics.lean ====
section
/-! DEFINITION. The numerics record `NUM` (00_scope.md R12) in its reference instance, IEEE 754 binary64 with
round-to-nearest, ties-to-even, subnormals kept (R13), and the conversions of R14.

Every finite binary64 value is an integer multiple of 2^−1074. `units v` is that integer; an operation computes its exact
result in those units as a fraction of naturals and rounds once (`roundUnits`). -/

namespace Sys2Proof.F64

/-! ## The fields of an image -/

/-- The sign bit. -/
def sign (v : Num) : Bool := v.getLsbD 63

/-- The 63 bits below the sign. -/
def magBits (v : Num) : Nat := v.toNat % 2 ^ 63

/-- The 11-bit exponent field. -/
def expField (v : Num) : Nat := magBits v / 2 ^ 52

/-- The 52-bit fraction field. -/
def fracField (v : Num) : Nat := magBits v % 2 ^ 52

/-- `finite(v)`: false exactly for NaN and ±infinity (R13). -/
def finite (v : Num) : Bool := expField v != 2047

/-- Is `v` a NaN? -/
def isNaN (v : Num) : Bool := expField v == 2047 && fracField v != 0

/-- Is `v` an infinity? -/
def isInf (v : Num) : Bool := expField v == 2047 && fracField v == 0

/-- Is `v` a zero of either sign? -/
def isZero (v : Num) : Bool := magBits v == 0

/-- The magnitude of a finite `v` in units of 2^−1074. -/
def magUnits (v : Num) : Nat :=
  if expField v = 0 then fracField v else (fracField v + 2 ^ 52) <<< (expField v - 1)

/-- The exact value of a finite `v` in units of 2^−1074. -/
def units (v : Num) : Int := if sign v then -(magUnits v : Int) else (magUnits v : Int)

/-! ## Rounding -/

/-- `n / d` to the nearest integer, ties to even. -/
def nearestEven (n d : Nat) : Nat :=
  let q := n / d
  let r := n % d
  if 2 * r < d then q else if d < 2 * r then q + 1 else q + q % 2

/-- The image, without its sign, of the binary64 magnitude nearest to `n / d` units of 2^−1074, ties to even; the image of
infinity when that magnitude is past the largest finite one. A magnitude of more than 53 bits keeps its 53 leading ones. -/
def roundMag (n d : Nat) : Nat :=
  let k := ((n / d).log2 + 1) - 53
  min (k * 2 ^ 52 + nearestEven n (d <<< k)) (2047 * 2 ^ 52)

/-- A value from its sign and the image of its magnitude. -/
def ofSignMag (neg : Bool) (m : Nat) : Num := BitVec.ofNat 64 (if neg then 2 ^ 63 + m else m)

/-- `±n / d` units of 2^−1074, rounded. -/
def roundUnits (neg : Bool) (n d : Nat) : Num := ofSignMag neg (roundMag n d)

/-- The NaN an operation answers with (DESIGN CHOICE, log entry 1, safe: which NaN is not observable). -/
def nan : Num := 0x7FF8000000000000#64

/-- An infinity. -/
def inf (neg : Bool) : Num := ofSignMag neg (2047 * 2 ^ 52)

/-! ## The operations of R12 -/

/-- `I(n)`: an integer, rounded to nearest even (R13). -/
def ofInt (n : Int) : Num := roundUnits (decide (n < 0)) (n.natAbs <<< 1074) 1

/-- `ZERO = I(0)`: positive zero. -/
def zero : Num := 0#64

/-- `ONE = I(1)`. -/
def one : Num := 0x3FF0000000000000#64

/-- `TWO = I(2)`. -/
def two : Num := 0x4000000000000000#64

/-- `neg`: flips the sign bit (R13). -/
def neg (v : Num) : Num := v ^^^ 0x8000000000000000#64

/-- `⊕`. An exact sum of zero is positive unless both operands are negative. -/
def add (a b : Num) : Num :=
  if isNaN a || isNaN b then nan
  else if isInf a then (if isInf b && sign a != sign b then nan else a)
  else if isInf b then b
  else
    let s := units a + units b
    if s = 0 then ofSignMag (sign a && sign b) 0 else roundUnits (decide (s < 0)) s.natAbs 1

/-- `⊖`. -/
def sub (a b : Num) : Num := add a (neg b)

/-- `⊗`. -/
def mul (a b : Num) : Num :=
  if isNaN a || isNaN b then nan
  else if isInf a then (if isZero b then nan else inf (sign a != sign b))
  else if isInf b then (if isZero a then nan else inf (sign a != sign b))
  else roundUnits (sign a != sign b) (magUnits a * magUnits b) (1 <<< 1074)

/-- `⊘`. -/
def div (a b : Num) : Num :=
  if isNaN a || isNaN b then nan
  else if isInf a then (if isInf b then nan else inf (sign a != sign b))
  else if isInf b then ofSignMag (sign a != sign b) 0
  else if isZero b then (if isZero a then nan else inf (sign a != sign b))
  else roundUnits (sign a != sign b) (magUnits a <<< 1074) (magUnits b)

/-- A key that orders all values but the NaNs: −0 and +0 have the same (R13). -/
def orderKey (v : Num) : Int := if sign v then -(magBits v : Int) else (magBits v : Int)

/-- `<` (false when an operand is a NaN). -/
def lt (a b : Num) : Bool := !isNaN a && !isNaN b && decide (orderKey a < orderKey b)

/-- `≤` (false when an operand is a NaN). -/
def le (a b : Num) : Bool := !isNaN a && !isNaN b && decide (orderKey a ≤ orderKey b)

/-! ## The conversions of R14, used on finite values only -/

/-- `trunc`: the integer that is left when the fraction is discarded. -/
def trunc (v : Num) : Int :=
  let m : Int := (magUnits v >>> 1074 : Nat)
  if sign v then -m else m

/-- `roundHA`: the nearest integer, a tie going to the larger magnitude: sign · floor(|r| + 1/2). -/
def roundHA (v : Num) : Int :=
  let m : Int := ((magUnits v + 1 <<< 1073) >>> 1074 : Nat)
  if sign v then -m else m

/-! ## `SIN` and `COS` (R15) -/

/-- Does `v` lie in [−1, 1]? -/
def inUnit (v : Num) : Bool := finite v && le (neg one) v && le v one

/-- `SIN`: any function with the three laws of R15. Where the free function `Config.sinRaw` breaks a law it is not
used (DEDUCED, log entry 7, safe). -/
def sin (v : Num) : Num :=
  if v = zero then zero
  else if finite v && !inUnit (Config.sinRaw v) then zero
  else Config.sinRaw v

/-- `COS`: any function with the three laws of R15. Where the free function `Config.cosRaw` breaks a law it is not
used (DEDUCED, log entry 7, safe). -/
def cos (v : Num) : Num :=
  if v = zero then one
  else if finite v && !inUnit (Config.cosRaw v) then one
  else Config.cosRaw v

end Sys2Proof.F64
end

