-- ==== Sys2Proof/Machine/Operands.lean ====
section
/-! DEFINITION. The forms in which values cross the streams: input and output beats (20_memory.md R51), payload scalars
(30_encoding.md R75), the `CTXCFG` view (10_state.md R30), the state and coefficient images (45_context_system.md R191, R195),
and the byte order of R56. -/

namespace Sys2Proof.Machine

/-! ## Beats (R51) -/

/-- A `U8` input beat: bits 31:8 are ignored. -/
def beatU8 (w : Word) : Byte := w.setWidth 8

/-- An `S16` input beat: bits 31:16 are ignored. -/
def beatS16 (w : Word) : Sample := w.setWidth 16

/-- A Byte as an output beat or a payload word: `zext_8`. -/
def byteWord (b : Byte) : Word := b.setWidth 32

/-- A Sample as an output beat, a payload word or an image word: bits 31:16 are copies of bit 15. -/
def sampleWord (x : Sample) : Word := x.signExtend 32

/-! ## Narrowing (R16) -/

/-- `narrow16(k)`: the integer clamped to the Sample range. -/
def narrow16 (k : Int) : Sample := BitVec.ofInt 16 (max (-32768) (min k 32767))

/-- Does `narrow16` saturate on `k`? Then `STATUS.OVF` is set. -/
def saturates (k : Int) : Bool := decide (k < -32768) || decide (32767 < k)

/-- `I(x)` of a Sample. -/
def sampleNum (x : Sample) : Num := F64.ofInt x.toInt

/-! ## `CTXCFG` (R30) -/

/-- The number of a kind (R23). -/
def Kind.code : Kind → Nat
  | .hp => 1
  | .lp => 2
  | .bp => 3
  | .bq => 4
  | .fir => 5

/-- `CTX[c].KIND`. -/
def Context.kind : Context → Kind
  | .hp _ _ => .hp
  | .lp _ _ => .lp
  | .bp _ _ => .bp
  | .bq _ _ => .bq
  | .fir _ _ _ => .fir

/-- `CTX[c].NTAPS`: N for FIR, 0 for every other kind (R21). -/
def Context.ntaps : Context → Nat
  | .fir n _ _ => n
  | .hp _ _ | .lp _ _ | .bp _ _ | .bq _ _ => 0

/-- `CTXCFG`: `LIFE` = 1 in bit 0, `KIND` in bits 3:1, zeros in bits 15:4, `NTAPS` in bits 31:16. -/
def ctxcfg (k : Context) : Word :=
  BitVec.ofNat 16 k.ntaps ++ 0#12 ++ BitVec.ofNat 3 k.kind.code ++ 1#1

/-! ## The state image (R191) -/

/-- The state of a context as words, in the field order of R191. -/
def stateImage : Context → List Word
  | .hp _ st => sampleWord st.prevIn :: f64Words st.prevOut
  | .lp _ y => f64Words y
  | .bp _ st => sampleWord st.prevInHP :: f64Words st.prevOutHP ++ f64Words st.prevOutLP
  | .bq _ st => sampleWord st.x1 :: sampleWord st.x2 :: f64Words st.y1 ++ f64Words st.y2
  | .fir _ _ st => BitVec.ofNat 32 st.wp :: st.hist.map sampleWord

/-- The number of words of a state image (the "words" column of R191). -/
def stateImageWords : Kind → Nat → Nat
  | .hp, _ => 3
  | .lp, _ => 2
  | .bp, _ => 5
  | .bq, _ => 6
  | .fir, n => 1 + n

/-- A Sample word of an image: it must be a sign extension of its low 16 bits (R192). -/
def parseSample (w : Word) : Option Sample :=
  if sampleWord (beatS16 w) = w then some (beatS16 w) else none

/-- A `Num` of an image: it must be finite (R192). -/
def parseNum (lo hi : Word) : Option Num :=
  if F64.finite (f64 lo hi) then some (f64 lo hi) else none

/-- A run of Sample words of an image. -/
def parseSamples : List Word → Option (List Sample)
  | [] => some []
  | w :: ws =>
    match parseSample w, parseSamples ws with
    | some x, some xs => some (x :: xs)
    | _, _ => none

/-- The context with the state that the image `ws` holds; none for an image R192 calls invalid: one that is not of the
context's size, a Sample word that is no sign extension, a `Num` that is not finite, a `wp` ≥ `NTAPS`. -/
def parseState (k : Context) (ws : List Word) : Option Context :=
  match k, ws with
  | .hp a _, [w, l, h] =>
    match parseSample w, parseNum l h with
    | some x, some y => some (.hp a ⟨x, y⟩)
    | _, _ => none
  | .lp a _, [l, h] =>
    match parseNum l h with
    | some y => some (.lp a y)
    | none => none
  | .bp co _, [w, l, h, l', h'] =>
    match parseSample w, parseNum l h, parseNum l' h' with
    | some x, some y, some z => some (.bp co ⟨x, y, z⟩)
    | _, _, _ => none
  | .bq co _, [w, w', l, h, l', h'] =>
    match parseSample w, parseSample w', parseNum l h, parseNum l' h' with
    | some x, some x', some y, some y' => some (.bq co ⟨x, x', y, y'⟩)
    | _, _, _, _ => none
  | .fir n cs _, w :: ws =>
    if ws.length = n ∧ w.toNat < n then
      match parseSamples ws with
      | some h => some (.fir n cs ⟨h, w.toNat⟩)
      | none => none
    else none
  | _, _ => none

/-! ## The coefficient image (R195) -/

/-- The coefficients of a context as words, in the operand order of its `CREATEC` command. -/
def coefImage : Context → List Word
  | .hp a _ => f64Words a
  | .lp a _ => f64Words a
  | .bp co _ => f64Words co.alphaHP ++ f64Words co.alphaLP
  | .bq co _ => f64Words co.a0 ++ f64Words co.a1 ++ f64Words co.a2 ++ f64Words co.b1 ++ f64Words co.b2
  | .fir _ cs _ => cs.flatMap f64Words

/-! ## Bytes (R56): used where a value is serialised outside the block -/

/-- A Sample, or any 16-bit field, as bytes, low byte first (R56 (a)). -/
def sampleBytes (x : Sample) : List Byte := [x.extractLsb' 0 8, x.extractLsb' 8 8]

/-- A 32-bit word as bytes, low byte first (R56 (b)). -/
def wordBytes (w : Word) : List Byte :=
  [w.extractLsb' 0 8, w.extractLsb' 8 8, w.extractLsb' 16 8, w.extractLsb' 24 8]

/-- A `Num` as bytes: its low word first (R56 (b)). -/
def numBytes (v : Num) : List Byte := (f64Words v).flatMap wordBytes

end Sys2Proof.Machine
end

