-- ==== Sys2Proof/Machine/Ops.lean ====
section
/-! DEFINITION. The shared operations: the context bank, taking words and beats from the streams, answering, the refusals of
60_exceptions.md, and the frame that every family of commands has in common (30_encoding.md R72, 60_exceptions.md R211). -/

namespace Sys2Proof.Machine

/-! ## The context bank (10_state.md R20 to R22) -/

/-- `CTX[c]`: none while `CTX[c].LIFE` = INACTIVE. -/
def Bank.get (b : Bank) (c : Nat) : Option Context :=
  match b with
  | [] => none
  | e :: r => if e.1 = c then some e.2 else Bank.get r c

/-- `CTX[c] <- k`, with `CTX[c].LIFE <- ACTIVE`; the indices stay in rising order. -/
def Bank.set (b : Bank) (c : Nat) (k : Context) : Bank :=
  match b with
  | [] => [(c, k)]
  | e :: r =>
    if c < e.1 then (c, k) :: e :: r
    else if c = e.1 then (c, k) :: r
    else e :: Bank.set r c k

/-- `CTX[c].LIFE <- INACTIVE`: the context holds no value any more (R22, R196). -/
def Bank.erase (b : Bank) (c : Nat) : Bank := b.filter fun e => e.1 != c

/-- The canonical form of a bank: indices strictly rising, each below `NCTX`. Equal banks are then equal data. -/
abbrev Bank.wf (nctx : Nat) (b : Bank) : Prop :=
  b.Pairwise (fun x y => x.1 < y.1) ∧ ∀ e ∈ b, e.1 < nctx

/-! ## Updates of the state -/

/-- The block reads `words` words from `CMD` and `beats` beats from `DIN` (R72). -/
def State.consume (s : State) (words beats : Nat) : State :=
  { s with cmd := s.cmd.drop words, din := s.din.drop beats }

/-- Sticky flags are set (R31); no flag is ever cleared here. -/
def State.flag (s : State) (f : BitVec 32) : State := { s with status := s.status ||| f }

/-- Response words go to `RSP` (R72). -/
def State.respond (s : State) (ws : List Word) : State := { s with rsp := s.rsp ++ ws }

/-- Output beats go to `DOUT` (R72, R50). -/
def State.emit (s : State) (ws : List Word) : State := { s with dout := s.dout ++ ws }

/-- `CTX[c] <- k`. -/
def State.putCtx (s : State) (c : Nat) (k : Context) : State := { s with ctx := Bank.set s.ctx c k }

/-- `CTX[c].LIFE <- INACTIVE`. -/
def State.dropCtx (s : State) (c : Nat) : State := { s with ctx := Bank.erase s.ctx c }

/-- `HALT <- 1`. -/
def State.stop (s : State) : State := { s with halt := true }

/-! ## Answers (30_encoding.md R75, 60_exceptions.md R212 to R219) -/

/-- The response header: `OPC` and `CTX` echoed, bits 15:8 zero, the code in bits 7:0. -/
def respHeader (o : Op) (c : Byte) (code : Code) : Word := o.code ++ c ++ 0#8 ++ code.byte

/-- A command that is accepted answers `OK` and its payload. -/
def accept (o : Op) (c : Byte) (payload : List Word) (s : State) : State :=
  s.respond (respHeader o c .ok :: payload)

/-- TAKING A REFUSAL (R212): one header word with the code, the sticky bit of the code, and nothing else. The command's
words and beats have been consumed already. -/
def refuse (o : Op) (c : Byte) (code : Code) (s : State) : State :=
  (s.flag code.flag).respond [respHeader o c code]

/-- `NUM_NONFINITE` (R219), the one refusal that changes a context: it is released. -/
def refuseNonfinite (o : Op) (c : Byte) (s : State) : State :=
  (refuse o c .numNonfinite s).dropCtx c.toNat

/-- `ILLEGAL` (R214): the header alone is consumed; its `OPC` and `CTX` bytes are echoed, `STATUS.ILL` is set and the block
halts. There is no return from it but reset (`State.hostReset`). -/
def refuseIllegal (h : Word) (s : State) : State :=
  (((s.consume 1 0).flag Code.illegal.flag).respond
    [hdrOpc h ++ hdrCtx h ++ 0#8 ++ Code.illegal.byte]).stop

/-! ## The frame of a command (R211) -/

/-- Check 2: `CTX` < `NCTX`. -/
def inRange (o : Op) (c : Byte) (s : State) (go : State) : State :=
  if c.toNat < s.par.nctx then go else refuse o c .ctxRange s

/-- Checks 2 and 3: `CTX` < `NCTX`, then `CTX[c].LIFE = ACTIVE`. -/
def withContext (o : Op) (c : Byte) (s : State) (go : Context → State) : State :=
  inRange o c s
    (match Bank.get s.ctx c.toNat with
     | none => refuse o c .ctxInactive s
     | some k => go k)

/-- A designer: it answers its result, or `CFG_INVALID` (check 5) where it has none. -/
def design (o : Op) (payload : Option (List Word)) (s : State) : State :=
  match payload with
  | some ws => accept o 0#8 ws s
  | none => refuse o 0#8 .cfgInvalid s

/-- A creation: the new context replaces what `CTX[c]` held (R37); where there is none, `CFG_INVALID` (check 5) and the
named context is untouched (R218). -/
def create (o : Op) (c : Byte) (k : Option Context) (s : State) : State :=
  inRange o c s
    (match k with
     | some k => accept o c [] (s.putCtx c.toNat k)
     | none => refuse o c .cfgInvalid s)

/-- What running a recurrence over a chunk gives: the context has another kind (check 4), some value was not finite
(check 6), or the context with its new state, the output Samples, and whether one of them saturated. -/
inductive ProcResult where
  | mismatch
  | nonfinite
  | done (k : Context) (ys : List Sample) (ovf : Bool)
  deriving DecidableEq, Repr

/-- What a `PROC` command does once its words and beats are read (R211, R219). -/
def finishProc (o : Op) (c : Byte) (r : ProcResult) (s : State) : State :=
  match r with
  | .mismatch => refuse o c .kindMismatch s
  | .nonfinite => refuseNonfinite o c s
  | .done k ys ovf => accept o c [] (((s.putCtx c.toNat k).emit (ys.map sampleWord)).flag (Flag.ofOvf ovf))

/-- The frame of a buffer command: it waits, and nothing changes, until its `LEN` beats are there (R248); then its two
command words and its beats are consumed (DESIGN CHOICE, log entry 5). -/
def buffered (len : Word) (s : State) (go : List Word → State → State) : State :=
  if s.din.length < len.toNat then s
  else go (s.din.take len.toNat) (s.consume 2 len.toNat)

/-- A `PROC` command. -/
def procCommand (o : Op) (c : Byte) (len : Word) (run : Context → List Sample → ProcResult) (s : State) : State :=
  buffered len s fun beats s' =>
    withContext o c s' fun k => finishProc o c (run k (beats.map beatS16)) s'

/-! ## Recurrences over a chunk (R18, R65): a left fold of a per-sample step -/

/-- One step of a recurrence: the output, whether it saturated, the new state. -/
structure StepOut (σ : Type) where
  out : Sample
  ovf : Bool
  st : σ

/-- A whole chunk: the outputs in order, whether one saturated, the state after it. -/
structure Run (σ : Type) where
  ys : List Sample
  ovf : Bool
  st : σ

/-- The output `narrow16(k)` beside the new state (R16). -/
def outputs {σ : Type} (k : Int) (st : σ) : StepOut σ := ⟨narrow16 k, saturates k, st⟩

/-- `K_process`: fold the step over the chunk, collecting the outputs; none as soon as a step meets a value that is not
finite (R219). -/
def process {σ : Type} (step : σ → Sample → Option (StepOut σ)) (st : σ) (xs : List Sample) : Option (Run σ) :=
  match xs with
  | [] => some ⟨[], false, st⟩
  | x :: xs =>
    match step st x with
    | none => none
    | some o =>
      match process step o.st xs with
      | none => none
      | some r => some ⟨o.out :: r.ys, o.ovf || r.ovf, r.st⟩

/-- The result of a chunk as a context of the kind that ran it. -/
def ofRun {σ : Type} (mk : σ → Context) (r : Option (Run σ)) : ProcResult :=
  match r with
  | none => .nonfinite
  | some r => .done (mk r.st) r.ys r.ovf

end Sys2Proof.Machine
end

