-- ==== Sys2Proof/Machine/SinglePole.lean ====
section
/-! DEFINITION. The single-pole family (41_single_pole.md): `ALPHA.HP`, `ALPHA.LP`, `CREATE.HP`, `CREATE.LP`, `CREATEC.HP`,
`CREATEC.LP`, `PROC.HP`, `PROC.LP`, and the validity predicate every designer uses (R128). -/

namespace Sys2Proof.Machine
open F64

/-- `valid_fc_fs(fc, fs)` (R128). -/
def validFcFs (fc fs : Num) : Bool :=
  finite fc && finite fs && lt zero fs && lt zero fc && lt fc (div fs two)

/-- `RC = ONE ⊘ ((TWO ⊗ PI) ⊗ fc)` (R120). -/
def rcOf (fc : Num) : Num := div one (mul (mul two Constants.pi) fc)

/-- `alphaHP(fc, fs)` (R120). -/
def alphaHP (fc fs : Num) : Num := div (rcOf fc) (add (rcOf fc) (div one fs))

/-- `alphaLP(fc, fs)` (R121): by its own division, not from `alphaHP`. -/
def alphaLP (fc fs : Num) : Num := div (div one fs) (add (rcOf fc) (div one fs))

/-- The α of a valid configuration, if it is finite (R120, R218 (a)). -/
def designAlpha (alpha : Num → Num → Num) (fc fs : Num) : Option Num :=
  if validFcFs fc fs && finite (alpha fc fs) then some (alpha fc fs) else none

/-- A `Num` that was given, if it is finite (R124, R218 (e)). -/
def givenNum (v : Num) : Option Num := if finite v then some v else none

/-- A just-created high-pass context (R122, R37). -/
def newHp (alpha : Num) : Context := .hp alpha ⟨0#16, zero⟩

/-- A just-created low-pass context (R123, R37). -/
def newLp (alpha : Num) : Context := .lp alpha zero

/-- `hp_step` (R126); none if y is not finite (R219). -/
def hpStep (alpha : Num) (st : HpState) (x : Sample) : Option (StepOut HpState) :=
  let y := mul alpha (sub (add st.prevOut (sampleNum x)) (sampleNum st.prevIn))
  if finite y then some (outputs (trunc y) ⟨x, y⟩) else none

/-- `lp_step` (R127); none if y is not finite (R219). -/
def lpStep (alpha : Num) (prevOut : Num) (x : Sample) : Option (StepOut Num) :=
  let y := add prevOut (mul alpha (sub (sampleNum x) prevOut))
  if finite y then some (outputs (trunc y) y) else none

/-- `hp_process` (R126). -/
def hpProcess (alpha : Num) (st : HpState) (xs : List Sample) : Option (Run HpState) := process (hpStep alpha) st xs

/-- `lp_process` (R127). -/
def lpProcess (alpha : Num) (st : Num) (xs : List Sample) : Option (Run Num) := process (lpStep alpha) st xs

/-- `PROC.HP` on the registers of a context. -/
def runHp (k : Context) (xs : List Sample) : ProcResult :=
  match k with
  | .hp alpha st => ofRun (.hp alpha) (hpProcess alpha st xs)
  | .lp _ _ | .bp _ _ | .bq _ _ | .fir _ _ _ => .mismatch

/-- `PROC.LP` on the registers of a context. -/
def runLp (k : Context) (xs : List Sample) : ProcResult :=
  match k with
  | .lp alpha st => ofRun (.lp alpha) (lpProcess alpha st xs)
  | .hp _ _ | .bp _ _ | .bq _ _ | .fir _ _ _ => .mismatch

/-- `ALPHA.HP` (R120). -/
def execAlphaHp (fc fs : Num) (s : State) : Result :=
  .next (design .alphaHp ((designAlpha alphaHP fc fs).map f64Words) (s.consume 5 0))

/-- `ALPHA.LP` (R121). -/
def execAlphaLp (fc fs : Num) (s : State) : Result :=
  .next (design .alphaLp ((designAlpha alphaLP fc fs).map f64Words) (s.consume 5 0))

/-- `CREATE.HP` (R122). -/
def execCreateHp (c : Byte) (fc fs : Num) (s : State) : Result :=
  .next (create .createHp c ((designAlpha alphaHP fc fs).map newHp) (s.consume 5 0))

/-- `CREATE.LP` (R123). -/
def execCreateLp (c : Byte) (fc fs : Num) (s : State) : Result :=
  .next (create .createLp c ((designAlpha alphaLP fc fs).map newLp) (s.consume 5 0))

/-- `CREATEC.HP` (R124). -/
def execCreatecHp (c : Byte) (alpha : Num) (s : State) : Result :=
  .next (create .createcHp c ((givenNum alpha).map newHp) (s.consume 3 0))

/-- `CREATEC.LP` (R125). -/
def execCreatecLp (c : Byte) (alpha : Num) (s : State) : Result :=
  .next (create .createcLp c ((givenNum alpha).map newLp) (s.consume 3 0))

/-- `PROC.HP` (R126). -/
def execProcHp (c : Byte) (len : Word) (s : State) : Result :=
  .next (procCommand .procHp c len runHp s)

/-- `PROC.LP` (R127). -/
def execProcLp (c : Byte) (len : Word) (s : State) : Result :=
  .next (procCommand .procLp c len runLp s)

end Sys2Proof.Machine
end

