-- ==== Sys2Proof/Machine/BandPass.lean ====
section
/-! DEFINITION. The cascaded band-pass family (42_bandpass.md): `CREATE.BP`, `CREATEC.BP`, `PROC.BP`. -/

namespace Sys2Proof.Machine
open F64

/-- The two α of a valid configuration (R140): the low cutoff goes to the high-pass stage, the high cutoff to the low-pass
stage. -/
def designBp (low high fs : Num) : Option BpCoef :=
  match designAlpha alphaHP low fs, designAlpha alphaLP high fs with
  | some aH, some aL => some ⟨aH, aL⟩
  | _, _ => none

/-- Two given α, if both are finite (R141). -/
def givenBp (aH aL : Num) : Option BpCoef := if finite aH && finite aL then some ⟨aH, aL⟩ else none

/-- A just-created band-pass context (R140, R37). -/
def newBp (co : BpCoef) : Context := .bp co ⟨0#16, zero, zero⟩

/-- `bp_process` (R143): the high-pass stage over the whole chunk, then the low-pass stage over its output Samples. -/
def bpProcess (co : BpCoef) (st : BpState) (xs : List Sample) : Option (Run BpState) :=
  match hpProcess co.alphaHP ⟨st.prevInHP, st.prevOutHP⟩ xs with
  | none => none
  | some u =>
    match lpProcess co.alphaLP st.prevOutLP u.ys with
    | none => none
    | some r => some ⟨r.ys, u.ovf || r.ovf, ⟨u.st.prevIn, u.st.prevOut, r.st⟩⟩

/-- `PROC.BP` on the registers of a context. -/
def runBp (k : Context) (xs : List Sample) : ProcResult :=
  match k with
  | .bp co st => ofRun (.bp co) (bpProcess co st xs)
  | .hp _ _ | .lp _ _ | .bq _ _ | .fir _ _ _ => .mismatch

/-- `CREATE.BP` (R140). -/
def execCreateBp (c : Byte) (low high fs : Num) (s : State) : Result :=
  .next (create .createBp c ((designBp low high fs).map newBp) (s.consume 7 0))

/-- `CREATEC.BP` (R141). -/
def execCreatecBp (c : Byte) (aH aL : Num) (s : State) : Result :=
  .next (create .createcBp c ((givenBp aH aL).map newBp) (s.consume 5 0))

/-- `PROC.BP` (R143). -/
def execProcBp (c : Byte) (len : Word) (s : State) : Result :=
  .next (procCommand .procBp c len runBp s)

end Sys2Proof.Machine
end

