-- ==== Sys2Proof/Machine/Biquad.lean ====
section
/-! DEFINITION. The biquad family (43_biquad.md): `BQD.BP`, `BQD.HP`, `CREATE.BQBP`, `CREATE.BQHP`, `CREATEC.BQ`, `PROC.BQ`. -/

namespace Sys2Proof.Machine
open F64

/-- `valid_bq(f, fs, Q)` (R155). -/
def validBq (f fs q : Num) : Bool := validFcFs f fs && finite q && lt zero q

/-- `w = ((TWO ⊗ PI) ⊗ f) ⊘ fs` (R150, R170). -/
def omega (f fs : Num) : Num := div (mul (mul two Constants.pi) f) fs

/-- `bq_design_bp` (R150). -/
def bqDesignBp (f fs q : Num) : BqCoef :=
  let w0 := omega f fs
  let al := div (sin w0) (mul two q)
  let norm := div one (add one al)
  { a0 := mul al norm
    a1 := zero
    a2 := mul (neg al) norm
    b1 := mul (mul (neg two) (cos w0)) norm
    b2 := mul (sub one al) norm }

/-- `bq_design_hp` (R151), by the formulas the spec supplies from general knowledge (G2): a replaceable designer
(PRESUMED, log entry 8, unsafe). -/
def bqDesignHp (f fs q : Num) : BqCoef :=
  let w0 := omega f fs
  let al := div (sin w0) (mul two q)
  let norm := div one (add one al)
  let cw := cos w0
  let a0 := mul (div (add one cw) two) norm
  { a0 := a0
    a1 := mul (neg (add one cw)) norm
    a2 := a0
    b1 := mul (mul (neg two) cw) norm
    b2 := mul (sub one al) norm }

/-- Are all five coefficients finite? -/
def BqCoef.allFinite (co : BqCoef) : Bool :=
  finite co.a0 && finite co.a1 && finite co.a2 && finite co.b1 && finite co.b2

/-- The coefficients a designer gives for a valid configuration, if all are finite (R155, R218 (c)). -/
def designBq (designer : Num → Num → Num → BqCoef) (f fs q : Num) : Option BqCoef :=
  if validBq f fs q && (designer f fs q).allFinite then some (designer f fs q) else none

/-- Given coefficients, if all are finite (R154). -/
def givenBq (co : BqCoef) : Option BqCoef := if co.allFinite then some co else none

/-- The five coefficients as payload words, a0 first (R79). -/
def bqWords (co : BqCoef) : List Word :=
  f64Words co.a0 ++ f64Words co.a1 ++ f64Words co.a2 ++ f64Words co.b1 ++ f64Words co.b2

/-- A just-created biquad context (R152, R37). -/
def newBq (co : BqCoef) : Context := .bq co ⟨0#16, 0#16, zero, zero⟩

/-- `bq_step` (R156): products rounded once, combined left to right; none if y0 is not finite (R219). -/
def bqStep (co : BqCoef) (st : BqState) (x0 : Sample) : Option (StepOut BqState) :=
  let y0 :=
    sub (sub (add (add (mul co.a0 (sampleNum x0)) (mul co.a1 (sampleNum st.x1))) (mul co.a2 (sampleNum st.x2)))
      (mul co.b1 st.y1)) (mul co.b2 st.y2)
  if finite y0 then some (outputs (roundHA y0) ⟨x0, st.x1, y0, st.y1⟩) else none

/-- `bq_process` (R156). -/
def bqProcess (co : BqCoef) (st : BqState) (xs : List Sample) : Option (Run BqState) := process (bqStep co) st xs

/-- `PROC.BQ` on the registers of a context. -/
def runBq (k : Context) (xs : List Sample) : ProcResult :=
  match k with
  | .bq co st => ofRun (.bq co) (bqProcess co st xs)
  | .hp _ _ | .lp _ _ | .bp _ _ | .fir _ _ _ => .mismatch

/-- `BQD.BP` (R150). -/
def execBqdBp (f fs q : Num) (s : State) : Result :=
  .next (design .bqdBp ((designBq bqDesignBp f fs q).map bqWords) (s.consume 7 0))

/-- `BQD.HP` (R151). -/
def execBqdHp (f fs q : Num) (s : State) : Result :=
  .next (design .bqdHp ((designBq bqDesignHp f fs q).map bqWords) (s.consume 7 0))

/-- `CREATE.BQBP` (R152). -/
def execCreateBqbp (c : Byte) (f fs q : Num) (s : State) : Result :=
  .next (create .createBqbp c ((designBq bqDesignBp f fs q).map newBq) (s.consume 7 0))

/-- `CREATE.BQHP` (R153). -/
def execCreateBqhp (c : Byte) (f fs q : Num) (s : State) : Result :=
  .next (create .createBqhp c ((designBq bqDesignHp f fs q).map newBq) (s.consume 7 0))

/-- `CREATEC.BQ` (R154). -/
def execCreatecBq (c : Byte) (a0 a1 a2 b1 b2 : Num) (s : State) : Result :=
  .next (create .createcBq c ((givenBq ⟨a0, a1, a2, b1, b2⟩).map newBq) (s.consume 11 0))

/-- `PROC.BQ` (R156). -/
def execProcBq (c : Byte) (len : Word) (s : State) : Result :=
  .next (procCommand .procBq c len runBq s)

end Sys2Proof.Machine
end

