-- ==== Sys2Proof/Machine/Codec.lean ====
section
/-! DEFINITION. The codec family (40_codec.md): `ULAW.DEC`, `ULAW.ENC`, `ULAW.DECB`, `ULAW.ENCB`. All arithmetic is on
integers (R104). -/

namespace Sys2Proof.Machine
open Constants

/-- `decode(b)` of R100, as an integer. -/
def ulawDecodeInt (b : Byte) : Int :=
  let u := 255 - b.toNat
  let s := u >>> 7
  let e := (u >>> 4) % 8
  let m := u % 16
  let mag := (m <<< decMantShift) + decHalf
  let mag := if 0 < e then mag + decSegBase else mag
  let mag := if 1 < e then mag <<< (e - 1) else mag
  if s = 1 then -(mag : Int) else (mag : Int)

/-- `decode(b)`: a Sample (R100). -/
def ulawDecode (b : Byte) : Sample := BitVec.ofInt 16 (ulawDecodeInt b)

/-- The exponent search of R101: halve q while it is above `ENC_LIMIT`, counting. Eight halvings suffice (R34, R104). -/
def encExponent : Nat → Nat → Nat × Nat
  | 0, q => (q, 0)
  | fuel + 1, q =>
    if encLimit < q then
      let r := encExponent fuel (q >>> 1)
      (r.1, r.2 + 1)
    else (q, 0)

/-- `encode(x)` of R101, on any integer. -/
def ulawEncode (x : Int) : Byte :=
  let x := max clampMin (min x clampMax)
  let sign := if x < 0 then 0x80 else 0
  let q := x.natAbs >>> encPreshift
  let r := encExponent 8 q
  let cand := r.1 &&& encCandMask
  let m := cand &&& encMantMask
  let u := sign ||| (r.2 <<< 4) ||| m
  ~~~(BitVec.ofNat 8 u)

/-- A codec buffer command: element-wise, order and length preserved (R102, R103). -/
def codecBuffer (o : Op) (len : Word) (f : Word → Word) (s : State) : State :=
  buffered len s fun beats s' => accept o 0#8 [] (s'.emit (beats.map f))

/-- `ULAW.DEC` (R100). -/
def execUlawDec (b : Byte) (s : State) : Result :=
  .next (accept .ulawDec 0#8 [sampleWord (ulawDecode b)] (s.consume 1 0))

/-- `ULAW.ENC` (R101): the operand is the signed value of its word (`sext_32`). -/
def execUlawEnc (x : Word) (s : State) : Result :=
  .next (accept .ulawEnc 0#8 [byteWord (ulawEncode x.toInt)] (s.consume 2 0))

/-- `ULAW.DECB` (R102). -/
def execUlawDecb (len : Word) (s : State) : Result :=
  .next (codecBuffer .ulawDecb len (fun w => sampleWord (ulawDecode (beatU8 w))) s)

/-- `ULAW.ENCB` (R103). -/
def execUlawEncb (len : Word) (s : State) : Result :=
  .next (codecBuffer .ulawEncb len (fun w => byteWord (ulawEncode w.toInt)) s)

end Sys2Proof.Machine
end

