-- ==== Sys2Proof/Machine/ContextSystem.lean ====
section
/-! DEFINITION. The context and system commands (45_context_system.md): `STATE.RD`, `STATE.WR`, `COEF.RD`, `RELEASE`,
`STATUS.RD`. -/

namespace Sys2Proof.Machine

/-- `STATE.RD` (R190): `CTXCFG`, then the state image. -/
def execStateRd (c : Byte) (s : State) : Result :=
  .next (withContext .stateRd c (s.consume 1 0) fun k =>
    accept .stateRd c (ctxcfg k :: stateImage k) (s.consume 1 0))

/-- `STATE.WR` (R192): the state of the context becomes the one the image holds, or `STATE_INVALID`. -/
def execStateWr (c : Byte) (ws : List Word) (s : State) : Result :=
  .next (withContext .stateWr c (s.consume (2 + ws.length) 0) fun k =>
    match parseState k ws with
    | some k' => accept .stateWr c [] ((s.consume (2 + ws.length) 0).putCtx c.toNat k')
    | none => refuse .stateWr c .stateInvalid (s.consume (2 + ws.length) 0))

/-- `COEF.RD` (R194): `CTXCFG`, then the coefficient image. -/
def execCoefRd (c : Byte) (s : State) : Result :=
  .next (withContext .coefRd c (s.consume 1 0) fun k =>
    accept .coefRd c (ctxcfg k :: coefImage k) (s.consume 1 0))

/-- `RELEASE` (R196). -/
def execRelease (c : Byte) (s : State) : Result :=
  .next (withContext .release c (s.consume 1 0) fun _ =>
    accept .release c [] ((s.consume 1 0).dropCtx c.toNat))

/-- `STATUS.RD` (R198). -/
def execStatusRd (s : State) : Result :=
  .next (accept .statusRd 0#8 [s.status] (s.consume 1 0))

end Sys2Proof.Machine
end

