-- ==== Sys2Proof/Machine/Fir.lean ====
section
/-! DEFINITION. The FIR family (44_fir.md): `FIRD.LP`, `CREATE.FIR`, `CREATEC.FIR`, `PROC.FIR`, and the addressing of the history
memory (20_memory.md R54). -/

namespace Sys2Proof.Machine
open F64

/-- `valid_taps(N)` (R171): N is odd and 1 ≤ N ≤ `NMAX`. -/
def validTaps (nmax n : Nat) : Bool := decide (n % 2 = 1) && decide (n ≤ nmax)

/-- `valid_fir(fc, fs, N)` (R171). -/
def validFir (nmax : Nat) (fc fs : Num) (n : Nat) : Bool := validFcFs fc fs && validTaps nmax n

/-- `r[i]` of `fir_design` (R170): the windowed sinc off the centre, `w ⊘ PI` at it. -/
def firTap (w : Num) (n i : Nat) : Num :=
  let m := (n - 1) / 2
  if i = m then div w Constants.pi
  else
    let k := ofInt ((i : Int) - (m : Int))
    let sinc := div (sin (mul w k)) (mul Constants.pi k)
    let win := sub Constants.winA
      (mul Constants.winB (cos (div (mul (mul two Constants.pi) (ofInt i)) (ofInt ((n : Int) - 1)))))
    mul sinc win

/-- The coefficients before they are normalised, `r[0]` first. -/
def firRaw (fc fs : Num) (n : Nat) : List Num := (List.range n).map (firTap (omega fc fs) n)

/-- Their sum, ascending from `ZERO`. -/
def firSum (rs : List Num) : Num := rs.foldl add zero

/-- `fir_design` (R170): each coefficient is divided by the sum. -/
def firDesign (fc fs : Num) (n : Nat) : List Num :=
  (firRaw fc fs n).map fun r => div r (firSum (firRaw fc fs n))

/-- The coefficients of a valid configuration, if the sum is a finite number other than zero and every coefficient is finite
(R170, R218 (d)). -/
def designFir (nmax : Nat) (fc fs : Num) (n : Nat) : Option (List Num) :=
  let s := firSum (firRaw fc fs n)
  if validFir nmax fc fs n && !isZero s && finite s && (firDesign fc fs n).all finite then some (firDesign fc fs n)
  else none

/-- Given coefficients, if their number is a tap count and all are finite (R173). -/
def givenFir (nmax : Nat) (cs : List Num) : Option (List Num) :=
  if validTaps nmax cs.length && cs.all finite then some cs else none

/-- A just-created FIR context (R172, R37): `NTAPS` is the number of coefficients, the history is zeros, `wp` is 0. -/
def newFir (cs : List Num) : Context := .fir cs.length cs ⟨List.replicate cs.length 0#16, 0⟩

/-! ## The history memory (R53, R54) -/

/-- `HIST[c][a]`. -/
def histRead (h : List Sample) (a : Nat) : Sample := h.getD a 0#16

/-- `HIST[c][a] <- x`. -/
def histWrite (h : List Sample) (a : Nat) (x : Sample) : List Sample := h.set a x

/-- The address tap `j` reads (R54): `(wp − j + N) mod N`. -/
def tapAddr (n wp j : Nat) : Nat := (wp + n - j) % n

/-- The convolution sum of R176, ascending in j from `ZERO`, over a history that holds the new sample already. -/
def firAcc (n : Nat) (cs : List Num) (h : List Sample) (wp : Nat) : Num :=
  (List.range n).foldl (fun acc j => add acc (mul (sampleNum (histRead h (tapAddr n wp j))) (cs.getD j zero))) zero

/-- `fir_step` (R176): the write comes first; none if acc is not finite (R219). -/
def firStep (n : Nat) (cs : List Num) (st : FirState) (x : Sample) : Option (StepOut FirState) :=
  let h := histWrite st.hist st.wp x
  let acc := firAcc n cs h st.wp
  if finite acc then some (outputs (roundHA acc) ⟨h, (st.wp + 1) % n⟩) else none

/-- `fir_process` (R176). -/
def firProcess (n : Nat) (cs : List Num) (st : FirState) (xs : List Sample) : Option (Run FirState) :=
  process (firStep n cs) st xs

/-- `PROC.FIR` on the registers of a context. -/
def runFir (k : Context) (xs : List Sample) : ProcResult :=
  match k with
  | .fir n cs st => ofRun (.fir n cs) (firProcess n cs st xs)
  | .hp _ _ | .lp _ _ | .bp _ _ | .bq _ _ => .mismatch

/-- `FIRD.LP` (R170). -/
def execFirdLp (n : BitVec 16) (fc fs : Num) (s : State) : Result :=
  .next (design .firdLp ((designFir s.par.nmax fc fs n.toNat).map fun cs => cs.flatMap f64Words) (s.consume 5 0))

/-- `CREATE.FIR` (R172). -/
def execCreateFir (c : Byte) (n : BitVec 16) (fc fs : Num) (s : State) : Result :=
  .next (create .createFir c ((designFir s.par.nmax fc fs n.toNat).map newFir) (s.consume 5 0))

/-- `CREATEC.FIR` (R173). -/
def execCreatecFir (c : Byte) (cs : List Num) (s : State) : Result :=
  .next (create .createcFir c ((givenFir s.par.nmax cs).map newFir) (s.consume (1 + 2 * cs.length) 0))

/-- `PROC.FIR` (R176). -/
def execProcFir (c : Byte) (len : Word) (s : State) : Result :=
  .next (procCommand .procFir c len runFir s)

end Sys2Proof.Machine
end

