-- ==== Sys2Proof/Machine/Dispatch.lean ====
section
/-! DEFINITION. One arm per command, each a call of its meaning. -/

namespace Sys2Proof.Machine

/-- The whole transition of a command (R72): its words are taken from `CMD`, its beats from `DIN`, its outputs and its
response are put on `DOUT` and `RSP`. -/
def exec (i : Instr) (s : State) : Host.Outcome State Fault Refusal :=
  match i with
  -- codec
  | .ulawDec b => Sys2Proof.Machine.execUlawDec b s
  | .ulawEnc x => Sys2Proof.Machine.execUlawEnc x s
  | .ulawDecb len => Sys2Proof.Machine.execUlawDecb len s
  | .ulawEncb len => Sys2Proof.Machine.execUlawEncb len s
  -- designers
  | .alphaHp fc fs => Sys2Proof.Machine.execAlphaHp fc fs s
  | .alphaLp fc fs => Sys2Proof.Machine.execAlphaLp fc fs s
  | .bqdBp f fs q => Sys2Proof.Machine.execBqdBp f fs q s
  | .bqdHp f fs q => Sys2Proof.Machine.execBqdHp f fs q s
  | .firdLp n fc fs => Sys2Proof.Machine.execFirdLp n fc fs s
  -- creation from a configuration
  | .createHp c fc fs => Sys2Proof.Machine.execCreateHp c fc fs s
  | .createLp c fc fs => Sys2Proof.Machine.execCreateLp c fc fs s
  | .createBp c low high fs => Sys2Proof.Machine.execCreateBp c low high fs s
  | .createBqbp c f fs q => Sys2Proof.Machine.execCreateBqbp c f fs q s
  | .createBqhp c f fs q => Sys2Proof.Machine.execCreateBqhp c f fs q s
  | .createFir c n fc fs => Sys2Proof.Machine.execCreateFir c n fc fs s
  -- creation from coefficients
  | .createcHp c alpha => Sys2Proof.Machine.execCreatecHp c alpha s
  | .createcLp c alpha => Sys2Proof.Machine.execCreatecLp c alpha s
  | .createcBp c aH aL => Sys2Proof.Machine.execCreatecBp c aH aL s
  | .createcBq c a0 a1 a2 b1 b2 => Sys2Proof.Machine.execCreatecBq c a0 a1 a2 b1 b2 s
  | .createcFir c cs => Sys2Proof.Machine.execCreatecFir c cs s
  -- processing
  | .procHp c len => Sys2Proof.Machine.execProcHp c len s
  | .procLp c len => Sys2Proof.Machine.execProcLp c len s
  | .procBp c len => Sys2Proof.Machine.execProcBp c len s
  | .procBq c len => Sys2Proof.Machine.execProcBq c len s
  | .procFir c len => Sys2Proof.Machine.execProcFir c len s
  -- context and system
  | .stateRd c => Sys2Proof.Machine.execStateRd c s
  | .stateWr c ws => Sys2Proof.Machine.execStateWr c ws s
  | .coefRd c => Sys2Proof.Machine.execCoefRd c s
  | .release c => Sys2Proof.Machine.execRelease c s
  | .statusRd => Sys2Proof.Machine.execStatusRd s

end Sys2Proof.Machine
end

