-- ==== Sys2Proof/Machine/Step.lean ====
section
/-! DEFINITION. One step of the block: one command (00_scope.md R7), or nothing while the block is halted (R32) or waits for a
word (R248). -/

namespace Sys2Proof.Machine

/-- One step. The block has no program counter: it reads the next header from `CMD` (R34, R72). Waiting and a
halted block are steps without effect (DESIGN CHOICE, log entry 5, safe). -/
def step (s : State) : Host.Outcome State Fault Refusal :=
  if s.halt then .next s
  else
    match decode s.cmd with
    | .instr i => exec i s
    | .illegal h _ => .next (refuseIllegal h s)
    | .incomplete => .next s

/-- `s` with the instruction whose bits are `w` at the front of `CMD`, and the block not halted: the next step runs it
(DEDUCED, log entry 9, safe). -/
def State.withFetchWord (s : State) (nbits w : Nat) : State :=
  { s with cmd := tableCommand nbits w ++ s.cmd, halt := false }

end Sys2Proof.Machine
end

