-- ==== Sys2Proof/Machine/Assembler.lean ====
section
/-! DEFINITION. The host's names for commands: the configuration surface of the source (10_state.md R23, R39), its
pseudo-commands (30_encoding.md R83), and the text form of a command (R82). No meaning uses this file (DEDUCED, log entry 11,
safe). -/

namespace Sys2Proof.Machine

/-- `{ topology, cutoffHz | {lowCutoffHz, highCutoffHz}, sampleRateHz, Q, tapCount }` (R39): one constructor per topology. -/
inductive StreamConfig where
  | highpass (cutoffHz sampleRateHz : Num)
  | lowpass (cutoffHz sampleRateHz : Num)
  | bandpass (lowCutoffHz highCutoffHz sampleRateHz : Num)
  | biquadBandpass (f sampleRateHz q : Num)
  | biquadHighpass (f sampleRateHz q : Num)
  | firLowpass (tapCount : BitVec 16) (cutoffHz sampleRateHz : Num)
  deriving DecidableEq, Repr

/-- The kind of a topology (R23): the two biquad topologies share BQ. -/
def StreamConfig.kind : StreamConfig → Kind
  | .highpass _ _ => .hp
  | .lowpass _ _ => .lp
  | .bandpass _ _ _ => .bp
  | .biquadBandpass _ _ _ | .biquadHighpass _ _ _ => .bq
  | .firLowpass _ _ _ => .fir

/-- `createState c, config` (R83). -/
def createState (c : Byte) : StreamConfig → Instr
  | .highpass fc fs => .createHp c fc fs
  | .lowpass fc fs => .createLp c fc fs
  | .bandpass low high fs => .createBp c low high fs
  | .biquadBandpass f fs q => .createBqbp c f fs q
  | .biquadHighpass f fs q => .createBqhp c f fs q
  | .firLowpass n fc fs => .createFir c n fc fs

/-- `process c, [..]` for a context of kind `k` (R83): the assembler must know the kind. -/
def processCommand (k : Kind) (c : Byte) (len : Word) : Instr :=
  match k with
  | .hp => .procHp c len
  | .lp => .procLp c len
  | .bp => .procBp c len
  | .bq => .procBq c len
  | .fir => .procFir c len

/-- The pipeline of R6 for one chunk (R83). -/
def pipeline (k : Kind) (c : Byte) (len : Word) : List Instr :=
  [.ulawDecb len, processCommand k c len, .ulawEncb len]

end Sys2Proof.Machine

namespace Sys2Proof

/-- The mnemonics of R78. -/
def Op.mnemonic : Op → String
  | .ulawDec => "ULAW.DEC" | .ulawEnc => "ULAW.ENC" | .ulawDecb => "ULAW.DECB" | .ulawEncb => "ULAW.ENCB"
  | .alphaHp => "ALPHA.HP" | .alphaLp => "ALPHA.LP" | .bqdBp => "BQD.BP" | .bqdHp => "BQD.HP"
  | .firdLp => "FIRD.LP"
  | .createHp => "CREATE.HP" | .createLp => "CREATE.LP" | .createBp => "CREATE.BP"
  | .createBqbp => "CREATE.BQBP" | .createBqhp => "CREATE.BQHP" | .createFir => "CREATE.FIR"
  | .createcHp => "CREATEC.HP" | .createcLp => "CREATEC.LP" | .createcBp => "CREATEC.BP"
  | .createcBq => "CREATEC.BQ" | .createcFir => "CREATEC.FIR"
  | .procHp => "PROC.HP" | .procLp => "PROC.LP" | .procBp => "PROC.BP" | .procBq => "PROC.BQ"
  | .procFir => "PROC.FIR"
  | .stateRd => "STATE.RD" | .stateWr => "STATE.WR" | .coefRd => "COEF.RD" | .release => "RELEASE"
  | .statusRd => "STATUS.RD"

end Sys2Proof

namespace Sys2Proof.Machine

/-- The `Num` a decimal literal `±n · 10^e` means: the nearest one (R82). Where R82 leaves it open, a literal half-way between two
`Num` is the even one, one past the largest finite value rounds as an arithmetic result does (to an infinity from the midpoint on),
and a zero has the literal's sign (DESIGN CHOICE, log entry 14, unsafe). -/
def decimalNum (neg : Bool) (n : Nat) (e : Int) : Num :=
  if 0 ≤ e then F64.roundUnits neg ((n * 10 ^ e.toNat) <<< 1074) 1
  else F64.roundUnits neg (n <<< 1074) (10 ^ (-e).toNat)

/-- The `Num` a hexadecimal-float literal `±0x n · 2^e` means: the nearest one (R82), with the choices of `decimalNum` (DESIGN
CHOICE, log entry 14, unsafe). -/
def hexFloatNum (neg : Bool) (n : Nat) (e : Int) : Num :=
  if 0 ≤ e then F64.roundUnits neg ((n <<< e.toNat) <<< 1074) 1
  else F64.roundUnits neg (n <<< 1074) (1 <<< (-e).toNat)

/-- The source's own name for a command, where it has one of its own (R83). -/
def sourceName : Op → Option String
  | .ulawDec => some "decode"
  | .ulawEnc => some "encode"
  | .ulawDecb => some "decodeBuffer"
  | .ulawEncb => some "encodeBuffer"
  | .alphaHp => some "computeAlphaHighPass"
  | .alphaLp => some "computeAlphaLowPass"
  | .createHp | .createLp | .createBp | .createBqbp | .createBqhp | .createFir => some "createState"
  | .procHp | .procLp | .procBp | .procBq | .procFir => some "process"
  | .bqdBp | .bqdHp | .firdLp => none
  | .createcHp | .createcLp | .createcBp | .createcBq | .createcFir => none
  | .stateRd | .stateWr | .coefRd | .release | .statusRd => none

/-- The low `k` hexadecimal digits of `n`, most significant first. -/
def hexDigits (k n : Nat) : List Char :=
  (List.range k).map fun j => (Nat.digitChar ((n >>> (4 * (k - 1 - j))) % 16)).toUpper

/-- `0x` and `k` hexadecimal digits. -/
def hexText (k n : Nat) : String := "0x" ++ String.ofList (hexDigits k n)

/-- A `Num` by its image (R82). -/
def numText (v : Num) : String := "f64:" ++ hexText 16 v.toNat

/-- A context (R82). -/
def ctxText (c : Byte) : String := "c" ++ toString c.toNat

/-- The tap count of a FIR command (R82). -/
def tapsText (n : Nat) : String := "n=" ++ toString n

/-- A chunk: a bracketed list of elements (R82). -/
def chunkText (xs : List Int) : String := "[" ++ String.intercalate ", " (xs.map toString) ++ "]"

/-- The operands of a command in text, the elements of its chunk being `xs` (R82, order of R79). -/
def operandTexts (i : Instr) (xs : List Int) : List String :=
  match i with
  | .ulawDec b => [hexText 2 b.toNat]
  | .ulawEnc x => [toString x.toInt]
  | .ulawDecb _ | .ulawEncb _ => [chunkText xs]
  | .alphaHp fc fs | .alphaLp fc fs => [numText fc, numText fs]
  | .bqdBp f fs q | .bqdHp f fs q => [numText f, numText fs, numText q]
  | .firdLp n fc fs => [tapsText n.toNat, numText fc, numText fs]
  | .createHp c fc fs | .createLp c fc fs => [ctxText c, numText fc, numText fs]
  | .createBp c low high fs => [ctxText c, numText low, numText high, numText fs]
  | .createBqbp c f fs q | .createBqhp c f fs q => [ctxText c, numText f, numText fs, numText q]
  | .createFir c n fc fs => [ctxText c, tapsText n.toNat, numText fc, numText fs]
  | .createcHp c a | .createcLp c a => [ctxText c, numText a]
  | .createcBp c aH aL => [ctxText c, numText aH, numText aL]
  | .createcBq c a0 a1 a2 b1 b2 => ctxText c :: [a0, a1, a2, b1, b2].map numText
  | .createcFir c cs => ctxText c :: tapsText cs.length :: cs.map numText
  | .procHp c _ | .procLp c _ | .procBp c _ | .procBq c _ | .procFir c _ => [ctxText c, chunkText xs]
  | .stateRd c | .coefRd c | .release c => [ctxText c]
  | .stateWr c ws => ctxText c :: toString ws.length :: ws.map fun w => hexText 8 w.toNat
  | .statusRd => []

/-- `MNEMONIC operand, operand, …` (R82). -/
def asmText (i : Instr) (xs : List Int) : String :=
  match operandTexts i xs with
  | [] => i.op.mnemonic
  | ts => i.op.mnemonic ++ " " ++ String.intercalate ", " ts

end Sys2Proof.Machine
end

