-- ==== Sys2Proof/Machine/HostPort.lean ====
section
/-! DEFINITION. What the host can do to the block (00_scope.md R8): put words and beats on `CMD` and `DIN`, take words and beats
from `DOUT` and `RSP`, and assert reset (70_reset_and_hazards.md R240). -/

namespace Sys2Proof.Machine

/-- How many words of `CMD` and beats of `DIN` belong to the command at the front of `CMD`, as far as they are there. A halted
block has no command in progress. A command one of whose words is missing has no beats yet: the block reads the beats after the
words (R72), so what is on `DIN` is not counted as its own (DESIGN CHOICE, log entry 6, unsafe). -/
def State.atFront (s : State) : Nat × Nat :=
  if s.halt then (0, 0)
  else
    match decode s.cmd with
    | .instr i => (i.numWords, i.beats)
    | .illegal _ _ => (1, 0)
    | .incomplete => (s.cmd.length, 0)

/-- Is the block in the middle of a command it cannot finish yet, because a word or a beat is missing (R248)? -/
def State.waiting (s : State) : Bool :=
  if s.halt then false
  else
    match decode s.cmd with
    | .instr i => decide (s.din.length < i.beats)
    | .illegal _ _ => false
    | .incomplete => !s.cmd.isEmpty

/-- RESET (R240): every context INACTIVE, `STATUS` = 0, `HALT` = 0. A command in progress is ended without a response, and
what is there of its words and beats is discarded. `mid` says that reset falls inside the command at the front of `CMD`
although all of it is there; the other case is a command that waits (DESIGN CHOICE, log entry 6, unsafe). -/
def State.hostReset (s : State) (mid : Bool) : State :=
  let n := if mid || s.waiting then s.atFront else (0, 0)
  { s with ctx := [], status := 0#32, halt := false, cmd := s.cmd.drop n.1, din := s.din.drop n.2 }

/-- What the host does between two steps (R8, R248). -/
inductive HostEvent where
  | sendCmd (ws : List Word)
  | sendDin (ws : List Word)
  | takeDout (n : Nat)
  | takeRsp (n : Nat)
  | reset (mid : Bool)
  deriving DecidableEq, Repr

/-- The block after a host event. -/
def State.host (s : State) (e : HostEvent) : State :=
  match e with
  | .sendCmd ws => { s with cmd := s.cmd ++ ws }
  | .sendDin ws => { s with din := s.din ++ ws }
  | .takeDout n => { s with dout := s.dout.drop n }
  | .takeRsp n => { s with rsp := s.rsp.drop n }
  | .reset mid => s.hostReset mid

end Sys2Proof.Machine
end

