-- ==== Sys2Proof/Safety.lean ====
section
/-! DEFINITION. The terms in which claims speak of a run: the invariant of the block state, and what the sticky flags record
(60_exceptions.md R213). -/

namespace Sys2Proof.Machine

/-- A context whose registers are what the rules allow them to hold: every `Num` finite (R218, R219, R220), and for FIR an odd
N ≤ `NMAX` of coefficients and of history locations, and `wp` in [0, N−1] (R28, R171). -/
def Context.ok (nmax : Nat) : Context → Bool
  | .hp a st => F64.finite a && F64.finite st.prevOut
  | .lp a y => F64.finite a && F64.finite y
  | .bp co st => F64.finite co.alphaHP && F64.finite co.alphaLP && F64.finite st.prevOutHP && F64.finite st.prevOutLP
  | .bq co st => co.allFinite && F64.finite st.y1 && F64.finite st.y2
  | .fir n cs st =>
    validTaps nmax n && decide (cs.length = n) && cs.all F64.finite && decide (st.hist.length = n) && decide (st.wp < n)

/-- What every state of a run satisfies. -/
structure State.Inv (s : State) : Prop where
  /-- 1 ≤ `NCTX` ≤ 256 (R9). -/
  nctx_range : 1 ≤ s.par.nctx ∧ s.par.nctx ≤ 256
  /-- `NMAX` is odd and at most 65535 (R9). -/
  nmax_range : s.par.nmax % 2 = 1 ∧ s.par.nmax ≤ 65535
  /-- The bank is in canonical form and holds no index ≥ `NCTX` (R20). -/
  bank_wf : Bank.wf s.par.nctx s.ctx
  /-- Every ACTIVE context holds values of its kind (R21, R24 to R29). -/
  contexts_ok : ∀ e ∈ s.ctx, e.2.ok s.par.nmax = true
  /-- The reserved bits of `STATUS` read as 0 (R31). -/
  status_reserved : s.status &&& Flag.reserved = 0#32
  /-- The block is halted exactly when a command was refused with `ILLEGAL` since reset (R32, R214). -/
  halt_iff_ill : s.halt = true ↔ s.status &&& Flag.ill ≠ 0#32

/-- No command was refused since reset: bits 1 to 4 of `STATUS` are 0 (R213). -/
def State.refusalFree (s : State) : Bool := s.status &&& 0x0000001E#32 == 0#32

/-- No output element was clipped since reset (R16, R222). -/
def State.unclipped (s : State) : Bool := s.status &&& Flag.ovf == 0#32

/-- The beats a command takes are all on `DIN`: it need not wait (R248). -/
abbrev beatsReady (i : Instr) (s : State) : Prop := i.beats ≤ s.din.length

/-- The coefficients of a context, with its kind and tap count: what only creation writes (R29). -/
def Context.coefPart : Context → Kind × Nat × List Num
  | .hp a _ => (.hp, 0, [a])
  | .lp a _ => (.lp, 0, [a])
  | .bp co _ => (.bp, 0, [co.alphaHP, co.alphaLP])
  | .bq co _ => (.bq, 0, [co.a0, co.a1, co.a2, co.b1, co.b2])
  | .fir n cs _ => (.fir, n, cs)

/-- The recurrence of a kind, on the registers of a context (R18: `K_process` applied to the context). -/
def runOfKind : Kind → Context → List Sample → ProcResult
  | .hp => runHp
  | .lp => runLp
  | .bp => runBp
  | .bq => runBq
  | .fir => runFir

/-- The result of a chunk with one sample more at its front, whose output is `y` (R18: the fold of a per-sample step). -/
def ProcResult.cons (y : Sample) (ovf : Bool) : ProcResult → ProcResult
  | .done k ys o => .done k (y :: ys) (ovf || o)
  | .mismatch => .mismatch
  | .nonfinite => .nonfinite

/-- The `CREATEC` opcode of a kind (R78). -/
def createcOp : Kind → Op
  | .hp => .createcHp
  | .lp => .createcLp
  | .bp => .createcBp
  | .bq => .createcBq
  | .fir => .createcFir

/-- A context just as creation leaves it, with the coefficients of `k`: the zero state of R37. -/
def Context.zeroed : Context → Context
  | .hp a _ => .hp a ⟨0#16, F64.zero⟩
  | .lp a _ => .lp a F64.zero
  | .bp co _ => .bp co ⟨0#16, F64.zero, F64.zero⟩
  | .bq co _ => .bq co ⟨0#16, 0#16, F64.zero, F64.zero⟩
  | .fir n cs _ => .fir n cs ⟨List.replicate n 0#16, 0⟩

/-- A cutoff and a sample rate that R218 (a) lists: "a non-finite operand, sampleRateHz ≤ 0, cutoffHz ≤ 0, or
cutoffHz ≥ sampleRateHz/2". -/
def ratesRejected (fc fs : Num) : Bool :=
  !F64.finite fc || !F64.finite fs || F64.le fs F64.zero || F64.le fc F64.zero || F64.le (F64.div fs F64.two) fc

/-- A Q that R218 (c) lists: "Q non-finite or Q ≤ 0". -/
def qRejected (q : Num) : Bool := !F64.finite q || F64.le q F64.zero

/-- A tap count that R218 (d) lists: "N even, N = 0 or N > `NMAX`". -/
def tapsRejected (nmax n : Nat) : Bool := decide (n % 2 = 0) || decide (n = 0) || decide (nmax < n)

/-- The complete list of causes of `CFG_INVALID` (R218 (a) to (e)), in the rule's own terms. -/
def configRejected (nmax : Nat) : Instr → Bool
  | .alphaHp fc fs | .createHp _ fc fs => ratesRejected fc fs || !F64.finite (alphaHP fc fs)
  | .alphaLp fc fs | .createLp _ fc fs => ratesRejected fc fs || !F64.finite (alphaLP fc fs)
  | .createBp _ low high fs =>
    ratesRejected low fs || ratesRejected high fs || !F64.finite (alphaHP low fs) || !F64.finite (alphaLP high fs)
  | .bqdBp f fs q | .createBqbp _ f fs q => ratesRejected f fs || qRejected q || !(bqDesignBp f fs q).allFinite
  | .bqdHp f fs q | .createBqhp _ f fs q => ratesRejected f fs || qRejected q || !(bqDesignHp f fs q).allFinite
  | .firdLp n fc fs | .createFir _ n fc fs =>
    ratesRejected fc fs || tapsRejected nmax n.toNat || F64.isZero (firSum (firRaw fc fs n.toNat))
      || !F64.finite (firSum (firRaw fc fs n.toNat)) || (firDesign fc fs n.toNat).any (fun c => !F64.finite c)
  | .createcHp _ a | .createcLp _ a => !F64.finite a
  | .createcBp _ aH aL => !F64.finite aH || !F64.finite aL
  | .createcBq _ a0 a1 a2 b1 b2 => [a0, a1, a2, b1, b2].any (fun c => !F64.finite c)
  | .createcFir _ cs => tapsRejected nmax cs.length || cs.any (fun c => !F64.finite c)
  | .ulawDec _ | .ulawEnc _ | .ulawDecb _ | .ulawEncb _ => false
  | .procHp _ _ | .procLp _ _ | .procBp _ _ | .procBq _ _ | .procFir _ _ => false
  | .stateRd _ | .stateWr _ _ | .coefRd _ | .release _ | .statusRd => false

/-- The words of a state image that hold Samples (R191). -/
def imageSamples (k : Kind) (ws : List Word) : List Word :=
  match k with
  | .hp | .bp => ws.take 1
  | .lp => []
  | .bq => ws.take 2
  | .fir => ws.drop 1

/-- Words two by two. -/
def wordPairs : List Word → List (Word × Word)
  | l :: h :: ws => (l, h) :: wordPairs ws
  | _ => []

/-- The word pairs of a state image that hold a `Num`, low word first (R191). -/
def imageNums (k : Kind) (ws : List Word) : List (Word × Word) :=
  match k with
  | .hp | .bp => wordPairs (ws.drop 1)
  | .lp => wordPairs ws
  | .bq => wordPairs (ws.drop 2)
  | .fir => []

/-- The complete list of causes of `STATE_INVALID` (R220, R192). -/
def imageRejected (k : Context) (ws : List Word) : Bool :=
  decide (ws.length ≠ stateImageWords k.kind k.ntaps)
    || (imageSamples k.kind ws).any (fun w => decide ((w.setWidth 16).signExtend 32 ≠ w))
    || (imageNums k.kind ws).any (fun p => !F64.finite (f64 p.1 p.2))
    || (decide (k.kind = .fir) && ws.head?.any fun w => decide (k.ntaps ≤ w.toNat))

/-- The convolution without a circular buffer: `w` holds the last inputs, newest first, and tap j multiplies the sample that
arrived j samples ago (R176). -/
def directFirStep (n : Nat) (cs : List Num) (w : List Sample) (x : Sample) : Option (StepOut (List Sample)) :=
  let w' := (x :: w).take n
  let acc := (List.range n).foldl (fun acc j => F64.add acc (F64.mul (sampleNum (w'.getD j 0#16)) (cs.getD j F64.zero))) F64.zero
  if F64.finite acc then some (outputs (F64.roundHA acc) w') else none

/-- The band-pass cascade sample by sample: the high-pass step, then the low-pass step on its output (R143). -/
def bpStep (co : BpCoef) (st : BpState) (x : Sample) : Option (StepOut BpState) :=
  match hpStep co.alphaHP ⟨st.prevInHP, st.prevOutHP⟩ x with
  | none => none
  | some u =>
    match lpStep co.alphaLP st.prevOutLP u.out with
    | none => none
    | some o => some ⟨o.out, u.ovf || o.ovf, ⟨u.st.prevIn, u.st.prevOut, o.st⟩⟩

end Sys2Proof.Machine

namespace Sys2Proof

/-- The context a command names, if it names one (R78). -/
def Instr.context (i : Instr) : Option Nat := if i.op.namesCtx then some i.ctx.toNat else none

/-- Is the command one of `CREATE.*`, `CREATEC.*`? -/
def Instr.creates (i : Instr) : Bool :=
  match i.op with
  | .createHp | .createLp | .createBp | .createBqbp | .createBqhp | .createFir => true
  | .createcHp | .createcLp | .createcBp | .createcBq | .createcFir => true
  | .ulawDec | .ulawEnc | .ulawDecb | .ulawEncb | .alphaHp | .alphaLp | .bqdBp | .bqdHp | .firdLp => false
  | .procHp | .procLp | .procBp | .procBq | .procFir => false
  | .stateRd | .stateWr | .coefRd | .release | .statusRd => false

end Sys2Proof
end

