-- ==== Sys2Proof/Certificates/Slice0/Obligations.lean ====
section
/-! DEFINITION. The statements about the block, for the provers. Each docstring names the rules of spec/ it formalises. -/

open Sys2Proof Sys2Proof.Machine

/-! ## Encoding -/

/-- Decoding what the encoder wrote gives the command back, whatever words follow it, with every operand at every value its
encoding admits (R73, R74, R76, R78, R79). -/
def Obligations.DecodeOfEncodeIsTheCommand : Prop :=
  ∀ (i : Instr) (rest : List Word), i.wellFormed = true → decode (encode i ++ rest) = .instr i

/-- Each command word sequence has one reading: a command that is decoded is well formed, and encoding it gives exactly the words
it was read from (R73, R76, R79). -/
def Obligations.EncodeOfDecodeIsTheWords : Prop :=
  ∀ (ws : List Word) (i : Instr), decode ws = .instr i →
    i.wellFormed = true ∧ encode i ++ ws.drop i.numWords = ws

/-- A header word is a command exactly when it matches that command's row of the opcode table (R81). -/
def Obligations.HeaderIsAcceptedByItsTableRow : Prop :=
  ∀ (h : Word) (o : Op), headerOp h = .ok o ↔ ∃ row ∈ opcodeRows, row.1 = o ∧ h &&& row.2.2 = row.2.1

/-- Words of the spec's own examples and vectors decode to the commands they stand for (R80, R100, R190, R192, 95_test_vectors.md). -/
def Obligations.KnownWordsDecode : Prop :=
  decode [0x010000FF#32] = .instr (.ulawDec 0xFF#8) ∧
  decode [0x02000000#32, 0xFFFFFB2E#32] = .instr (.ulawEnc 0xFFFFFB2E#32) ∧
  decode [0x10000000#32, 0#32, 0x4072C000#32, 0#32, 0x40BF4000#32] =
    .instr (.alphaHp 0x4072C00000000000#64 0x40BF400000000000#64) ∧
  decode [0x23000000#32, 0#32, 0x408F4000#32, 0#32, 0x40BF4000#32, 0#32, 0x3FF00000#32] =
    .instr (.createBqbp 0#8 0x408F400000000000#64 0x40BF400000000000#64 0x3FF0000000000000#64) ∧
  decode [0x2C000003#32, 0#32, 0x3FD00000#32, 0#32, 0x3FE00000#32, 0#32, 0x3FD00000#32] =
    .instr (.createcFir 0#8 [0x3FD0000000000000#64, 0x3FE0000000000000#64, 0x3FD0000000000000#64]) ∧
  decode [0x30010000#32, 2#32] = .instr (.procHp 1#8 2#32) ∧
  decode [0x41030000#32, 6#32, 0x7D0#32, 0x3E8#32, 0#32, 0x40938800#32, 0#32, 0x407F4000#32] =
    .instr (.stateWr 3#8 [0x7D0#32, 0x3E8#32, 0#32, 0x40938800#32, 0#32, 0x407F4000#32]) ∧
  decode [0#32] = .illegal 0#32 .reservedOpcode ∧
  decode [0xFFFFFFFF#32] = .illegal 0xFFFFFFFF#32 .reservedOpcode ∧
  decode [0x30000001#32, 0#32] = .illegal 0x30000001#32 .mustBeZero ∧
  decode [0x4F010000#32] = .illegal 0x4F010000#32 .mustBeZero

/-! ## The step -/

/-- A block that is not halted runs the command at the front of `CMD`; the command itself takes its words (R72). -/
def Obligations.StepRunsTheDecodedCommand : Prop :=
  ∀ (s : State) (i : Instr), s.halt = false → decode s.cmd = .instr i → step s = exec i s

/-- `ILLEGAL`: a header that matches no row of the opcode table (a reserved `OPC`, or a must-be-zero bit that is set) alone is
consumed, the response echoes its upper 16 bits with code 0x01, `STATUS.ILL` and `HALT` are set, and from then on a step changes
nothing; a reset ends the halt and makes every context INACTIVE (R214). -/
def Obligations.IllegalHeaderHaltsTheBlock : Prop :=
  (∀ (s : State) (h : Word) (ws : List Word), s.halt = false → s.cmd = h :: ws →
    (∀ row ∈ opcodeRows, h &&& row.2.2 ≠ row.2.1) →
    step s = .next { s with
      cmd := ws
      status := s.status ||| 0x00000002#32
      halt := true
      rsp := s.rsp ++ [(h &&& 0xFFFF0000#32) ||| 0x00000001#32] }) ∧
  (∀ s : State, s.halt = true → step s = .next s) ∧
  ∀ (s : State) (mid : Bool), (s.hostReset mid).halt = false ∧ ∀ c, Bank.get (s.hostReset mid).ctx c = none

/-- `HALT`: 0 after reset, set by a refusal with `ILLEGAL` and by nothing else, read or cleared by no command; while it is 1 the
block accepts no command and produces no response, until a reset (R32). -/
def Obligations.HaltIsSetByIllegalAlone : Prop :=
  (State.reset.halt = false ∧ ∀ (s : State) (mid : Bool), (s.hostReset mid).halt = false) ∧
  (∀ s : State, s.halt = true → step s = .next s) ∧
  (∀ s t : State, s.halt = false → step s = .next t → (t.halt = true ↔ ∃ h why, decode s.cmd = .illegal h why)) ∧
  (∀ (i : Instr) (s t : State), exec i s = .next t → t.halt = s.halt) ∧
  ∀ (i : Instr) (s t : State) (b : Bool), exec i s = .next t → exec i { s with halt := b } = .next { t with halt := b }

/-- The block waits, without a change of state, while the front of `CMD` is not a whole command, and while an input beat of the
command is missing (R248). That a wait is a step without effect is the model's choice (log entry 5). -/
def Obligations.MissingWordsAndBeatsAreWaitedFor : Prop :=
  (∀ s : State, s.halt = false → decode s.cmd = .incomplete → step s = .next s) ∧
  ∀ (i : Instr) (s : State), s.din.length < i.beats → exec i s = .next s

/-- Every step has a next state: no word sequence, no operand and no value makes the model stop (R210, R253). That a
halted block (R32) and a block that waits (R248), which the spec calls stuck, answer a next state too is the model's choice (log
entry 5). -/
def Obligations.EveryStepHasANextState : Prop := ∀ s : State, ∃ t, step s = .next t

/-! ## The whole machine -/

/-- The invariant of `State.Inv` is kept by every step, from every state that meets it (R20, R21, R28, R31, R32, R219). -/
def Obligations.StepKeepsTheInvariant : Prop := ∀ s t : State, s.Inv → step s = .next t → t.Inv

/-- The invariant holds after reset; the parameters and the empty streams of that state are the model's (log entries 2 and 3). -/
def Obligations.ResetMeetsTheInvariant : Prop := State.reset.Inv

/-- After reset every context is INACTIVE, `STATUS` is 0 and `HALT` is 0, whether it is the state the model starts from or a reset
from outside at any time; a reset answers nothing, and nothing of a command that was waiting is left (R36, R240). The empty streams
and the parameters of the start are log entries 2 and 3; what a reset discards of the streams is log entry 6. -/
def Obligations.ResetClearsTheBlock : Prop :=
  ((∀ c, Bank.get State.reset.ctx c = none) ∧ State.reset.status = 0#32 ∧ State.reset.halt = false) ∧
  ∀ (s : State) (mid : Bool),
    (∀ c, Bank.get (s.hostReset mid).ctx c = none) ∧ (s.hostReset mid).status = 0#32 ∧ (s.hostReset mid).halt = false ∧
    (s.hostReset mid).rsp = s.rsp ∧ (s.hostReset mid).dout = s.dout ∧
    (s.halt = false → decode s.cmd = .incomplete → (s.hostReset mid).cmd = []) ∧
    ∀ i, s.halt = false → decode s.cmd = .instr i → s.din.length < i.beats →
      (s.hostReset mid).cmd = s.cmd.drop i.numWords ∧ (s.hostReset mid).din = []

/-- One command, one response: a command whose beats are there takes exactly its words and beats, answers one header that echoes its
`OPC` and `CTX`, with a payload only when the code is `OK`; it puts one output beat for each input beat when it is accepted and
none when it is refused, and it leaves `HALT` and the parameters alone (R7, R50, R52, R72, R75). -/
def Obligations.OneResponsePerCommand : Prop :=
  ∀ (i : Instr) (s t : State), i.beats ≤ s.din.length → exec i s = .next t →
    t.cmd = s.cmd.drop i.numWords ∧ t.din = s.din.drop i.beats ∧ t.halt = s.halt ∧ t.par = s.par ∧
    ∃ (code : Code) (payload out : List Word),
      t.rsp = s.rsp ++ (i.op.code ++ i.ctx ++ 0#8 ++ code.byte : Word) :: payload ∧
      t.dout = s.dout ++ out ∧
      (code = .ok → out.length = i.beats) ∧
      (code ≠ .ok → payload = [] ∧ out = [])

/-- A refusal other than `ILLEGAL` and `NUM_NONFINITE` consumes the command's words and beats, answers one header word, sets the
sticky bit of its code, and changes nothing else (R212). -/
def Obligations.RefusalChangesNothingElse : Prop :=
  ∀ (i : Instr) (s t : State) (code : Code), code ≠ .ok → code ≠ .numNonfinite → i.beats ≤ s.din.length →
    exec i s = .next t → t.rsp = s.rsp ++ [(i.op.code ++ i.ctx ++ 0#8 ++ code.byte : Word)] →
    t = { s with
      cmd := s.cmd.drop i.numWords
      din := s.din.drop i.beats
      status := s.status ||| code.flag
      rsp := t.rsp }

/-- Every `STATUS` bit is sticky: no step clears one (R31). -/
def Obligations.StatusBitsAreNeverCleared : Prop :=
  ∀ (s t : State) (k : Nat), step s = .next t → s.status.getLsbD k = true → t.status.getLsbD k = true

/-- A step that ends with bits 1 to 4 of `STATUS` clear refused nothing: they were clear before, and if it answered, it answered
`OK` (R213). -/
def Obligations.CleanStatusMeansNoRefusal : Prop :=
  ∀ s t : State, step s = .next t → t.refusalFree = true →
    s.refusalFree = true ∧
    (t.rsp = s.rsp ∨ ∃ i payload, decode s.cmd = .instr i ∧ t.rsp = s.rsp ++ (i.op.code ++ i.ctx ++ 0#16 : Word) :: payload)

/-- Contexts are independent: a command reads and writes no context but the one it names (R33). -/
def Obligations.OtherContextsAreUntouched : Prop :=
  ∀ (i : Instr) (s t : State) (d : Nat), exec i s = .next t → i.context ≠ some d →
    Bank.get t.ctx d = Bank.get s.ctx d ∧
    ∀ b : Bank, (∀ c, i.context = some c → Bank.get b c = Bank.get s.ctx c) →
      ∃ t', exec i { s with ctx := b } = .next t' ∧ t'.status = t.status ∧ t'.dout = t.dout ∧ t'.rsp = t.rsp ∧
        t'.cmd = t.cmd ∧ t'.din = t.din ∧ ∀ c, i.context = some c → Bank.get t'.ctx c = Bank.get t.ctx c

/-- Coefficients, kind and tap count are written by `CREATE.*` and `CREATEC.*` only, never by `PROC.*` and never by `STATE.WR`
(R29, R38). -/
def Obligations.OnlyCreationWritesCoefficients : Prop :=
  ∀ (i : Instr) (s t : State) (c : Nat) (k k' : Context), exec i s = .next t → i.creates = false →
    Bank.get s.ctx c = some k → Bank.get t.ctx c = some k' → k'.coefPart = k.coefPart

/-- A context becomes ACTIVE only by a `CREATE.*` or `CREATEC.*` that names it, and INACTIVE only by a `RELEASE` or a
`NUM_NONFINITE` of a command that names it (R22, R196, R219). -/
def Obligations.LifeChangesOnlyByCreationAndRelease : Prop :=
  ∀ (i : Instr) (s t : State) (c : Nat), exec i s = .next t →
    (Bank.get s.ctx c = none → Bank.get t.ctx c ≠ none → i.creates = true ∧ i.context = some c) ∧
    (Bank.get s.ctx c ≠ none → Bank.get t.ctx c = none → i.context = some c ∧
      (i.op = .release ∨
        (t.status = s.status ||| 0x00000010#32 ∧
          t.rsp = s.rsp ++ [(i.op.code ++ i.ctx ++ 0#8 ++ 0x07#8 : Word)])))

/-- Commands on different contexts commute: the same contexts, the same `STATUS`, the same outputs and the same responses in either
order. `xs` and `ys` are the beats of the two commands, in their order on `DIN` (R62). -/
def Obligations.CommandsOnDifferentContextsCommute : Prop :=
  ∀ (i j : Instr) (c d : Nat) (s a b a' b' : State) (xs ys r : List Word),
    i.context = some c → j.context = some d → c ≠ d → xs.length = i.beats → ys.length = j.beats →
    exec i { s with din := xs ++ ys ++ r } = .next a → exec j a = .next b →
    exec j { s with din := ys ++ xs ++ r } = .next a' → exec i a' = .next b' →
    (∀ e, Bank.get b.ctx e = Bank.get b'.ctx e) ∧
    (Bank.wf s.par.nctx s.ctx → b.ctx = b'.ctx) ∧
    b.status = b'.status ∧
    ∃ oi oj ri rj,
      a.dout = s.dout ++ oi ∧ b.dout = s.dout ++ oi ++ oj ∧ a'.dout = s.dout ++ oj ∧ b'.dout = s.dout ++ oj ++ oi ∧
      a.rsp = s.rsp ++ ri ∧ b.rsp = s.rsp ++ ri ++ rj ∧ a'.rsp = s.rsp ++ rj ∧ b'.rsp = s.rsp ++ rj ++ ri

/-! ## Refusals -/

/-- `CTX_RANGE`: a command that names a context ≥ `NCTX` (R216). -/
def Obligations.ContextOutOfRangeIsRefused : Prop :=
  (∀ (i : Instr) (s : State), i.op.namesCtx = true → s.par.nctx ≤ i.ctx.toNat → i.beats ≤ s.din.length →
    exec i s = .next { s with
      cmd := s.cmd.drop i.numWords
      din := s.din.drop i.beats
      status := s.status ||| 0x00000004#32
      rsp := s.rsp ++ [(i.op.code ++ i.ctx ++ 0#8 ++ 0x02#8 : Word)] }) ∧
  ∀ (i : Instr) (s : State), s.par.nctx = 256 → i.ctx.toNat < s.par.nctx

/-- `CTX_INACTIVE`: any use but creation of a context that is INACTIVE (R215). -/
def Obligations.InactiveContextIsRefused : Prop :=
  ∀ (i : Instr) (s : State), i.op.namesCtx = true → i.creates = false → i.ctx.toNat < s.par.nctx →
    Bank.get s.ctx i.ctx.toNat = none → i.beats ≤ s.din.length →
    exec i s = .next { s with
      cmd := s.cmd.drop i.numWords
      din := s.din.drop i.beats
      status := s.status ||| 0x00000004#32
      rsp := s.rsp ++ [(i.op.code ++ i.ctx ++ 0#8 ++ 0x03#8 : Word)] }

/-- `KIND_MISMATCH`: `PROC.K` on a context whose kind is not K; no other command ever answers its code (R217). -/
def Obligations.WrongKindIsRefused : Prop :=
  (∀ (kd : Kind) (c : Byte) (len : Word) (s : State) (k : Context), c.toNat < s.par.nctx →
    Bank.get s.ctx c.toNat = some k → k.kind ≠ kd → len.toNat ≤ s.din.length →
    exec (processCommand kd c len) s = .next { s with
      cmd := s.cmd.drop 2
      din := s.din.drop len.toNat
      status := s.status ||| 0x00000004#32
      rsp := s.rsp ++ [((processCommand kd c len).op.code ++ c ++ 0#8 ++ 0x04#8 : Word)] }) ∧
  ∀ (i : Instr) (s t : State), (∀ kd c len, i ≠ processCommand kd c len) → exec i s = .next t →
    ∀ payload, t.rsp ≠ s.rsp ++ (i.op.code ++ i.ctx ++ 0#8 ++ 0x04#8 : Word) :: payload

/-- `CFG_INVALID`: a designer or creation for one of the causes R218 lists; a context that was ACTIVE keeps everything. The list is
complete: without such a cause no command answers the code (R218). -/
def Obligations.InvalidConfigurationIsRefused : Prop :=
  (∀ (i : Instr) (s : State), configRejected s.par.nmax i = true →
    (i.op.namesCtx = true → i.ctx.toNat < s.par.nctx) →
    exec i s = .next { s with
      cmd := s.cmd.drop i.numWords
      status := s.status ||| 0x00000008#32
      rsp := s.rsp ++ [(i.op.code ++ i.ctx ++ 0#8 ++ 0x05#8 : Word)] }) ∧
  ∀ (i : Instr) (s t : State), configRejected s.par.nmax i = false → exec i s = .next t →
    ∀ payload, t.rsp ≠ s.rsp ++ (i.op.code ++ i.ctx ++ 0#8 ++ 0x05#8 : Word) :: payload

/-- `STATE_INVALID`: a `STATE.WR` whose image has one of the faults R220 lists (R192, R220). -/
def Obligations.InvalidImageIsRefused : Prop :=
  ∀ (c : Byte) (ws : List Word) (s : State) (k : Context), c.toNat < s.par.nctx →
    Bank.get s.ctx c.toNat = some k → imageRejected k ws = true →
    exec (.stateWr c ws) s = .next { s with
      cmd := s.cmd.drop (2 + ws.length)
      status := s.status ||| 0x00000008#32
      rsp := s.rsp ++ [(0x41#8 ++ c ++ 0#8 ++ 0x06#8 : Word)] }

/-- `NUM_NONFINITE`: a `PROC.K` in which some value is not finite takes its beats, produces no output beat, sets `STATUS.NUMERR`
alone and releases the context (R219). -/
def Obligations.NonfiniteValueReleasesTheContext : Prop :=
  ∀ (kd : Kind) (c : Byte) (len : Word) (s : State) (k : Context), c.toNat < s.par.nctx →
    Bank.get s.ctx c.toNat = some k → len.toNat ≤ s.din.length →
    runOfKind kd k ((s.din.take len.toNat).map beatS16) = .nonfinite →
    ∃ t, exec (processCommand kd c len) s = .next t ∧
      Bank.get t.ctx c.toNat = none ∧ (∀ d, d ≠ c.toNat → Bank.get t.ctx d = Bank.get s.ctx d) ∧
      t = { s with
        ctx := t.ctx
        cmd := s.cmd.drop 2
        din := s.din.drop len.toNat
        status := s.status ||| 0x00000010#32
        rsp := s.rsp ++ [((processCommand kd c len).op.code ++ c ++ 0#8 ++ 0x07#8 : Word)] }

/-! ## The codec -/

/-- `ULAW.DEC` answers the Sample of R100: with u the complement of the Byte, magnitude 16·m + 8 for e = 0 and
(16·m + 264)·2^(e−1) for e ≥ 1, negative when bit 7 of u is set (R70, R71, R100). -/
def Obligations.UlawDecAnswersTheClosedForm : Prop :=
  ∀ (b : Byte) (s : State),
    let u := 255 - b.toNat
    let e := u / 16 % 8
    let m := u % 16
    let mag : Int := if e = 0 then 16 * m + 8 else (16 * m + 264) * 2 ^ (e - 1)
    exec (.ulawDec b) s = .next { s with
      cmd := s.cmd.drop 1
      rsp := s.rsp ++ [0x01000000#32, BitVec.ofInt 32 (if 128 ≤ u then -mag else mag)] }

/-- `ULAW.ENC` answers the Byte of R101: the operand is clamped to the Sample range; e is the least number of halvings that brings
⌊|x| / 4⌋ to at most 63; the Byte is the complement of sign | e·16 | the low four bits of what is left (R101). -/
def Obligations.UlawEncFindsTheLeastExponent : Prop :=
  ∀ (x : Word) (s : State),
    let v := max (-32768) (min x.toInt 32767)
    let q := v.natAbs / 4
    let sign : Byte := if v < 0 then 0x80#8 else 0#8
    ∃ e, e ≤ 8 ∧ q / 2 ^ e ≤ 63 ∧ (∀ e' < e, 63 < q / 2 ^ e') ∧
      exec (.ulawEnc x) s = .next { s with
        cmd := s.cmd.drop 2
        rsp := s.rsp ++ [0x02000000#32,
          (~~~(sign ||| BitVec.ofNat 8 (16 * e) ||| BitVec.ofNat 8 (q / 2 ^ e % 16))).setWidth 32] }

/-- `ULAW.DECB` and `ULAW.ENCB` apply the scalar function to every element, in order (R102, R103). -/
def Obligations.CodecBuffersAreElementWise : Prop :=
  ∀ (len : Word) (s : State), len.toNat ≤ s.din.length →
    exec (.ulawDecb len) s = .next { s with
      cmd := s.cmd.drop 2
      din := s.din.drop len.toNat
      dout := s.dout ++ (s.din.take len.toNat).map fun w => (ulawDecode (w.setWidth 8)).signExtend 32
      rsp := s.rsp ++ [0x03000000#32] } ∧
    exec (.ulawEncb len) s = .next { s with
      cmd := s.cmd.drop 2
      din := s.din.drop len.toNat
      dout := s.dout ++ (s.din.take len.toNat).map fun w => (ulawEncode w.toInt).setWidth 32
      rsp := s.rsp ++ [0x04000000#32] }

/-- The pair of functions: every Byte is the encoding of some Sample; encoding inverts decoding for exactly the sixteen Bytes R105
lists; the round trip keeps the sign of every integer (0 counts as positive); its error by segment is bounded as R105 says
(R105 (b) to (e)). -/
def Obligations.CodecRoundTripIsLossyAsStated : Prop :=
  (∀ b : Byte, ∃ x : Sample, ulawEncode x.toInt = b) ∧
  (∀ b : Byte, ulawEncode (ulawDecode b).toInt = b ↔
    b ∈ [0x00#8, 0x10#8, 0x20#8, 0x30#8, 0x40#8, 0x50#8, 0x60#8, 0x75#8,
         0x80#8, 0x90#8, 0xA0#8, 0xB0#8, 0xC0#8, 0xD0#8, 0xE0#8, 0xF5#8]) ∧
  (∀ x : Int, x < 0 ↔ (ulawDecode (ulawEncode x)).toInt < 0) ∧
  ∀ x : Int, ∀ row ∈ [((0 : Nat), (255 : Nat), (188 : Nat)), (256, 511, 128), (512, 1023, 256), (1024, 2047, 512),
      (2048, 4095, 1024), (4096, 8191, 2048), (8192, 16383, 4096), (16384, 32767, 8192)],
    row.1 ≤ x.natAbs → x.natAbs ≤ row.2.1 → ((ulawDecode (ulawEncode x)).toInt - x).natAbs ≤ row.2.2

/-! ## Numerics -/

/-- `I(n)` is exact for |n| ≤ 2^53: its value is n, it is finite, and both conversions give n back (R13, R14). -/
def Obligations.SmallIntegersAreExact : Prop :=
  ∀ n : Int, n.natAbs ≤ 2 ^ 53 →
    F64.finite (F64.ofInt n) = true ∧ F64.units (F64.ofInt n) = n * 2 ^ 1074 ∧
    F64.trunc (F64.ofInt n) = n ∧ F64.roundHA (F64.ofInt n) = n

/-- Rounding (R13): the result has the sign asked for; it is a nearest binary64 value, no finite value being nearer to ±n/d units than
a finite result; of two equally near values it is the one whose last fraction bit is 0; it is an infinity exactly from the midpoint
past the largest finite value on; and a value that is representable is its own rounding. -/
def Obligations.RoundingIsToNearest : Prop :=
  (∀ (neg : Bool) (n d : Nat) (v : Sys2Proof.Num), 0 < d → F64.finite (F64.roundUnits neg n d) = true → F64.finite v = true →
    ((F64.units (F64.roundUnits neg n d) * d - (if neg then -(n : Int) else n))).natAbs ≤
      ((F64.units v * d - (if neg then -(n : Int) else n))).natAbs) ∧
  (∀ (neg : Bool) (n d : Nat) (v : Sys2Proof.Num), 0 < d → F64.finite (F64.roundUnits neg n d) = true → F64.finite v = true →
    F64.units v ≠ F64.units (F64.roundUnits neg n d) →
    ((F64.units v * d - (if neg then -(n : Int) else n))).natAbs =
      ((F64.units (F64.roundUnits neg n d) * d - (if neg then -(n : Int) else n))).natAbs →
    (F64.roundUnits neg n d).getLsbD 0 = false) ∧
  (∀ (neg : Bool) (n d : Nat), 0 < d →
    F64.sign (F64.roundUnits neg n d) = neg ∧
    (F64.finite (F64.roundUnits neg n d) = false ↔ (2 ^ 54 - 1) * 2 ^ 2044 * d ≤ n) ∧
    (F64.finite (F64.roundUnits neg n d) = false →
      F64.roundUnits neg n d = if neg then 0xFFF0000000000000#64 else 0x7FF0000000000000#64)) ∧
  ∀ v : Sys2Proof.Num, F64.finite v = true → F64.roundUnits (F64.sign v) (F64.magUnits v) 1 = v

/-- On finite operands the four operations round the exact result of the operation, taken in units of 2^−1074: a product or a
quotient has the sign of its operands' signs, a sum that is exactly zero is +0 unless both operands are negative (R13). -/
def Obligations.OperationsRoundTheExactResult : Prop :=
  ∀ a b : Sys2Proof.Num, F64.finite a = true → F64.finite b = true →
    F64.add a b = (if F64.units a + F64.units b = 0 then
        (if F64.sign a = true ∧ F64.sign b = true then 0x8000000000000000#64 else 0#64)
      else F64.roundUnits (decide (F64.units a + F64.units b < 0)) (F64.units a + F64.units b).natAbs 1) ∧
    F64.units (F64.neg b) = -F64.units b ∧ F64.sub a b = F64.add a (F64.neg b) ∧
    F64.mul a b = F64.roundUnits (F64.sign a != F64.sign b) ((F64.units a).natAbs * (F64.units b).natAbs) (2 ^ 1074) ∧
    (F64.units b ≠ 0 →
      F64.div a b = F64.roundUnits (F64.sign a != F64.sign b) ((F64.units a).natAbs * 2 ^ 1074) (F64.units b).natAbs) ∧
    (F64.lt a b = true ↔ F64.units a < F64.units b) ∧ (F64.le a b = true ↔ F64.units a ≤ F64.units b)

/-- `trunc` discards the fraction; `roundHA` gives the nearest integer, and of two equally near ones the one of larger magnitude.
The value of a finite v is `units v` / 2^1074 (R14). -/
def Obligations.ConversionsTruncateAndRound : Prop :=
  ∀ v : Sys2Proof.Num, F64.finite v = true →
    F64.trunc v = (F64.units v).tdiv (2 ^ 1074) ∧
    (2 * (F64.roundHA v * 2 ^ 1074 - F64.units v)).natAbs ≤ 2 ^ 1074 ∧
    ((2 * (F64.roundHA v * 2 ^ 1074 - F64.units v)).natAbs = 2 ^ 1074 →
      (F64.units v).natAbs < (F64.roundHA v * 2 ^ 1074).natAbs)

/-- `narrow16` clamps to the Sample range, and saturates exactly outside it (R16). -/
def Obligations.Narrow16Clamps : Prop :=
  ∀ k : Int,
    (narrow16 k).toInt = (if k < -32768 then -32768 else if 32767 < k then 32767 else k) ∧
    (saturates k = true ↔ k < -32768 ∨ 32767 < k)

/-- The three laws of `SIN` and `COS`; nothing else is known of them (R15). -/
def Obligations.SineAndCosineObeyTheirLaws : Prop :=
  F64.sin F64.zero = F64.zero ∧ F64.cos F64.zero = F64.one ∧
  ∀ v : Sys2Proof.Num, F64.finite v = true →
    F64.finite (F64.sin v) = true ∧ F64.le (F64.neg F64.one) (F64.sin v) = true ∧ F64.le (F64.sin v) F64.one = true ∧
    F64.finite (F64.cos v) = true ∧ F64.le (F64.neg F64.one) (F64.cos v) = true ∧ F64.le (F64.cos v) F64.one = true

/-! ## Designers and creation -/

/-- `ALPHA.HP` and `ALPHA.LP` answer the α of R120 and R121 for a valid configuration whose α is finite. -/
def Obligations.AlphaDesignersAnswerTheFormula : Prop :=
  ∀ (fc fs : Sys2Proof.Num) (s : State), validFcFs fc fs = true →
    let rc := F64.div F64.one (F64.mul (F64.mul F64.two Constants.pi) fc)
    let dt := F64.div F64.one fs
    let aH := F64.div rc (F64.add rc dt)
    let aL := F64.div dt (F64.add rc dt)
    (F64.finite aH = true → exec (.alphaHp fc fs) s = .next { s with
      cmd := s.cmd.drop 5
      rsp := s.rsp ++ [0x10000000#32, aH.extractLsb' 0 32, aH.extractLsb' 32 32] }) ∧
    (F64.finite aL = true → exec (.alphaLp fc fs) s = .next { s with
      cmd := s.cmd.drop 5
      rsp := s.rsp ++ [0x11000000#32, aL.extractLsb' 0 32, aL.extractLsb' 32 32] })

/-- `BQD.BP` answers the five coefficients of R150 for a valid configuration, when all are finite. -/
def Obligations.BandpassBiquadDesignerAnswersTheFormula : Prop :=
  ∀ (f fs q : Sys2Proof.Num) (s : State), validBq f fs q = true →
    let w0 := F64.div (F64.mul (F64.mul F64.two Constants.pi) f) fs
    let al := F64.div (F64.sin w0) (F64.mul F64.two q)
    let norm := F64.div F64.one (F64.add F64.one al)
    let cs := [F64.mul al norm, F64.zero, F64.mul (F64.neg al) norm,
      F64.mul (F64.mul (F64.neg F64.two) (F64.cos w0)) norm, F64.mul (F64.sub F64.one al) norm]
    cs.all F64.finite = true →
    exec (.bqdBp f fs q) s = .next { s with
      cmd := s.cmd.drop 7
      rsp := s.rsp ++ 0x12000000#32 :: cs.flatMap fun v => [v.extractLsb' 0 32, v.extractLsb' 32 32] }

/-- `BQD.HP` answers the five coefficients of R151, whose formulas the spec supplies from general knowledge (G2, log entry 8),
for a valid configuration, when all are finite. -/
def Obligations.HighpassBiquadDesignerAnswersTheFormula : Prop :=
  ∀ (f fs q : Sys2Proof.Num) (s : State), validBq f fs q = true →
    let w0 := F64.div (F64.mul (F64.mul F64.two Constants.pi) f) fs
    let al := F64.div (F64.sin w0) (F64.mul F64.two q)
    let norm := F64.div F64.one (F64.add F64.one al)
    let cw := F64.cos w0
    let a0 := F64.mul (F64.div (F64.add F64.one cw) F64.two) norm
    let cs := [a0, F64.mul (F64.neg (F64.add F64.one cw)) norm, a0,
      F64.mul (F64.mul (F64.neg F64.two) cw) norm, F64.mul (F64.sub F64.one al) norm]
    cs.all F64.finite = true →
    exec (.bqdHp f fs q) s = .next { s with
      cmd := s.cmd.drop 7
      rsp := s.rsp ++ 0x13000000#32 :: cs.flatMap fun v => [v.extractLsb' 0 32, v.extractLsb' 32 32] }

/-- `FIRD.LP` answers N coefficients, `c[0]` first: each is the windowed sinc of R170 (`w ⊘ PI` at the centre) divided by the
ascending sum of all, when the sum is finite and not zero and every coefficient is finite. -/
def Obligations.FirDesignerAnswersTheWindowedSinc : Prop :=
  ∀ (n : BitVec 16) (fc fs : Sys2Proof.Num) (s : State), validFir s.par.nmax fc fs n.toNat = true →
    let w := F64.div (F64.mul (F64.mul F64.two Constants.pi) fc) fs
    let m : Nat := (n.toNat - 1) / 2
    let r : Nat → Sys2Proof.Num := fun i =>
      if i = m then F64.div w Constants.pi
      else
        let k := F64.ofInt ((i : Int) - m)
        let win := F64.sub Constants.winA (F64.mul Constants.winB
          (F64.cos (F64.div (F64.mul (F64.mul F64.two Constants.pi) (F64.ofInt i)) (F64.ofInt ((n.toNat : Int) - 1)))))
        F64.mul (F64.div (F64.sin (F64.mul w k)) (F64.mul Constants.pi k)) win
    let sum := (List.range n.toNat).foldl (fun acc i => F64.add acc (r i)) F64.zero
    let cs := (List.range n.toNat).map fun i => F64.div (r i) sum
    F64.isZero sum = false → F64.finite sum = true → cs.all F64.finite = true →
    exec (.firdLp n fc fs) s = .next { s with
      cmd := s.cmd.drop 5
      rsp := s.rsp ++ 0x14000000#32 :: cs.flatMap fun v => [v.extractLsb' 0 32, v.extractLsb' 32 32] }

/-- The six `CREATE` commands: for a valid configuration with finite coefficients the named context, whatever it held, becomes
ACTIVE with the designed coefficients and the zero state, and nothing else changes but the response (R122, R123, R140, R152, R153,
R172, R37). -/
def Obligations.CreateGivesDesignedCoefficientsAndZeroState : Prop :=
  ∀ (i : Instr) (s : State) (k : Context), i.ctx.toNat < s.par.nctx → configRejected s.par.nmax i = false →
    (match i with
     | .createHp _ fc fs => k = .hp (alphaHP fc fs) ⟨0#16, 0#64⟩
     | .createLp _ fc fs => k = .lp (alphaLP fc fs) 0#64
     | .createBp _ low high fs => k = .bp ⟨alphaHP low fs, alphaLP high fs⟩ ⟨0#16, 0#64, 0#64⟩
     | .createBqbp _ f fs q => k = .bq (bqDesignBp f fs q) ⟨0#16, 0#16, 0#64, 0#64⟩
     | .createBqhp _ f fs q => k = .bq (bqDesignHp f fs q) ⟨0#16, 0#16, 0#64, 0#64⟩
     | .createFir _ n fc fs => k = .fir n.toNat (firDesign fc fs n.toNat) ⟨List.replicate n.toNat 0#16, 0⟩
     | _ => False) →
    exec i s = .next { s with
      ctx := Bank.set s.ctx i.ctx.toNat k
      cmd := s.cmd.drop i.numWords
      rsp := s.rsp ++ [(i.op.code ++ i.ctx ++ 0#16 : Word)] }

/-- The five `CREATEC` commands: with finite coefficients (and for FIR a valid number of them) the named context, whatever it held,
becomes ACTIVE with the given coefficients and the zero state, and nothing else changes but the response (R124, R125, R141, R154,
R173, R37). -/
def Obligations.CreatecGivesGivenCoefficientsAndZeroState : Prop :=
  ∀ (i : Instr) (s : State) (k : Context), i.ctx.toNat < s.par.nctx → configRejected s.par.nmax i = false →
    (match i with
     | .createcHp _ a => k = .hp a ⟨0#16, 0#64⟩
     | .createcLp _ a => k = .lp a 0#64
     | .createcBp _ aH aL => k = .bp ⟨aH, aL⟩ ⟨0#16, 0#64, 0#64⟩
     | .createcBq _ a0 a1 a2 b1 b2 => k = .bq ⟨a0, a1, a2, b1, b2⟩ ⟨0#16, 0#16, 0#64, 0#64⟩
     | .createcFir _ cs => k = .fir cs.length cs ⟨List.replicate cs.length 0#16, 0⟩
     | _ => False) →
    exec i s = .next { s with
      ctx := Bank.set s.ctx i.ctx.toNat k
      cmd := s.cmd.drop i.numWords
      rsp := s.rsp ++ [(i.op.code ++ i.ctx ++ 0#16 : Word)] }

/-! ## Processing -/

/-- A `PROC` command on a context of its kind, whose beats are there and in whose recurrence every value is finite: the context gets
the state after the chunk, the outputs go to `DOUT` in order, `STATUS.OVF` is set if one of them saturated (the command goes on),
and nothing else changes but the response (R126, R127, R143, R156, R176, R222). -/
def Obligations.ProcessingACleanChunkCompletes : Prop :=
  ∀ (kd : Kind) (c : Byte) (len : Word) (s : State) (k k' : Context) (ys : List Sample) (ovf : Bool),
    c.toNat < s.par.nctx → Bank.get s.ctx c.toNat = some k → len.toNat ≤ s.din.length →
    runOfKind kd k ((s.din.take len.toNat).map fun w => w.setWidth 16) = .done k' ys ovf →
    exec (processCommand kd c len) s = .next { s with
      ctx := Bank.set s.ctx c.toNat k'
      cmd := s.cmd.drop 2
      din := s.din.drop len.toNat
      dout := s.dout ++ ys.map fun y => y.signExtend 32
      status := if ovf then s.status ||| 0x00000001#32 else s.status
      rsp := s.rsp ++ [((processCommand kd c len).op.code ++ c ++ 0#16 : Word)] }

/-- The per-sample steps of the recurrences, operation by operation. HP and LP truncate, BQ and FIR round half away from zero; the
feedback registers receive the unconverted value; FIR writes the history location at `wp` before tap 0 reads it, adds its products
in ascending j from +0, and advances `wp` modulo N. A value that is not finite is never converted nor stored. And `runOfKind`, what
the `PROC` commands run, is the fold of the step of its kind over the chunk (BP: the two stages over the whole chunk), on a context
of that kind and on no other (R126, R127, R143, R156, R176, R54, R219). -/
def Obligations.RecurrenceStepsAreAsWritten : Prop :=
  (∀ (alpha : Sys2Proof.Num) (st : HpState) (x : Sample),
    let y := F64.mul alpha (F64.sub (F64.add st.prevOut (F64.ofInt x.toInt)) (F64.ofInt st.prevIn.toInt))
    hpStep alpha st x =
      if F64.finite y = true then some ⟨narrow16 (F64.trunc y), saturates (F64.trunc y), ⟨x, y⟩⟩ else none) ∧
  (∀ (alpha prevOut : Sys2Proof.Num) (x : Sample),
    let y := F64.add prevOut (F64.mul alpha (F64.sub (F64.ofInt x.toInt) prevOut))
    lpStep alpha prevOut x =
      if F64.finite y = true then some ⟨narrow16 (F64.trunc y), saturates (F64.trunc y), y⟩ else none) ∧
  (∀ (co : BqCoef) (st : BqState) (x0 : Sample),
    let y0 := F64.sub (F64.sub (F64.add (F64.add (F64.mul co.a0 (F64.ofInt x0.toInt)) (F64.mul co.a1 (F64.ofInt st.x1.toInt)))
      (F64.mul co.a2 (F64.ofInt st.x2.toInt))) (F64.mul co.b1 st.y1)) (F64.mul co.b2 st.y2)
    bqStep co st x0 =
      if F64.finite y0 = true then
        some ⟨narrow16 (F64.roundHA y0), saturates (F64.roundHA y0), ⟨x0, st.x1, y0, st.y1⟩⟩
      else none) ∧
  (∀ (n : Nat) (cs : List Sys2Proof.Num) (st : FirState) (x : Sample),
    let h := st.hist.set st.wp x
    let acc := (List.range n).foldl (fun acc j =>
      F64.add acc (F64.mul (F64.ofInt (h.getD ((st.wp + n - j) % n) 0#16).toInt) (cs.getD j F64.zero))) F64.zero
    firStep n cs st x =
      if F64.finite acc = true then
        some ⟨narrow16 (F64.roundHA acc), saturates (F64.roundHA acc), ⟨h, (st.wp + 1) % n⟩⟩
      else none) ∧
  (∀ (kd : Kind) (k : Context) (xs : List Sample),
    (runOfKind kd k xs = .mismatch ↔ k.kind ≠ kd) ∧ (k.kind = kd → runOfKind kd k [] = .done k [] false)) ∧
  (∀ (alpha : Sys2Proof.Num) (st : HpState) (x : Sample) (xs : List Sample),
    runOfKind .hp (.hp alpha st) (x :: xs) =
      match hpStep alpha st x with
      | none => .nonfinite
      | some o => (runOfKind .hp (.hp alpha o.st) xs).cons o.out o.ovf) ∧
  (∀ (alpha st : Sys2Proof.Num) (x : Sample) (xs : List Sample),
    runOfKind .lp (.lp alpha st) (x :: xs) =
      match lpStep alpha st x with
      | none => .nonfinite
      | some o => (runOfKind .lp (.lp alpha o.st) xs).cons o.out o.ovf) ∧
  (∀ (co : BqCoef) (st : BqState) (x : Sample) (xs : List Sample),
    runOfKind .bq (.bq co st) (x :: xs) =
      match bqStep co st x with
      | none => .nonfinite
      | some o => (runOfKind .bq (.bq co o.st) xs).cons o.out o.ovf) ∧
  (∀ (n : Nat) (cs : List Sys2Proof.Num) (st : FirState) (x : Sample) (xs : List Sample),
    runOfKind .fir (.fir n cs st) (x :: xs) =
      match firStep n cs st x with
      | none => .nonfinite
      | some o => (runOfKind .fir (.fir n cs o.st) xs).cons o.out o.ovf) ∧
  ∀ (co : BpCoef) (st : BpState) (xs : List Sample),
    runOfKind .bp (.bp co st) xs =
      match runOfKind .hp (.hp co.alphaHP ⟨st.prevInHP, st.prevOutHP⟩) xs with
      | .done (.hp _ u) us o =>
        match runOfKind .lp (.lp co.alphaLP st.prevOutLP) us with
        | .done (.lp _ p) ys o' => .done (.bp co ⟨u.prevIn, u.prevOut, p⟩) ys (o || o')
        | _ => .nonfinite
      | _ => .nonfinite

/-- Streaming equivalence of the pure functions: running u and then v from the state after u gives the outputs and the state that
running u ++ v gives, and the same saturation (R65). -/
def Obligations.ChunksProcessAsOneStream : Prop :=
  ∀ (kd : Kind) (k k1 k2 : Context) (u v : List Sample) (yu yv : List Sample) (o1 o2 : Bool),
    runOfKind kd k u = .done k1 yu o1 → runOfKind kd k1 v = .done k2 yv o2 →
    runOfKind kd k (u ++ v) = .done k2 (yu ++ yv) (o1 || o2)

/-- Streaming equivalence of the commands: two `PROC.K` commands that are accepted leave the contexts, `STATUS` and the outputs that
one `PROC.K` over both chunks leaves, and that one is accepted too (R65). -/
def Obligations.TwoProcCommandsEqualOne : Prop :=
  ∀ (kd : Kind) (c : Byte) (lu lv luv : Word) (s a b t : State) (hdr : Word),
    luv.toNat = lu.toNat + lv.toNat → luv.toNat ≤ s.din.length →
    hdr = (processCommand kd c lu).op.code ++ c ++ 0#16 →
    exec (processCommand kd c lu) s = .next a → exec (processCommand kd c lv) a = .next b →
    a.rsp = s.rsp ++ [hdr] → b.rsp = s.rsp ++ [hdr, hdr] →
    exec (processCommand kd c luv) s = .next t →
    t.ctx = b.ctx ∧ t.status = b.status ∧ t.dout = b.dout ∧ t.din = b.din ∧ t.rsp = s.rsp ++ [hdr]

/-- A buffer command with LEN = 0 takes no beat, produces none, leaves every register as it is, sets no flag and responds `OK`; on an
INACTIVE context a `PROC` is refused all the same (R66, R223). -/
def Obligations.ZeroLengthChangesNothing : Prop :=
  (∀ s : State, exec (.ulawDecb 0#32) s = .next { s with cmd := s.cmd.drop 2, rsp := s.rsp ++ [0x03000000#32] } ∧
    exec (.ulawEncb 0#32) s = .next { s with cmd := s.cmd.drop 2, rsp := s.rsp ++ [0x04000000#32] }) ∧
  (∀ (kd : Kind) (c : Byte) (s : State) (k : Context), Bank.wf s.par.nctx s.ctx →
    Bank.get s.ctx c.toNat = some k → k.kind = kd →
    exec (processCommand kd c 0#32) s = .next { s with
      cmd := s.cmd.drop 2
      rsp := s.rsp ++ [((processCommand kd c 0#32).op.code ++ c ++ 0#16 : Word)] }) ∧
  ∀ (kd : Kind) (c : Byte) (s : State), c.toNat < s.par.nctx → Bank.get s.ctx c.toNat = none →
    exec (processCommand kd c 0#32) s = .next { s with
      cmd := s.cmd.drop 2
      status := s.status ||| 0x00000004#32
      rsp := s.rsp ++ [((processCommand kd c 0#32).op.code ++ c ++ 0#8 ++ 0x03#8 : Word)] }

/-- `PROC.BP` equals `PROC.HP` on a context with αHP followed by `PROC.LP` of its output on a context with αLP: the same samples, and
the three state values agree (R144). -/
def Obligations.BandpassEqualsTwoSinglePoleContexts : Prop :=
  ∀ (s a b t : State) (c0 c1 c2 : Byte) (len : Word) (co : BpCoef) (st : BpState),
    c1 ≠ c2 → len.toNat ≤ s.din.length →
    Bank.get s.ctx c0.toNat = some (.bp co st) →
    Bank.get s.ctx c1.toNat = some (.hp co.alphaHP ⟨st.prevInHP, st.prevOutHP⟩) →
    Bank.get s.ctx c2.toNat = some (.lp co.alphaLP st.prevOutLP) →
    c0.toNat < s.par.nctx →
    exec (.procHp c1 len) s = .next a → a.rsp = s.rsp ++ [(0x30#8 ++ c1 ++ 0#16 : Word)] →
    exec (.procLp c2 len) { a with din := a.dout.drop s.dout.length } = .next b →
    b.rsp = a.rsp ++ [(0x31#8 ++ c2 ++ 0#16 : Word)] →
    exec (.procBp c0 len) s = .next t →
    t.rsp = s.rsp ++ [(0x32#8 ++ c0 ++ 0#16 : Word)] ∧
    t.dout = s.dout ++ b.dout.drop a.dout.length ∧
    ∃ st', Bank.get t.ctx c0.toNat = some (.bp co st') ∧
      Bank.get b.ctx c1.toNat = some (.hp co.alphaHP ⟨st'.prevInHP, st'.prevOutHP⟩) ∧
      Bank.get b.ctx c2.toNat = some (.lp co.alphaLP st'.prevOutLP)

/-- Staging the band-pass over the whole chunk and cascading it sample by sample give the same outputs, the same saturation and the
same final state (R143). -/
def Obligations.BandpassCascadesSampleBySample : Prop :=
  ∀ (co : BpCoef) (st : BpState) (xs : List Sample), bpProcess co st xs = process (bpStep co) st xs

/-- After a chunk of LEN samples the write position has advanced by LEN modulo N, and the history holds the chunk's last samples:
the location tap j reads next, counted back from the last write, holds the sample that arrived j samples before the last
(R54, R176). -/
def Obligations.FirHistoryHoldsTheLatestInputs : Prop :=
  ∀ (n : Nat) (cs : List Sys2Proof.Num) (st : FirState) (xs : List Sample) (r : Run FirState),
    st.hist.length = n → st.wp < n → firProcess n cs st xs = some r →
    r.st.wp = (st.wp + xs.length) % n ∧ r.st.hist.length = n ∧
    ∀ j, j < n → j < xs.length →
      r.st.hist[(r.st.wp + n - 1 - j) % n]? = xs[xs.length - 1 - j]?

/-- The addresses of `PROC.FIR`: every one lies in [0, N−1], tap 0 reads the location just written, tap N−1 the oldest, and one
conditional subtraction reduces `wp − j + N` (R54). -/
def Obligations.TapAddressesStayInTheHistory : Prop :=
  ∀ n wp j : Nat, wp < n → j < n →
    tapAddr n wp j < n ∧ tapAddr n wp 0 = wp ∧ tapAddr n wp (n - 1) = (wp + 1) % n ∧
    tapAddr n wp j = (if wp + n - j < n then wp + n - j else wp - j)

/-- From the zero state, the circular-buffer filter is the plain convolution: tap j multiplies the sample that arrived j samples ago,
products rounded once and added in ascending j from +0 (R176). -/
def Obligations.FirIsTheDirectConvolution : Prop :=
  ∀ (n : Nat) (cs : List Sys2Proof.Num) (xs : List Sample), 0 < n →
    (firProcess n cs ⟨List.replicate n 0#16, 0⟩ xs).map (fun r => (r.ys, r.ovf)) =
      (process (directFirStep n cs) [] xs).map (fun r => (r.ys, r.ovf))

/-! ## Context and system commands -/

/-- `CTXCFG`: bit 0 is `LIFE` = 1, bits 3:1 the kind (1 HP, 2 LP, 3 BP, 4 BQ, 5 FIR), bits 15:4 zero, bits 31:16 `NTAPS` (R30). -/
def Obligations.CtxcfgFieldsAreAsTheTable : Prop :=
  ∀ k : Context, k.ntaps < 65536 →
    (ctxcfg k).extractLsb' 0 1 = 1#1 ∧
    ((ctxcfg k).extractLsb' 1 3).toNat = (match k with | .hp .. => 1 | .lp .. => 2 | .bp .. => 3 | .bq .. => 4 | .fir .. => 5) ∧
    (ctxcfg k).extractLsb' 4 12 = 0#12 ∧
    ((ctxcfg k).extractLsb' 16 16).toNat = (match k with | .fir n _ _ => n | _ => 0)

/-- `STATE.RD` and `COEF.RD` answer `CTXCFG` and the image of R191 or R195, field by field, and change nothing else (R190, R194). -/
def Obligations.ContextReadsAnswerTheImages : Prop :=
  ∀ (c : Byte) (s : State) (k : Context), c.toNat < s.par.nctx → Bank.get s.ctx c.toNat = some k →
    let num : Sys2Proof.Num → List Word := fun v => [v.extractLsb' 0 32, v.extractLsb' 32 32]
    let smp : Sample → Word := fun x => x.signExtend 32
    exec (.stateRd c) s = .next { s with
      cmd := s.cmd.drop 1
      rsp := s.rsp ++ (0x40#8 ++ c ++ 0#16 : Word) :: ctxcfg k ::
        (match k with
         | .hp _ st => smp st.prevIn :: num st.prevOut
         | .lp _ y => num y
         | .bp _ st => smp st.prevInHP :: (num st.prevOutHP ++ num st.prevOutLP)
         | .bq _ st => smp st.x1 :: smp st.x2 :: (num st.y1 ++ num st.y2)
         | .fir _ _ st => BitVec.ofNat 32 st.wp :: st.hist.map smp) } ∧
    exec (.coefRd c) s = .next { s with
      cmd := s.cmd.drop 1
      rsp := s.rsp ++ (0x42#8 ++ c ++ 0#16 : Word) :: ctxcfg k ::
        (match k with
         | .hp a _ => num a
         | .lp a _ => num a
         | .bp co _ => num co.alphaHP ++ num co.alphaLP
         | .bq co _ => num co.a0 ++ num co.a1 ++ num co.a2 ++ num co.b1 ++ num co.b2
         | .fir _ cs _ => cs.flatMap num) }

/-- `STATE.WR` of an image without a fault: the context keeps its kind, tap count and coefficients, its state image becomes the
words that were written, and nothing else changes but the response (R192). -/
def Obligations.StateWriteStoresTheImage : Prop :=
  ∀ (c : Byte) (ws : List Word) (s : State) (k : Context), c.toNat < s.par.nctx →
    Bank.get s.ctx c.toNat = some k → imageRejected k ws = false →
    ∃ k', k'.coefPart = k.coefPart ∧ stateImage k' = ws ∧
      exec (.stateWr c ws) s = .next { s with
        ctx := Bank.set s.ctx c.toNat k'
        cmd := s.cmd.drop (2 + ws.length)
        rsp := s.rsp ++ [(0x41#8 ++ c ++ 0#16 : Word)] }

/-- Writing back the state image that `STATE.RD` gave leaves every context as it was (R192 (d)). -/
def Obligations.StateImageRoundTripChangesNothing : Prop :=
  ∀ (c : Byte) (s : State) (k : Context), s.Inv → Bank.get s.ctx c.toNat = some k →
    exec (.stateWr c (stateImage k)) s = .next { s with
      cmd := s.cmd.drop (2 + stateImageWords k.kind k.ntaps)
      rsp := s.rsp ++ [(0x41#8 ++ c ++ 0#16 : Word)] }

/-- `STATE.WR c` of a state, `PROC.K c` on a chunk, `STATE.RD c`: the outputs and the image that is read are what the pure function
gives for the coefficients of the context, that state and that chunk. `k1` is the context with the state that is written; it holds
what a context of the block can hold (R18, R193). -/
def Obligations.CommandsComputeThePureFunction : Prop :=
  ∀ (kd : Kind) (c : Byte) (len : Word) (s : State) (k k1 k2 : Context) (ys : List Sample) (ovf : Bool),
    c.toNat < s.par.nctx → s.par.nmax ≤ 65535 → Bank.get s.ctx c.toNat = some k →
    k1.coefPart = k.coefPart → k1.ok s.par.nmax = true → len.toNat ≤ s.din.length →
    runOfKind kd k1 ((s.din.take len.toNat).map beatS16) = .done k2 ys ovf →
    ∃ a b t, exec (.stateWr c (stateImage k1)) s = .next a ∧ exec (processCommand kd c len) a = .next b ∧
      exec (.stateRd c) b = .next t ∧
      b.dout = s.dout ++ ys.map sampleWord ∧
      t.rsp = b.rsp ++ (0x40#8 ++ c ++ 0#16 : Word) :: ctxcfg k2 :: stateImage k2

/-- The coefficient image can be replayed: a `CREATEC` command with those operand words gives the context the same kind, tap count
and coefficients (R195). -/
def Obligations.CoefficientImageReplaysAsCreatec : Prop :=
  ∀ (c : Byte) (s : State) (k : Context), c.toNat < s.par.nctx → s.par.nmax ≤ 65535 → k.ok s.par.nmax = true →
    ∃ i t k', i.wellFormed = true ∧ i.op = createcOp k.kind ∧ i.ctx = c ∧ i.operandWords = coefImage k ∧
      exec i s = .next t ∧ Bank.get t.ctx c.toNat = some k' ∧ k'.coefPart = k.coefPart ∧ t.status = s.status

/-- `RELEASE`: the context becomes INACTIVE and every other stays; releasing it again is refused with `CTX_INACTIVE` and sets
`STATUS.CTXERR` (R196). -/
def Obligations.ReleaseEndsTheContext : Prop :=
  ∀ (c : Byte) (s : State) (k : Context), c.toNat < s.par.nctx → Bank.get s.ctx c.toNat = some k →
    ∃ t, exec (.release c) s = .next t ∧
      Bank.get t.ctx c.toNat = none ∧ (∀ d, d ≠ c.toNat → Bank.get t.ctx d = Bank.get s.ctx d) ∧
      t = { s with ctx := t.ctx, cmd := s.cmd.drop 1, rsp := s.rsp ++ [(0x4E#8 ++ c ++ 0#16 : Word)] } ∧
      exec (.release c) t = .next { t with
        cmd := t.cmd.drop 1
        status := t.status ||| 0x00000004#32
        rsp := t.rsp ++ [(0x4E#8 ++ c ++ 0#8 ++ 0x03#8 : Word)] }

/-- `STATUS.RD`: the one word 0x4F000000; it answers `STATUS` as it stands and clears nothing; it is never refused, and it does not
execute while the block is halted (R198). -/
def Obligations.StatusReadAnswersStatus : Prop :=
  encode .statusRd = [0x4F000000#32] ∧
  (∀ s : State, exec .statusRd s = .next { s with
    cmd := s.cmd.drop 1
    rsp := s.rsp ++ [0x4F000000#32, s.status] }) ∧
  (∀ (s : State) (ws : List Word), s.halt = false → s.cmd = 0x4F000000#32 :: ws →
    step s = .next { s with cmd := ws, rsp := s.rsp ++ [0x4F000000#32, s.status] }) ∧
  ∀ (s : State) (ws : List Word), s.halt = true → s.cmd = 0x4F000000#32 :: ws → step s = .next s
end

