-- ==== Sys2Proof/Laws/State.lean ====
section
/-! SUPPORT. One lemma per field of `State` per update of Machine/Ops.lean, and per answer built from them. -/

namespace Sys2Proof.Machine

variable (s : State) (o : Op) (c : Byte) (code : Code) (payload : List Word)

@[simp] theorem State.consume_par (words beats : Nat) : (s.consume words beats).par = s.par := rfl
@[simp] theorem State.consume_ctx (words beats : Nat) : (s.consume words beats).ctx = s.ctx := rfl
@[simp] theorem State.consume_status (words beats : Nat) : (s.consume words beats).status = s.status := rfl
@[simp] theorem State.consume_halt (words beats : Nat) : (s.consume words beats).halt = s.halt := rfl
@[simp] theorem State.consume_cmd (words beats : Nat) : (s.consume words beats).cmd = s.cmd.drop words := rfl
@[simp] theorem State.consume_din (words beats : Nat) : (s.consume words beats).din = s.din.drop beats := rfl
@[simp] theorem State.consume_dout (words beats : Nat) : (s.consume words beats).dout = s.dout := rfl
@[simp] theorem State.consume_rsp (words beats : Nat) : (s.consume words beats).rsp = s.rsp := rfl

@[simp] theorem State.flag_par (f : BitVec 32) : (s.flag f).par = s.par := rfl
@[simp] theorem State.flag_ctx (f : BitVec 32) : (s.flag f).ctx = s.ctx := rfl
@[simp] theorem State.flag_status (f : BitVec 32) : (s.flag f).status = s.status ||| f := rfl
@[simp] theorem State.flag_halt (f : BitVec 32) : (s.flag f).halt = s.halt := rfl
@[simp] theorem State.flag_cmd (f : BitVec 32) : (s.flag f).cmd = s.cmd := rfl
@[simp] theorem State.flag_din (f : BitVec 32) : (s.flag f).din = s.din := rfl
@[simp] theorem State.flag_dout (f : BitVec 32) : (s.flag f).dout = s.dout := rfl
@[simp] theorem State.flag_rsp (f : BitVec 32) : (s.flag f).rsp = s.rsp := rfl

@[simp] theorem State.respond_par (ws : List Word) : (s.respond ws).par = s.par := rfl
@[simp] theorem State.respond_ctx (ws : List Word) : (s.respond ws).ctx = s.ctx := rfl
@[simp] theorem State.respond_status (ws : List Word) : (s.respond ws).status = s.status := rfl
@[simp] theorem State.respond_halt (ws : List Word) : (s.respond ws).halt = s.halt := rfl
@[simp] theorem State.respond_cmd (ws : List Word) : (s.respond ws).cmd = s.cmd := rfl
@[simp] theorem State.respond_din (ws : List Word) : (s.respond ws).din = s.din := rfl
@[simp] theorem State.respond_dout (ws : List Word) : (s.respond ws).dout = s.dout := rfl
@[simp] theorem State.respond_rsp (ws : List Word) : (s.respond ws).rsp = s.rsp ++ ws := rfl

@[simp] theorem State.emit_par (ws : List Word) : (s.emit ws).par = s.par := rfl
@[simp] theorem State.emit_ctx (ws : List Word) : (s.emit ws).ctx = s.ctx := rfl
@[simp] theorem State.emit_status (ws : List Word) : (s.emit ws).status = s.status := rfl
@[simp] theorem State.emit_halt (ws : List Word) : (s.emit ws).halt = s.halt := rfl
@[simp] theorem State.emit_cmd (ws : List Word) : (s.emit ws).cmd = s.cmd := rfl
@[simp] theorem State.emit_din (ws : List Word) : (s.emit ws).din = s.din := rfl
@[simp] theorem State.emit_dout (ws : List Word) : (s.emit ws).dout = s.dout ++ ws := rfl
@[simp] theorem State.emit_rsp (ws : List Word) : (s.emit ws).rsp = s.rsp := rfl

@[simp] theorem State.putCtx_par (c : Nat) (k : Context) : (s.putCtx c k).par = s.par := rfl
@[simp] theorem State.putCtx_ctx (c : Nat) (k : Context) : (s.putCtx c k).ctx = Bank.set s.ctx c k := rfl
@[simp] theorem State.putCtx_status (c : Nat) (k : Context) : (s.putCtx c k).status = s.status := rfl
@[simp] theorem State.putCtx_halt (c : Nat) (k : Context) : (s.putCtx c k).halt = s.halt := rfl
@[simp] theorem State.putCtx_cmd (c : Nat) (k : Context) : (s.putCtx c k).cmd = s.cmd := rfl
@[simp] theorem State.putCtx_din (c : Nat) (k : Context) : (s.putCtx c k).din = s.din := rfl
@[simp] theorem State.putCtx_dout (c : Nat) (k : Context) : (s.putCtx c k).dout = s.dout := rfl
@[simp] theorem State.putCtx_rsp (c : Nat) (k : Context) : (s.putCtx c k).rsp = s.rsp := rfl

@[simp] theorem State.dropCtx_par (c : Nat) : (s.dropCtx c).par = s.par := rfl
@[simp] theorem State.dropCtx_ctx (c : Nat) : (s.dropCtx c).ctx = Bank.erase s.ctx c := rfl
@[simp] theorem State.dropCtx_status (c : Nat) : (s.dropCtx c).status = s.status := rfl
@[simp] theorem State.dropCtx_halt (c : Nat) : (s.dropCtx c).halt = s.halt := rfl
@[simp] theorem State.dropCtx_cmd (c : Nat) : (s.dropCtx c).cmd = s.cmd := rfl
@[simp] theorem State.dropCtx_din (c : Nat) : (s.dropCtx c).din = s.din := rfl
@[simp] theorem State.dropCtx_dout (c : Nat) : (s.dropCtx c).dout = s.dout := rfl
@[simp] theorem State.dropCtx_rsp (c : Nat) : (s.dropCtx c).rsp = s.rsp := rfl

@[simp] theorem State.stop_par : (s.stop).par = s.par := rfl
@[simp] theorem State.stop_ctx : (s.stop).ctx = s.ctx := rfl
@[simp] theorem State.stop_status : (s.stop).status = s.status := rfl
@[simp] theorem State.stop_halt : (s.stop).halt = true := rfl
@[simp] theorem State.stop_cmd : (s.stop).cmd = s.cmd := rfl
@[simp] theorem State.stop_din : (s.stop).din = s.din := rfl
@[simp] theorem State.stop_dout : (s.stop).dout = s.dout := rfl
@[simp] theorem State.stop_rsp : (s.stop).rsp = s.rsp := rfl

@[simp] theorem accept_par : (accept o c payload s).par = s.par := rfl
@[simp] theorem accept_ctx : (accept o c payload s).ctx = s.ctx := rfl
@[simp] theorem accept_status : (accept o c payload s).status = s.status := rfl
@[simp] theorem accept_halt : (accept o c payload s).halt = s.halt := rfl
@[simp] theorem accept_cmd : (accept o c payload s).cmd = s.cmd := rfl
@[simp] theorem accept_din : (accept o c payload s).din = s.din := rfl
@[simp] theorem accept_dout : (accept o c payload s).dout = s.dout := rfl
@[simp] theorem accept_rsp : (accept o c payload s).rsp = s.rsp ++ respHeader o c .ok :: payload := rfl

@[simp] theorem refuse_par : (refuse o c code s).par = s.par := rfl
@[simp] theorem refuse_ctx : (refuse o c code s).ctx = s.ctx := rfl
@[simp] theorem refuse_status : (refuse o c code s).status = s.status ||| code.flag := rfl
@[simp] theorem refuse_halt : (refuse o c code s).halt = s.halt := rfl
@[simp] theorem refuse_cmd : (refuse o c code s).cmd = s.cmd := rfl
@[simp] theorem refuse_din : (refuse o c code s).din = s.din := rfl
@[simp] theorem refuse_dout : (refuse o c code s).dout = s.dout := rfl
@[simp] theorem refuse_rsp : (refuse o c code s).rsp = s.rsp ++ [respHeader o c code] := rfl

@[simp] theorem refuseNonfinite_par : (refuseNonfinite o c s).par = s.par := rfl
@[simp] theorem refuseNonfinite_ctx : (refuseNonfinite o c s).ctx = Bank.erase s.ctx c.toNat := rfl
@[simp] theorem refuseNonfinite_status : (refuseNonfinite o c s).status = s.status ||| Flag.numerr := rfl
@[simp] theorem refuseNonfinite_halt : (refuseNonfinite o c s).halt = s.halt := rfl
@[simp] theorem refuseNonfinite_cmd : (refuseNonfinite o c s).cmd = s.cmd := rfl
@[simp] theorem refuseNonfinite_din : (refuseNonfinite o c s).din = s.din := rfl
@[simp] theorem refuseNonfinite_dout : (refuseNonfinite o c s).dout = s.dout := rfl
@[simp] theorem refuseNonfinite_rsp : (refuseNonfinite o c s).rsp = s.rsp ++ [respHeader o c .numNonfinite] := rfl

end Sys2Proof.Machine
end

