-- ==== Sys2Proof/Laws/Bank.lean ====
section
/-! SUPPORT. The laws of the context bank: a context read after a write, every other context untouched, and the canonical form
kept by every operation. -/

namespace Sys2Proof.Machine

theorem Bank.get_set_same (b : Bank) (c : Nat) (k : Context) : Bank.get (Bank.set b c k) c = some k := by
  induction b with
  | nil => simp [Bank.set, Bank.get]
  | cons e r ih =>
    unfold Bank.set
    split
    · simp [Bank.get]
    · split
      · simp [Bank.get]
      · rename_i h
        simp [Bank.get, Ne.symm h, ih]

theorem Bank.get_set_other (b : Bank) {c d : Nat} (k : Context) (h : c ≠ d) :
    Bank.get (Bank.set b c k) d = Bank.get b d := by
  induction b with
  | nil => simp [Bank.set, Bank.get, h]
  | cons e r ih =>
    unfold Bank.set
    split
    · simp [Bank.get, h]
    · split
      · rename_i hc
        subst hc
        simp [Bank.get, h]
      · simp [Bank.get, ih]

theorem Bank.get_erase_same (b : Bank) (c : Nat) : Bank.get (Bank.erase b c) c = none := by
  induction b with
  | nil => rfl
  | cons e r ih =>
    by_cases h : e.1 = c
    · simpa [Bank.erase, List.filter_cons, h] using ih
    · simpa [Bank.erase, List.filter_cons, h, Bank.get] using ih

theorem Bank.get_erase_other (b : Bank) {c d : Nat} (h : c ≠ d) : Bank.get (Bank.erase b c) d = Bank.get b d := by
  induction b with
  | nil => rfl
  | cons e r ih =>
    by_cases he : e.1 = c
    · have : e.1 ≠ d := fun hd => h (he.symm.trans hd)
      simpa [Bank.erase, List.filter_cons, he, Bank.get, h] using ih
    · simp only [Bank.erase, List.filter_cons, bne_iff_ne, ne_eq, he, not_false_eq_true, ↓reduceIte, Bank.get] at ih ⊢
      rw [ih]

/-- A context that is read is an entry of the bank. -/
theorem Bank.mem_of_get {b : Bank} {c : Nat} {k : Context} (h : Bank.get b c = some k) : (c, k) ∈ b := by
  induction b with
  | nil => simp [Bank.get] at h
  | cons e r ih =>
    unfold Bank.get at h
    split at h
    · rename_i he
      obtain ⟨d, x⟩ := e
      simp only [Option.some.injEq] at h he
      simp [h, he]
    · exact List.mem_cons_of_mem _ (ih h)

/-- An entry after a write is the one written or an entry from before. -/
theorem Bank.mem_set {b : Bank} {c : Nat} {k : Context} {e : Nat × Context} (h : e ∈ Bank.set b c k) :
    e = (c, k) ∨ e ∈ b := by
  induction b with
  | nil => simpa [Bank.set] using h
  | cons x r ih =>
    unfold Bank.set at h
    split at h
    · simpa using h
    · split at h
      · rcases List.mem_cons.1 h with h | h <;> simp [h]
      · rcases List.mem_cons.1 h with h | h
        · simp [h]
        · rcases ih h with h | h <;> simp [h]

theorem Bank.mem_erase {b : Bank} {c : Nat} {e : Nat × Context} (h : e ∈ Bank.erase b c) : e ∈ b :=
  (List.mem_filter.1 h).1

/-- The indices of a bank stay in strictly rising order. -/
theorem Bank.set_rising {b : Bank} (c : Nat) (k : Context) (h : b.Pairwise (fun x y => x.1 < y.1)) :
    (Bank.set b c k).Pairwise (fun x y => x.1 < y.1) := by
  induction b with
  | nil => simp [Bank.set]
  | cons e r ih =>
    obtain ⟨he, hr⟩ := List.pairwise_cons.1 h
    unfold Bank.set
    split
    · rename_i hc
      refine List.pairwise_cons.2 ⟨fun y hy => ?_, h⟩
      rcases List.mem_cons.1 hy with rfl | hy
      · exact hc
      · exact Nat.lt_trans hc (he y hy)
    · split
      · rename_i hc
        subst hc
        exact List.pairwise_cons.2 ⟨he, hr⟩
      · refine List.pairwise_cons.2 ⟨fun y hy => ?_, ih hr⟩
        rcases Bank.mem_set hy with rfl | hy
        · show e.1 < c
          omega
        · exact he y hy

/-- Every bank operation keeps the canonical form. -/
theorem Bank.set_wf {n : Nat} {b : Bank} {c : Nat} (k : Context) (hc : c < n) (h : Bank.wf n b) :
    Bank.wf n (Bank.set b c k) := by
  refine ⟨Bank.set_rising c k h.1, fun e he => ?_⟩
  rcases Bank.mem_set he with rfl | he
  · exact hc
  · exact h.2 e he

theorem Bank.erase_wf {n : Nat} {b : Bank} (c : Nat) (h : Bank.wf n b) : Bank.wf n (Bank.erase b c) :=
  ⟨h.1.filter _, fun e he => h.2 e (Bank.mem_erase he)⟩

/-- Below the first index of a rising bank nothing is listed. -/
theorem Bank.get_none_of_lt {b : Bank} {c : Nat} (h : ∀ e ∈ b, c < e.1) : Bank.get b c = none := by
  induction b with
  | nil => rfl
  | cons e r ih =>
    have hc : e.1 ≠ c := Nat.ne_of_gt (h e List.mem_cons_self)
    simp only [Bank.get, hc, ↓reduceIte]
    exact ih fun x hx => h x (List.mem_cons_of_mem _ hx)

/-- Banks in canonical form that read alike are equal data. -/
theorem Bank.ext_get {b b' : Bank} (h : b.Pairwise (fun x y => x.1 < y.1)) (h' : b'.Pairwise (fun x y => x.1 < y.1))
    (hg : ∀ c, Bank.get b c = Bank.get b' c) : b = b' := by
  induction b generalizing b' with
  | nil =>
    cases b' with
    | nil => rfl
    | cons e r => simpa [Bank.get] using hg e.1
  | cons e r ih =>
    obtain ⟨he, hr⟩ := List.pairwise_cons.1 h
    cases b' with
    | nil => simpa [Bank.get] using hg e.1
    | cons e' r' =>
      obtain ⟨he', hr'⟩ := List.pairwise_cons.1 h'
      have key : e.1 = e'.1 := by
        rcases Nat.lt_trichotomy e.1 e'.1 with hlt | heq | hgt
        · have := hg e.1
          rw [Bank.get_none_of_lt (b := e' :: r') (fun x hx => by
            rcases List.mem_cons.1 hx with rfl | hx
            · exact hlt
            · exact Nat.lt_trans hlt (he' x hx))] at this
          simp [Bank.get] at this
        · exact heq
        · have := hg e'.1
          rw [Bank.get_none_of_lt (b := e :: r) (fun x hx => by
            rcases List.mem_cons.1 hx with rfl | hx
            · exact hgt
            · exact Nat.lt_trans hgt (he x hx))] at this
          simp [Bank.get] at this
      have hval : e.2 = e'.2 := by simpa [Bank.get, key] using hg e.1
      have htail : r = r' := ih hr hr' fun c => by
        by_cases hc : e.1 = c
        · subst hc
          rw [Bank.get_none_of_lt he, Bank.get_none_of_lt (key ▸ he')]
        · have := hg c
          simpa [Bank.get, hc, key ▸ hc] using this
      rw [htail, Prod.ext key hval]

/-- Writes to different contexts commute (R62). -/
theorem Bank.set_comm {b : Bank} {c d : Nat} (k l : Context) (h : b.Pairwise (fun x y => x.1 < y.1)) (hcd : c ≠ d) :
    Bank.set (Bank.set b c k) d l = Bank.set (Bank.set b d l) c k := by
  refine Bank.ext_get (Bank.set_rising _ _ (Bank.set_rising _ _ h)) (Bank.set_rising _ _ (Bank.set_rising _ _ h)) fun e => ?_
  by_cases hc : c = e
  · subst hc
    rw [Bank.get_set_other _ _ hcd.symm, Bank.get_set_same, Bank.get_set_same]
  · by_cases hd : d = e
    · subst hd
      rw [Bank.get_set_same, Bank.get_set_other _ _ hcd, Bank.get_set_same]
    · simp only [Bank.get_set_other _ _ hc, Bank.get_set_other _ _ hd]

/-- Writing back the context that was read changes nothing. -/
theorem Bank.set_of_get {n : Nat} {b : Bank} {c : Nat} {k : Context} (h : Bank.wf n b) (hk : Bank.get b c = some k) :
    Bank.set b c k = b := by
  refine Bank.ext_get (Bank.set_rising _ _ h.1) h.1 fun d => ?_
  by_cases hd : c = d
  · rw [← hd, Bank.get_set_same, hk]
  · rw [Bank.get_set_other _ _ hd]

/-- The second of two writes to one context stands. -/
theorem Bank.set_set (b : Bank) (c : Nat) (k l : Context) : Bank.set (Bank.set b c k) c l = Bank.set b c l := by
  induction b with
  | nil => simp [Bank.set]
  | cons e r ih =>
    by_cases h1 : c < e.1
    · simp [Bank.set, h1]
    · by_cases h2 : c = e.1
      · subst h2
        simp [Bank.set]
      · simp [Bank.set, h1, h2, ih]

/-- The bank after reset is in canonical form. -/
theorem Bank.reset_wf : Bank.wf State.reset.par.nctx State.reset.ctx := by
  exact ⟨List.Pairwise.nil, by simp [State.reset]⟩

end Sys2Proof.Machine
end

