-- ==== Sys2Proof/Laws/Decode.lean ====
section
/-! SUPPORT. The small laws of the encoding: the fields of a header that was put together, the opcode map read back, the two
words of a `Num` put together again. -/

namespace Sys2Proof

/-- The bits of a field that was appended, in the width the append has. -/
theorem extract_append_low {n m : Nat} (x : BitVec n) (y : BitVec m) : (x ++ y).extractLsb' 0 m = y := by
  ext i hi
  simp [BitVec.getLsbD_append, hi]

theorem extract_append_high {n m : Nat} (x : BitVec n) (y : BitVec m) : (x ++ y).extractLsb' m n = x := by
  ext i hi
  simp [BitVec.getLsbD_append, BitVec.getLsbD_eq_getElem hi]

theorem extract_append_mid {n m k : Nat} (x : BitVec n) (y : BitVec m) (z : BitVec k) :
    (x ++ y ++ z).extractLsb' k m = y := by
  ext i hi
  simp [BitVec.getLsbD_append, hi]

theorem extract_append_top {n m k : Nat} (x : BitVec n) (y : BitVec m) (z : BitVec k) :
    (x ++ y ++ z).extractLsb' (k + m) n = x := by
  ext i hi
  simp [BitVec.getLsbD_append, BitVec.getLsbD_eq_getElem hi, Nat.add_assoc]

@[simp] theorem hdrOpc_mkHeader (o : Op) (c : Byte) (a : BitVec 16) : hdrOpc (mkHeader o c a) = o.code :=
  extract_append_top o.code c a

@[simp] theorem hdrCtx_mkHeader (o : Op) (c : Byte) (a : BitVec 16) : hdrCtx (mkHeader o c a) = c :=
  extract_append_mid o.code c a

@[simp] theorem hdrArg_mkHeader (o : Op) (c : Byte) (a : BitVec 16) : hdrArg (mkHeader o c a) = a :=
  extract_append_low (o.code ++ c) a

/-- A header is its three fields. -/
theorem mkHeader_fields {o : Op} {h : Word} (ho : o.code = hdrOpc h) : mkHeader o (hdrCtx h) (hdrArg h) = h := by
  have key : ∀ x : BitVec (8 + 8 + 16), x.extractLsb' 24 8 ++ x.extractLsb' 16 8 ++ x.extractLsb' 0 16 = x := by
    intro x
    ext i hi
    simp only [BitVec.getElem_append, BitVec.getElem_extractLsb']
    split
    · simp [BitVec.getLsbD_eq_getElem hi]
    · split
      · rename_i h1 h2
        have : 16 + (i - 16) = i := by omega
        simp [this, BitVec.getLsbD_eq_getElem hi]
      · rename_i h1 h2
        have : 24 + (i - 16 - 8) = i := by omega
        simp [this, BitVec.getLsbD_eq_getElem hi]
  unfold mkHeader
  rw [ho]
  exact key h

@[simp] theorem Op.ofCode_code (o : Op) : Op.ofCode o.code = some o := by
  cases o <;> rfl

/-- An `OPC` byte names the command whose code it is. -/
theorem Op.code_of_ofCode {b : Byte} {o : Op} (h : Op.ofCode b = some o) : o.code = b := by
  have := List.find?_some h
  simpa using this

@[simp] theorem f64_words (v : Num) : f64 (v.extractLsb' 0 32) (v.extractLsb' 32 32) = v := by
  have key : ∀ x : BitVec (32 + 32), x.extractLsb' 32 32 ++ x.extractLsb' 0 32 = x := by
    intro x
    ext i hi
    simp only [BitVec.getElem_append, BitVec.getElem_extractLsb']
    split
    · simp [BitVec.getLsbD_eq_getElem hi]
    · rename_i h
      have : 32 + (i - 32) = i := by omega
      simp [this, BitVec.getLsbD_eq_getElem hi]
  exact key v

@[simp] theorem f64_lo (a b : Word) : (f64 a b).extractLsb' 0 32 = a := extract_append_low b a

@[simp] theorem f64_hi (a b : Word) : (f64 a b).extractLsb' 32 32 = b := extract_append_high b a

@[simp] theorem f64Words_f64 (a b : Word) : f64Words (f64 a b) = [a, b] := by simp [f64Words]

theorem f64Words_length (v : Num) : (f64Words v).length = 2 := rfl

/-- The operand words of `CREATEC.FIR` read back. -/
theorem takeF64s_flatMap (cs : List Num) (rest : List Word) :
    takeF64s cs.length (cs.flatMap f64Words ++ rest) = some cs := by
  induction cs with
  | nil => rfl
  | cons v cs ih => simp [takeF64s, f64Words, ih]

theorem flatMap_f64Words_length (cs : List Num) : (cs.flatMap f64Words).length = 2 * cs.length := by
  induction cs with
  | nil => rfl
  | cons v cs ih =>
    rw [List.flatMap_cons, List.length_append, ih, f64Words_length, List.length_cons]
    omega

/-- The must-be-zero fields of a header put together from a command are zero (R73). -/
theorem headerOp_mkHeader {o : Op} {c : Byte} {a : BitVec 16} (hc : o.namesCtx = true ∨ c = 0#8)
    (ha : o.argUse = .taps ∨ (o.argUse = .byte ∧ a.extractLsb' 8 8 = 0#8) ∨ (o.argUse = .none ∧ a = 0#16)) :
    headerOp (mkHeader o c a) = .ok o := by
  have : fieldsLegal o (mkHeader o c a) = true := by
    unfold fieldsLegal
    rw [hdrCtx_mkHeader, hdrArg_mkHeader, Bool.and_eq_true]
    refine ⟨by rcases hc with h | h <;> simp [h], ?_⟩
    rcases ha with h | ⟨h, e⟩ | ⟨h, e⟩
    · simp [h]
    · simp [h, e]
    · simp [h, e]
  simp [headerOp, this]

end Sys2Proof
end

