-- ==== Sys2Proof/Laws/Ops.lean ====
section
/-! SUPPORT. What each shared operation can do, said once: the cases of a command's frame, and the laws of a chunk. -/

namespace Sys2Proof.Machine

/-! ## The frame of a command -/

/-- A command that names a context goes on, or is refused with `CTX_RANGE` (R211, R216). -/
theorem inRange_cases (o : Op) (c : Byte) (s go : State) :
    (c.toNat < s.par.nctx ∧ inRange o c s go = go) ∨
    (s.par.nctx ≤ c.toNat ∧ inRange o c s go = refuse o c .ctxRange s) := by
  unfold inRange
  split
  · exact .inl ⟨‹_›, rfl⟩
  · exact .inr ⟨Nat.le_of_not_lt ‹_›, rfl⟩

/-- A command that needs an ACTIVE context goes on with it, or is refused with `CTX_RANGE` or `CTX_INACTIVE` (R211). -/
theorem withContext_cases (o : Op) (c : Byte) (s : State) (go : Context → State) :
    (∃ k, c.toNat < s.par.nctx ∧ Bank.get s.ctx c.toNat = some k ∧ withContext o c s go = go k) ∨
    (s.par.nctx ≤ c.toNat ∧ withContext o c s go = refuse o c .ctxRange s) ∨
    (c.toNat < s.par.nctx ∧ Bank.get s.ctx c.toNat = none ∧ withContext o c s go = refuse o c .ctxInactive s) := by
  unfold withContext inRange
  split
  · rename_i h
    cases hk : Bank.get s.ctx c.toNat with
    | none => exact .inr (.inr ⟨h, rfl, rfl⟩)
    | some k => exact .inl ⟨k, h, rfl, rfl⟩
  · exact .inr (.inl ⟨Nat.le_of_not_lt ‹_›, rfl⟩)

/-- A designer answers `OK` with its payload, or `CFG_INVALID` (R211). -/
theorem design_cases (o : Op) (p : Option (List Word)) (s : State) :
    (∃ ws, p = some ws ∧ design o p s = accept o 0#8 ws s) ∨ (p = none ∧ design o p s = refuse o 0#8 .cfgInvalid s) := by
  cases p with
  | none => exact .inr ⟨rfl, rfl⟩
  | some ws => exact .inl ⟨ws, rfl, rfl⟩

/-- A creation writes the named context, or is refused with `CTX_RANGE` or `CFG_INVALID` (R211, R218). -/
theorem create_cases (o : Op) (c : Byte) (k : Option Context) (s : State) :
    (∃ x, c.toNat < s.par.nctx ∧ k = some x ∧ create o c k s = accept o c [] (s.putCtx c.toNat x)) ∨
    (s.par.nctx ≤ c.toNat ∧ create o c k s = refuse o c .ctxRange s) ∨
    (c.toNat < s.par.nctx ∧ k = none ∧ create o c k s = refuse o c .cfgInvalid s) := by
  unfold create inRange
  split
  · rename_i h
    cases k with
    | none => exact .inr (.inr ⟨h, rfl, rfl⟩)
    | some x => exact .inl ⟨x, h, rfl, rfl⟩
  · exact .inr (.inl ⟨Nat.le_of_not_lt ‹_›, rfl⟩)

/-- A buffer command waits, or goes on with its beats (R52, R248). -/
theorem buffered_cases (len : Word) (s : State) (go : List Word → State → State) :
    (s.din.length < len.toNat ∧ buffered len s go = s) ∨
    (len.toNat ≤ s.din.length ∧ buffered len s go = go (s.din.take len.toNat) (s.consume 2 len.toNat)) := by
  unfold buffered
  split
  · exact .inl ⟨‹_›, rfl⟩
  · exact .inr ⟨Nat.le_of_not_lt ‹_›, rfl⟩

/-- Everything a `PROC` command can do (R211, R219). `b` is the state with its words and beats consumed. -/
theorem procCommand_cases (o : Op) (c : Byte) (len : Word) (run : Context → List Sample → ProcResult) (s : State) :
    (s.din.length < len.toNat ∧ procCommand o c len run s = s) ∨
    (len.toNat ≤ s.din.length ∧ ∃ b, b = s.consume 2 len.toNat ∧
      ((s.par.nctx ≤ c.toNat ∧ procCommand o c len run s = refuse o c .ctxRange b) ∨
       (c.toNat < s.par.nctx ∧ Bank.get s.ctx c.toNat = none ∧ procCommand o c len run s = refuse o c .ctxInactive b) ∨
       (∃ k, c.toNat < s.par.nctx ∧ Bank.get s.ctx c.toNat = some k ∧
         procCommand o c len run s = finishProc o c (run k ((s.din.take len.toNat).map beatS16)) b))) := by
  unfold procCommand
  rcases buffered_cases len s (fun beats s' => withContext o c s' fun k => finishProc o c (run k (beats.map beatS16)) s')
    with ⟨h, e⟩ | ⟨h, e⟩
  · exact .inl ⟨h, e⟩
  · refine .inr ⟨h, _, rfl, ?_⟩
    rw [e]
    rcases withContext_cases o c (s.consume 2 len.toNat)
      (fun k => finishProc o c (run k ((s.din.take len.toNat).map beatS16)) (s.consume 2 len.toNat))
      with ⟨k, h1, h2, e⟩ | ⟨h1, e⟩ | ⟨h1, h2, e⟩
    · exact .inr (.inr ⟨k, h1, h2, e⟩)
    · exact .inl ⟨h1, e⟩
    · exact .inr (.inl ⟨h1, h2, e⟩)

/-! ## Answers -/

/-- The header of an accepted command, its lower half written as one field. -/
theorem respHeader_ok (o : Op) (c : Byte) : respHeader o c .ok = (o.code ++ c ++ 0#16 : Word) := by
  have : ∀ a : BitVec 16, (a ++ 0#16 : BitVec 32) = a ++ 0#8 ++ 0#8 := by
    intro a
    ext j hj
    simp only [BitVec.getElem_append]
    by_cases h1 : j < 16
    · by_cases h2 : j < 8
      · simp [h1, h2]
      · have : j - 8 < 8 := by omega
        simp [h1, h2, this]
    · have h2 : ¬ j < 8 := by omega
      have h3 : ¬ j - 8 < 8 := by omega
      have h4 : j - 8 - 8 = j - 16 := by omega
      simp [h1, h2, h3, h4]
  exact (this (o.code ++ c)).symm

/-- A response header tells its code. -/
theorem respHeader_inj {o : Op} {c : Byte} {x y : Code} (h : respHeader o c x = respHeader o c y) : x = y := by
  have low : ∀ z : Code, (respHeader o c z).extractLsb' 0 8 = z.byte := fun z =>
    extract_append_low (o.code ++ c ++ 0#8) z.byte
  have := congrArg (fun w : Word => w.extractLsb' 0 8) h
  simp only [low] at this
  revert this
  cases x <;> cases y <;> simp [Code.byte]

/-- No code sets a reserved bit of `STATUS` (R31, R213). -/
theorem Code.flag_reserved (code : Code) : code.flag &&& Flag.reserved = 0#32 := by
  cases code <;> decide

/-- `ILLEGAL` alone sets `STATUS.ILL` (R213). -/
theorem Code.flag_ill {code : Code} (h : code ≠ .illegal) : code.flag &&& Flag.ill = 0#32 := by
  cases code <;> first
    | decide
    | exact absurd rfl h

/-- Two saturation flags set one after the other. -/
theorem Flag.ofOvf_or (a b : Bool) (x : BitVec 32) : x ||| Flag.ofOvf a ||| Flag.ofOvf b = x ||| Flag.ofOvf (a || b) := by
  cases a <;> cases b <;> simp [Flag.ofOvf, BitVec.or_assoc]

/-- A Sample that went out as a beat comes in as it was (R51). -/
@[simp] theorem beatS16_sampleWord (x : Sample) : beatS16 (sampleWord x) = x := by
  unfold beatS16 sampleWord
  ext j hj
  rw [BitVec.getElem_setWidth, BitVec.getLsbD_signExtend]
  simp [hj, show j < 32 by omega]

/-! ## A chunk (R18, R65, R66) -/

variable {σ : Type} (step : σ → Sample → Option (StepOut σ))

@[simp] theorem process_nil (st : σ) : process step st [] = some ⟨[], false, st⟩ := rfl

theorem process_cons (st : σ) (x : Sample) (xs : List Sample) :
    process step st (x :: xs) =
      (step st x).bind fun o => (process step o.st xs).map fun r => ⟨o.out :: r.ys, o.ovf || r.ovf, r.st⟩ := by
  rw [process]
  cases step st x with
  | none => rfl
  | some o =>
    simp only [Option.bind_some]
    cases process step o.st xs <;> rfl

/-- A chunk that is run in two parts gives what it gives in one (R65). -/
theorem process_append (st : σ) (u v : List Sample) :
    process step st (u ++ v) =
      (process step st u).bind fun r =>
        (process step r.st v).map fun t => ⟨r.ys ++ t.ys, r.ovf || t.ovf, t.st⟩ := by
  induction u generalizing st with
  | nil =>
    simp only [List.nil_append, process_nil, Option.bind_some]
    cases process step st v <;> rfl
  | cons x u ih =>
    simp only [List.cons_append, process_cons, ih]
    cases step st x with
    | none => rfl
    | some o =>
      simp only [Option.bind_some]
      cases process step o.st u with
      | none => rfl
      | some r =>
        simp only [Option.bind_some, Option.map_some]
        cases process step r.st v with
        | none => rfl
        | some t => simp [Bool.or_assoc]

/-- As many outputs as inputs (R50). -/
theorem process_length {st : σ} {xs : List Sample} {r : Run σ} (h : process step st xs = some r) :
    r.ys.length = xs.length := by
  induction xs generalizing st r with
  | nil => cases h; rfl
  | cons x xs ih =>
    rw [process_cons] at h
    obtain ⟨o, -, h⟩ := Option.bind_eq_some_iff.1 h
    obtain ⟨t, ht, rfl⟩ := Option.map_eq_some_iff.1 h
    simp [ih ht]

/-- What a step keeps, a chunk keeps. -/
theorem process_keeps {P : σ → Prop} (hstep : ∀ st x o, P st → step st x = some o → P o.st)
    {st : σ} {xs : List Sample} {r : Run σ} (h0 : P st) (h : process step st xs = some r) : P r.st := by
  induction xs generalizing st r with
  | nil => cases h; exact h0
  | cons x xs ih =>
    rw [process_cons] at h
    obtain ⟨o, ho, h⟩ := Option.bind_eq_some_iff.1 h
    obtain ⟨t, ht, rfl⟩ := Option.map_eq_some_iff.1 h
    exact ih (r := t) (hstep _ _ _ h0 ho) ht

end Sys2Proof.Machine
end

