-- ==== Sys2Proof/Laws/Exec.lean ====
section
/-! SUPPORT. Everything a command can do, said once (`exec_ends`): a claim over all commands is a case analysis over the eight
ways a command ends, not over the thirty commands. -/

namespace Sys2Proof.Machine

/-- The state once a command has read its words and beats. -/
def State.taken (s : State) (i : Instr) : State := s.consume i.numWords i.beats

/-- The ways a command ends whose beats are there. -/
inductive Ends (i : Instr) (s : State) : State → Prop where
  /-- Turned away with one of the codes of R212. -/
  | refused (code : Code) (h1 : code ≠ .ok) (h2 : code ≠ .illegal) (h3 : code ≠ .numNonfinite) :
      Ends i s (refuse i.op i.ctx code (s.taken i))
  /-- `NUM_NONFINITE` (R219). -/
  | nonfinite (k : Context) (hn : i.op.namesCtx = true) (hc : i.creates = false) (hr : i.ctx.toNat < s.par.nctx)
      (hk : Bank.get s.ctx i.ctx.toNat = some k) : Ends i s (refuseNonfinite i.op i.ctx (s.taken i))
  /-- A designer or a read. -/
  | answered (payload : List Word) (hc : i.creates = false) (hb : i.beats = 0) :
      Ends i s (accept i.op i.ctx payload (s.taken i))
  /-- A codec buffer. -/
  | coded (out : List Word) (hn : i.op.namesCtx = false) (hc : i.creates = false) (ho : out.length = i.beats) :
      Ends i s (accept i.op i.ctx [] ((s.taken i).emit out))
  /-- A creation. -/
  | created (k : Context) (hn : i.op.namesCtx = true) (hc : i.creates = true) (hb : i.beats = 0)
      (hr : i.ctx.toNat < s.par.nctx) (hk : k.ok s.par.nmax = true) :
      Ends i s (accept i.op i.ctx [] ((s.taken i).putCtx i.ctx.toNat k))
  /-- A chunk that was filtered. -/
  | processed (k k' : Context) (out : List Word) (ovf : Bool) (hn : i.op.namesCtx = true) (hc : i.creates = false)
      (hr : i.ctx.toNat < s.par.nctx) (hk : Bank.get s.ctx i.ctx.toNat = some k) (hcoef : k'.coefPart = k.coefPart)
      (hok : k.ok s.par.nmax = true → k'.ok s.par.nmax = true) (ho : out.length = i.beats) :
      Ends i s (accept i.op i.ctx [] ((((s.taken i).putCtx i.ctx.toNat k').emit out).flag (Flag.ofOvf ovf)))
  /-- A state image that was loaded. -/
  | loaded (k k' : Context) (hn : i.op.namesCtx = true) (hc : i.creates = false) (hb : i.beats = 0)
      (hr : i.ctx.toNat < s.par.nctx) (hk : Bank.get s.ctx i.ctx.toNat = some k) (hcoef : k'.coefPart = k.coefPart)
      (hok : k.ok s.par.nmax = true → k'.ok s.par.nmax = true) :
      Ends i s (accept i.op i.ctx [] ((s.taken i).putCtx i.ctx.toNat k'))
  /-- `RELEASE`. -/
  | released (k : Context) (hi : i.op = .release) (hb : i.beats = 0) (hr : i.ctx.toNat < s.par.nctx)
      (hk : Bank.get s.ctx i.ctx.toNat = some k) :
      Ends i s (accept i.op i.ctx [] ((s.taken i).dropCtx i.ctx.toNat))

/-! ## What a recurrence leaves of a context -/

/-- The step of a recurrence whose new registers are finite keeps the registers a context may hold. -/
theorem hpStep_finite {alpha : Num} {st : HpState} {x : Sample} {o : StepOut HpState} (h : hpStep alpha st x = some o) :
    F64.finite o.st.prevOut = true := by
  simp only [hpStep] at h
  split at h
  · cases h; assumption
  · cases h

theorem lpStep_finite {alpha st : Num} {x : Sample} {o : StepOut Num} (h : lpStep alpha st x = some o) :
    F64.finite o.st = true := by
  simp only [lpStep] at h
  split at h
  · cases h; assumption
  · cases h

theorem bqStep_finite {co : BqCoef} {st : BqState} {x : Sample} {o : StepOut BqState} (h : bqStep co st x = some o) :
    F64.finite o.st.y1 = true ∧ o.st.y2 = st.y1 := by
  simp only [bqStep] at h
  split at h
  · cases h; exact ⟨‹_›, rfl⟩
  · cases h

theorem firStep_size {n : Nat} {cs : List Num} {st : FirState} {x : Sample} {o : StepOut FirState}
    (h : firStep n cs st x = some o) : o.st.hist.length = st.hist.length ∧ o.st.wp = (st.wp + 1) % n := by
  simp only [firStep] at h
  split at h
  · cases h; simp [outputs, histWrite]
  · cases h

theorem hpProcess_finite {alpha : Num} {st : HpState} {xs : List Sample} {r : Run HpState}
    (h0 : F64.finite st.prevOut = true) (h : hpProcess alpha st xs = some r) : F64.finite r.st.prevOut = true :=
  process_keeps (P := fun st : HpState => F64.finite st.prevOut = true) _ (fun _ _ _ _ h => hpStep_finite h) h0 h

theorem lpProcess_finite {alpha st : Num} {xs : List Sample} {r : Run Num}
    (h0 : F64.finite st = true) (h : lpProcess alpha st xs = some r) : F64.finite r.st = true :=
  process_keeps (P := fun st : Num => F64.finite st = true) _ (fun _ _ _ _ h => lpStep_finite h) h0 h

theorem bqProcess_finite {co : BqCoef} {st : BqState} {xs : List Sample} {r : Run BqState}
    (h0 : F64.finite st.y1 = true ∧ F64.finite st.y2 = true) (h : bqProcess co st xs = some r) :
    F64.finite r.st.y1 = true ∧ F64.finite r.st.y2 = true :=
  process_keeps (P := fun st : BqState => F64.finite st.y1 = true ∧ F64.finite st.y2 = true) _
    (fun _ _ _ h0 h => ⟨(bqStep_finite h).1, (bqStep_finite h).2 ▸ h0.1⟩) h0 h

theorem firProcess_size {n : Nat} {cs : List Num} {st : FirState} {xs : List Sample} {r : Run FirState}
    (h0 : st.hist.length = n ∧ st.wp < n) (h : firProcess n cs st xs = some r) : r.st.hist.length = n ∧ r.st.wp < n :=
  process_keeps (P := fun st : FirState => st.hist.length = n ∧ st.wp < n) _
    (fun _ _ _ h0 h => ⟨(firStep_size h).1.trans h0.1, (firStep_size h).2 ▸ Nat.mod_lt _ (by omega)⟩) h0 h

/-- A band-pass chunk as its two stages. -/
theorem bpProcess_stages {co : BpCoef} {st : BpState} {xs : List Sample} {r : Run BpState} (h : bpProcess co st xs = some r) :
    ∃ u v, hpProcess co.alphaHP ⟨st.prevInHP, st.prevOutHP⟩ xs = some u ∧ lpProcess co.alphaLP st.prevOutLP u.ys = some v ∧
      r = ⟨v.ys, u.ovf || v.ovf, ⟨u.st.prevIn, u.st.prevOut, v.st⟩⟩ := by
  unfold bpProcess at h
  split at h
  · cases h
  · split at h
    · cases h
    · cases h; exact ⟨_, _, ‹_›, ‹_›, rfl⟩

/-- A chunk that was run: as many outputs as inputs, the coefficients as they were, registers a context may hold (R29, R38, R50,
R219). -/
theorem runOfKind_done {kd : Kind} {k k' : Context} {xs ys : List Sample} {ovf : Bool}
    (h : runOfKind kd k xs = .done k' ys ovf) :
    k.kind = kd ∧ ys.length = xs.length ∧ k'.coefPart = k.coefPart ∧ ∀ nmax, k.ok nmax = true → k'.ok nmax = true := by
  cases kd <;> cases k <;> simp [runOfKind, runHp, runLp, runBp, runBq, runFir, ofRun] at h <;> split at h <;>
    (first | (cases h; done) | skip)
  all_goals rename_i r hr
  all_goals cases h
  · refine ⟨rfl, process_length _ hr, rfl, fun nmax hk => ?_⟩
    simp only [Context.ok, Bool.and_eq_true] at hk ⊢
    exact ⟨hk.1, hpProcess_finite hk.2 hr⟩
  · refine ⟨rfl, process_length _ hr, rfl, fun nmax hk => ?_⟩
    simp only [Context.ok, Bool.and_eq_true] at hk ⊢
    exact ⟨hk.1, lpProcess_finite hk.2 hr⟩
  · obtain ⟨u, v, hu, hv, rfl⟩ := bpProcess_stages hr
    refine ⟨rfl, (process_length _ hv).trans (process_length _ hu), rfl, fun nmax hk => ?_⟩
    simp only [Context.ok, Bool.and_eq_true] at hk ⊢
    exact ⟨⟨hk.1.1, hpProcess_finite hk.1.2 hu⟩, lpProcess_finite hk.2 hv⟩
  · refine ⟨rfl, process_length _ hr, rfl, fun nmax hk => ?_⟩
    simp only [Context.ok, Bool.and_eq_true] at hk ⊢
    have := bqProcess_finite ⟨hk.1.2, hk.2⟩ hr
    exact ⟨⟨hk.1.1, this.1⟩, this.2⟩
  · refine ⟨rfl, process_length _ hr, rfl, fun nmax hk => ?_⟩
    simp only [Context.ok, Bool.and_eq_true, decide_eq_true_eq] at hk ⊢
    have := firProcess_size ⟨hk.1.2, hk.2⟩ hr
    exact ⟨⟨hk.1.1, this.1⟩, this.2⟩

/-! ## What a state image leaves of a context -/

theorem parseNum_finite {lo hi : Word} {v : Num} (h : parseNum lo hi = some v) : v = f64 lo hi ∧ F64.finite v = true := by
  unfold parseNum at h
  split at h
  · cases h; exact ⟨rfl, ‹_›⟩
  · cases h

theorem parseSamples_length {ws : List Word} {xs : List Sample} (h : parseSamples ws = some xs) : xs.length = ws.length := by
  induction ws generalizing xs with
  | nil => cases h; rfl
  | cons w ws ih =>
    unfold parseSamples at h
    split at h
    · cases h; simp [ih ‹_›]
    · cases h

/-- An image that was accepted leaves the coefficients as they were, and registers a context may hold (R192). -/
theorem parseState_some {k k' : Context} {ws : List Word} (h : parseState k ws = some k') :
    k'.coefPart = k.coefPart ∧ ∀ nmax, k.ok nmax = true → k'.ok nmax = true := by
  unfold parseState at h
  split at h
  · split at h <;> cases h
    rename_i hs hn
    refine ⟨rfl, fun nmax hk => ?_⟩
    simp only [Context.ok, Bool.and_eq_true] at hk ⊢
    exact ⟨hk.1, (parseNum_finite hn).2⟩
  · split at h <;> cases h
    rename_i hn
    refine ⟨rfl, fun nmax hk => ?_⟩
    simp only [Context.ok, Bool.and_eq_true] at hk ⊢
    exact ⟨hk.1, (parseNum_finite hn).2⟩
  · split at h <;> cases h
    rename_i hs hn hn'
    refine ⟨rfl, fun nmax hk => ?_⟩
    simp only [Context.ok, Bool.and_eq_true] at hk ⊢
    exact ⟨⟨hk.1.1, (parseNum_finite hn).2⟩, (parseNum_finite hn').2⟩
  · split at h <;> cases h
    rename_i hs hs' hn hn'
    refine ⟨rfl, fun nmax hk => ?_⟩
    simp only [Context.ok, Bool.and_eq_true] at hk ⊢
    exact ⟨⟨hk.1.1, (parseNum_finite hn).2⟩, (parseNum_finite hn').2⟩
  · split at h
    · rename_i hl
      split at h <;> cases h
      rename_i hp
      refine ⟨rfl, fun nmax hk => ?_⟩
      simp only [Context.ok, Bool.and_eq_true, decide_eq_true_eq] at hk ⊢
      exact ⟨⟨hk.1.1, (parseSamples_length hp).trans hl.1⟩, hl.2⟩
    · cases h
  · cases h

/-! ## What a creation leaves of a context -/

theorem designAlpha_finite {f : Num → Num → Num} {fc fs a : Num} (h : designAlpha f fc fs = some a) : F64.finite a = true := by
  unfold designAlpha at h
  split at h
  · cases h; simp_all
  · cases h

theorem givenNum_finite {v a : Num} (h : givenNum v = some a) : F64.finite a = true := by
  unfold givenNum at h
  split at h
  · cases h; assumption
  · cases h

theorem designBp_finite {low high fs : Num} {co : BpCoef} (h : designBp low high fs = some co) :
    F64.finite co.alphaHP = true ∧ F64.finite co.alphaLP = true := by
  unfold designBp at h
  split at h
  · cases h; exact ⟨designAlpha_finite ‹_›, designAlpha_finite ‹_›⟩
  · cases h

theorem givenBp_finite {aH aL : Num} {co : BpCoef} (h : givenBp aH aL = some co) :
    F64.finite co.alphaHP = true ∧ F64.finite co.alphaLP = true := by
  unfold givenBp at h
  split at h
  · cases h; simp_all
  · cases h

theorem designBq_finite {d : Num → Num → Num → BqCoef} {f fs q : Num} {co : BqCoef} (h : designBq d f fs q = some co) :
    co.allFinite = true := by
  unfold designBq at h
  split at h
  · cases h; simp_all
  · cases h

theorem givenBq_finite {co co' : BqCoef} (h : givenBq co = some co') : co'.allFinite = true := by
  unfold givenBq at h
  split at h
  · cases h; assumption
  · cases h

theorem designFir_ok {nmax : Nat} {fc fs : Num} {n : Nat} {cs : List Num} (h : designFir nmax fc fs n = some cs) :
    validTaps nmax n = true ∧ cs.length = n ∧ cs.all F64.finite = true := by
  simp only [designFir] at h
  split at h
  · rename_i hv
    cases h
    simp only [validFir, Bool.and_eq_true] at hv
    exact ⟨hv.1.1.1.2, by simp [firDesign, firRaw], hv.2⟩
  · cases h

theorem givenFir_ok {nmax : Nat} {cs cs' : List Num} (h : givenFir nmax cs = some cs') :
    validTaps nmax cs'.length = true ∧ cs'.all F64.finite = true := by
  unfold givenFir at h
  split at h
  · cases h; simp_all
  · cases h

theorem newFir_ok {nmax : Nat} {cs : List Num} (h : validTaps nmax cs.length = true) (hf : cs.all F64.finite = true) :
    (newFir cs).ok nmax = true := by
  have h1 : cs.length % 2 = 1 := by
    simp only [validTaps, Bool.and_eq_true, decide_eq_true_eq] at h
    exact h.1
  simp only [newFir, Context.ok, Bool.and_eq_true, decide_eq_true_eq, List.length_replicate]
  exact ⟨⟨⟨⟨h, trivial⟩, hf⟩, trivial⟩, by omega⟩

/-! ## The eight ways a command ends -/

theorem design_ends {i : Instr} {s : State} {p : Option (List Word)} (hx : i.ctx = 0#8) (hc : i.creates = false)
    (hb : i.beats = 0) : Ends i s (design i.op p (s.taken i)) := by
  rcases design_cases i.op p (s.taken i) with ⟨ws, -, e⟩ | ⟨-, e⟩ <;> rw [e, ← hx]
  · exact .answered ws hc hb
  · exact .refused _ nofun nofun nofun

theorem create_ends {i : Instr} {s : State} {k : Option Context} (hn : i.op.namesCtx = true) (hc : i.creates = true)
    (hb : i.beats = 0) (hk : ∀ x, k = some x → x.ok s.par.nmax = true) :
    Ends i s (create i.op i.ctx k (s.taken i)) := by
  rcases create_cases i.op i.ctx k (s.taken i) with ⟨x, hr, hx, e⟩ | ⟨-, e⟩ | ⟨-, -, e⟩ <;> rw [e]
  · exact .created x hn hc hb hr (hk x hx)
  · exact .refused _ nofun nofun nofun
  · exact .refused _ nofun nofun nofun

theorem proc_ends {i : Instr} {s : State} {len : Word} {kd : Kind} (hn : i.op.namesCtx = true) (hc : i.creates = false)
    (hw : i.numWords = 2) (hl : i.beats = len.toNat) (hb : i.beats ≤ s.din.length) :
    Ends i s (procCommand i.op i.ctx len (runOfKind kd) s) := by
  have ht : s.taken i = s.consume 2 len.toNat := by rw [State.taken, hw, hl]
  rcases procCommand_cases i.op i.ctx len (runOfKind kd) s with ⟨h, -⟩ | ⟨-, b, rfl, h⟩
  · omega
  · rw [← ht] at h
    rcases h with ⟨-, e⟩ | ⟨-, -, e⟩ | ⟨k, hr, hk, e⟩ <;> rw [e]
    · exact .refused _ nofun nofun nofun
    · exact .refused _ nofun nofun nofun
    · cases hrun : runOfKind kd k ((s.din.take len.toNat).map beatS16) with
      | mismatch => exact .refused _ nofun nofun nofun
      | nonfinite => exact .nonfinite k hn hc hr hk
      | done k' ys ovf =>
        obtain ⟨-, hy, hcoef, hok⟩ := runOfKind_done hrun
        refine .processed k k' (ys.map sampleWord) ovf hn hc hr hk hcoef (hok _) ?_
        rw [List.length_map, hy, List.length_map, List.length_take]
        omega

theorem read_ends {i : Instr} {s : State} {f : Context → List Word} (hc : i.creates = false) (hb : i.beats = 0) :
    Ends i s (withContext i.op i.ctx (s.taken i) fun k => accept i.op i.ctx (f k) (s.taken i)) := by
  rcases withContext_cases i.op i.ctx (s.taken i) (fun k => accept i.op i.ctx (f k) (s.taken i))
    with ⟨k, -, -, e⟩ | ⟨-, e⟩ | ⟨-, -, e⟩ <;> rw [e]
  · exact .answered _ hc hb
  · exact .refused _ nofun nofun nofun
  · exact .refused _ nofun nofun nofun

theorem stateWr_ends (c : Byte) (ws : List Word) (s : State) :
    Ends (.stateWr c ws) s (withContext .stateWr c (s.taken (.stateWr c ws)) fun k =>
      match parseState k ws with
      | some k' => accept .stateWr c [] ((s.taken (.stateWr c ws)).putCtx c.toNat k')
      | none => refuse .stateWr c .stateInvalid (s.taken (.stateWr c ws))) := by
  rcases withContext_cases .stateWr c (s.taken (.stateWr c ws)) (fun k =>
      match parseState k ws with
      | some k' => accept .stateWr c [] ((s.taken (.stateWr c ws)).putCtx c.toNat k')
      | none => refuse .stateWr c .stateInvalid (s.taken (.stateWr c ws))) with ⟨k, hr, hk, e⟩ | ⟨-, e⟩ | ⟨-, -, e⟩ <;> rw [e]
  · cases hp : parseState k ws with
    | none => exact .refused (i := .stateWr c ws) _ nofun nofun nofun
    | some k' =>
      obtain ⟨hcoef, hok⟩ := parseState_some hp
      exact .loaded (i := .stateWr c ws) k k' rfl rfl rfl hr hk hcoef (hok _)
  · exact .refused (i := .stateWr c ws) _ nofun nofun nofun
  · exact .refused (i := .stateWr c ws) _ nofun nofun nofun

theorem release_ends (c : Byte) (s : State) :
    Ends (.release c) s (withContext .release c (s.taken (.release c)) fun _ =>
      accept .release c [] ((s.taken (.release c)).dropCtx c.toNat)) := by
  rcases withContext_cases .release c (s.taken (.release c)) (fun _ =>
      accept .release c [] ((s.taken (.release c)).dropCtx c.toNat)) with ⟨k, hr, hk, e⟩ | ⟨-, e⟩ | ⟨-, -, e⟩ <;> rw [e]
  · exact .released (i := .release c) k rfl rfl hr hk
  · exact .refused (i := .release c) _ nofun nofun nofun
  · exact .refused (i := .release c) _ nofun nofun nofun

theorem codec_ends {i : Instr} {s : State} {len : Word} {f : Word → Word} (hn : i.op.namesCtx = false) (hx : i.ctx = 0#8)
    (hc : i.creates = false) (hw : i.numWords = 2) (hl : i.beats = len.toNat) (hb : i.beats ≤ s.din.length) :
    Ends i s (codecBuffer i.op len f s) := by
  have ht : s.taken i = s.consume 2 len.toNat := by rw [State.taken, hw, hl]
  rcases buffered_cases len s (fun beats s' => accept i.op 0#8 [] (s'.emit (beats.map f))) with ⟨h, -⟩ | ⟨-, e⟩
  · omega
  · rw [codecBuffer, e, ← ht, ← hx]
    refine .coded _ hn hc ?_
    rw [List.length_map, List.length_take]
    omega

/-- Everything a command can do once its beats are there. -/
theorem exec_ends {i : Instr} {s t : State} (h : exec i s = .next t) (hb : i.beats ≤ s.din.length) : Ends i s t := by
  cases i <;> cases h
  case ulawDec b => exact .answered (i := .ulawDec b) _ rfl rfl
  case ulawEnc x => exact .answered (i := .ulawEnc x) _ rfl rfl
  case ulawDecb len => exact codec_ends (i := .ulawDecb len) rfl rfl rfl rfl rfl hb
  case ulawEncb len => exact codec_ends (i := .ulawEncb len) rfl rfl rfl rfl rfl hb
  case alphaHp fc fs => exact design_ends (i := .alphaHp fc fs) rfl rfl rfl
  case alphaLp fc fs => exact design_ends (i := .alphaLp fc fs) rfl rfl rfl
  case bqdBp f fs q => exact design_ends (i := .bqdBp f fs q) rfl rfl rfl
  case bqdHp f fs q => exact design_ends (i := .bqdHp f fs q) rfl rfl rfl
  case firdLp n fc fs => exact design_ends (i := .firdLp n fc fs) rfl rfl rfl
  case createHp c fc fs =>
    refine create_ends (i := .createHp c fc fs) rfl rfl rfl fun x hx => ?_
    obtain ⟨a, ha, rfl⟩ := Option.map_eq_some_iff.1 hx
    simp [newHp, Context.ok, designAlpha_finite ha, F64.zero]; decide
  case createLp c fc fs =>
    refine create_ends (i := .createLp c fc fs) rfl rfl rfl fun x hx => ?_
    obtain ⟨a, ha, rfl⟩ := Option.map_eq_some_iff.1 hx
    simp [newLp, Context.ok, designAlpha_finite ha, F64.zero]; decide
  case createBp c low high fs =>
    refine create_ends (i := .createBp c low high fs) rfl rfl rfl fun x hx => ?_
    obtain ⟨a, ha, rfl⟩ := Option.map_eq_some_iff.1 hx
    simp [newBp, Context.ok, designBp_finite ha, F64.zero]; decide
  case createBqbp c f fs q =>
    refine create_ends (i := .createBqbp c f fs q) rfl rfl rfl fun x hx => ?_
    obtain ⟨a, ha, rfl⟩ := Option.map_eq_some_iff.1 hx
    simp [newBq, Context.ok, designBq_finite ha, F64.zero]; decide
  case createBqhp c f fs q =>
    refine create_ends (i := .createBqhp c f fs q) rfl rfl rfl fun x hx => ?_
    obtain ⟨a, ha, rfl⟩ := Option.map_eq_some_iff.1 hx
    simp [newBq, Context.ok, designBq_finite ha, F64.zero]; decide
  case createFir c n fc fs =>
    refine create_ends (i := .createFir c n fc fs) rfl rfl rfl fun x hx => ?_
    obtain ⟨a, ha, rfl⟩ := Option.map_eq_some_iff.1 hx
    obtain ⟨h1, h2, h3⟩ := designFir_ok ha
    exact newFir_ok (h2.symm ▸ h1) h3
  case createcHp c a =>
    refine create_ends (i := .createcHp c a) rfl rfl rfl fun x hx => ?_
    obtain ⟨a, ha, rfl⟩ := Option.map_eq_some_iff.1 hx
    simp [newHp, Context.ok, givenNum_finite ha, F64.zero]; decide
  case createcLp c a =>
    refine create_ends (i := .createcLp c a) rfl rfl rfl fun x hx => ?_
    obtain ⟨a, ha, rfl⟩ := Option.map_eq_some_iff.1 hx
    simp [newLp, Context.ok, givenNum_finite ha, F64.zero]; decide
  case createcBp c aH aL =>
    refine create_ends (i := .createcBp c aH aL) rfl rfl rfl fun x hx => ?_
    obtain ⟨a, ha, rfl⟩ := Option.map_eq_some_iff.1 hx
    simp [newBp, Context.ok, givenBp_finite ha, F64.zero]; decide
  case createcBq c a0 a1 a2 b1 b2 =>
    refine create_ends (i := .createcBq c a0 a1 a2 b1 b2) rfl rfl rfl fun x hx => ?_
    obtain ⟨a, ha, rfl⟩ := Option.map_eq_some_iff.1 hx
    simp [newBq, Context.ok, givenBq_finite ha, F64.zero]; decide
  case createcFir c cs =>
    refine create_ends (i := .createcFir c cs) rfl rfl rfl fun x hx => ?_
    obtain ⟨a, ha, rfl⟩ := Option.map_eq_some_iff.1 hx
    exact newFir_ok (givenFir_ok ha).1 (givenFir_ok ha).2
  case procHp c len => exact proc_ends (i := .procHp c len) (kd := .hp) rfl rfl rfl rfl hb
  case procLp c len => exact proc_ends (i := .procLp c len) (kd := .lp) rfl rfl rfl rfl hb
  case procBp c len => exact proc_ends (i := .procBp c len) (kd := .bp) rfl rfl rfl rfl hb
  case procBq c len => exact proc_ends (i := .procBq c len) (kd := .bq) rfl rfl rfl rfl hb
  case procFir c len => exact proc_ends (i := .procFir c len) (kd := .fir) rfl rfl rfl rfl hb
  case stateRd c => exact read_ends (i := .stateRd c) rfl rfl
  case stateWr c ws => exact stateWr_ends c ws s
  case coefRd c => exact read_ends (i := .coefRd c) rfl rfl
  case release c => exact release_ends c s
  case statusRd => exact .answered (i := .statusRd) _ rfl rfl

/-- A command one of whose beats is missing changes nothing (R248). -/
theorem exec_waits {i : Instr} {s : State} (h : s.din.length < i.beats) : exec i s = .next s := by
  have go : ∀ (len : Word) (f : List Word → State → State), s.din.length < len.toNat → buffered len s f = s := by
    intro len f hl
    rw [buffered, if_pos hl]
  cases i <;> first
    | exact absurd h (Nat.not_lt_zero _)
    | exact congrArg Host.Outcome.next (go _ _ h)

/-! ## The step -/

/-- Everything a step can do: nothing, the refusal with `ILLEGAL`, or a whole command. -/
theorem step_cases {s t : State} (h : step s = .next t) :
    t = s ∨
    (s.halt = false ∧ ∃ h0 why, decode s.cmd = .illegal h0 why ∧ t = refuseIllegal h0 s) ∨
    (s.halt = false ∧ ∃ i, decode s.cmd = .instr i ∧ i.beats ≤ s.din.length ∧ exec i s = .next t ∧ Ends i s t) := by
  unfold step at h
  split at h
  · cases h; exact .inl rfl
  · rename_i hh
    have hh : s.halt = false := by simpa using hh
    split at h
    · rename_i i hd
      by_cases hb : i.beats ≤ s.din.length
      · exact .inr (.inr ⟨hh, i, hd, hb, h, exec_ends h hb⟩)
      · rw [exec_waits (by omega)] at h
        cases h; exact .inl rfl
    · rename_i h0 why hd
      cases h; exact .inr (.inl ⟨hh, h0, why, hd, rfl⟩)
    · cases h; exact .inl rfl

/-- A command only sets flags (R31). -/
theorem Ends.status {i : Instr} {s t : State} (h : Ends i s t) : ∃ f, t.status = s.status ||| f := by
  cases h with
  | refused code => exact ⟨code.flag, rfl⟩
  | nonfinite => exact ⟨Flag.numerr, rfl⟩
  | processed _ _ _ ovf => exact ⟨Flag.ofOvf ovf, rfl⟩
  | _ => exact ⟨0#32, (BitVec.or_zero).symm⟩

/-- A command leaves `HALT` and the parameters alone (R32). -/
theorem Ends.halt {i : Instr} {s t : State} (h : Ends i s t) : t.halt = s.halt := by cases h <;> rfl

theorem Ends.par {i : Instr} {s t : State} (h : Ends i s t) : t.par = s.par := by cases h <;> rfl

/-! ## The `PROC` command of a kind -/

/-- The five `PROC` commands are one operation over the recurrence of their kind. -/
theorem exec_processCommand (kd : Kind) (c : Byte) (len : Word) (s : State) :
    exec (processCommand kd c len) s =
      .next (procCommand (processCommand kd c len).op c len (runOfKind kd) s) := by
  cases kd <;> rfl

/-- The same with its context ACTIVE and its beats there. -/
theorem exec_processCommand_active {kd : Kind} {c : Byte} {len : Word} {s : State} {k : Context}
    (hr : c.toNat < s.par.nctx) (hk : Bank.get s.ctx c.toNat = some k) (hl : len.toNat ≤ s.din.length) :
    exec (processCommand kd c len) s =
      .next (finishProc (processCommand kd c len).op c (runOfKind kd k ((s.din.take len.toNat).map beatS16))
        (s.consume 2 len.toNat)) := by
  rw [exec_processCommand, procCommand, buffered, if_neg (by omega)]
  simp only [withContext, inRange, State.consume_par, State.consume_ctx, hr, hk, if_true]

/-! ## State images -/

theorem parseSample_sampleWord (x : Sample) : parseSample (sampleWord x) = some x := by
  simp [parseSample]

theorem parseSamples_map (xs : List Sample) : parseSamples (xs.map sampleWord) = some xs := by
  induction xs with
  | nil => rfl
  | cons x xs ih => simp [parseSamples, parseSample_sampleWord, ih]

theorem parseNum_words {v : Num} (h : F64.finite v = true) : parseNum (v.extractLsb' 0 32) (v.extractLsb' 32 32) = some v := by
  simp [parseNum, h]

/-- The image of a context, read as the image of a context with the same coefficients, gives that context back (R192). -/
theorem parseState_stateImage {k k' : Context} {nmax : Nat} (hn : nmax ≤ 65535) (h : k'.coefPart = k.coefPart)
    (hok : k'.ok nmax = true) : parseState k (stateImage k') = some k' := by
  cases k' <;> cases k <;> simp only [Context.coefPart, Prod.mk.injEq, List.cons.injEq, reduceCtorEq, false_and, and_true,
    true_and] at h <;> simp only [Context.ok, Bool.and_eq_true, decide_eq_true_eq] at hok
  · simp [stateImage, f64Words, parseState, parseSample_sampleWord, parseNum_words hok.2, h]
  · simp [stateImage, f64Words, parseState, parseNum_words hok.2, h]
  · rename_i a _ b _
    cases a; cases b
    simp_all [stateImage, f64Words, parseState, parseSample_sampleWord, parseNum_words hok.2, parseNum_words hok.1.2]
  · rename_i a _ b _
    cases a; cases b
    simp_all [stateImage, f64Words, parseState, parseSample_sampleWord, parseNum_words hok.2, parseNum_words hok.1.2]
  · obtain ⟨rfl, rfl⟩ := h
    rename_i n cs st _
    have h1 : n ≤ nmax := by
      have := hok.1.1.1.1
      simp only [validTaps, Bool.and_eq_true, decide_eq_true_eq] at this
      exact this.2
    have h2 : (BitVec.ofNat 32 st.wp).toNat = st.wp := by
      rw [BitVec.toNat_ofNat]
      exact Nat.mod_eq_of_lt (by omega)
    rw [stateImage, parseState, parseSamples_map, h2]
    simp [hok.1.2, hok.2]

end Sys2Proof.Machine
end

