-- ==== Sys2Proof/Laws/Numerics.lean ====
section
/-! SUPPORT. The small laws of binary64 values that the validity predicates rest on: a rounded value is no NaN, `<` is the denial of
`≤` on values that are no NaN, and each predicate is the denial of the causes R218 lists. -/

namespace Sys2Proof.F64

/-- The fields of a value that was put together. -/
theorem magBits_ofSignMag {neg : Bool} {m : Nat} (h : m < 2 ^ 63) : magBits (ofSignMag neg m) = m := by
  cases neg <;> simp [magBits, ofSignMag] <;> omega

/-- A rounded magnitude is at most the image of infinity. -/
theorem roundMag_le (n d : Nat) : roundMag n d ≤ 2047 * 2 ^ 52 := Nat.min_le_right _ _

/-- Rounding never gives a NaN. -/
@[simp] theorem isNaN_roundUnits (neg : Bool) (n d : Nat) : isNaN (roundUnits neg n d) = false := by
  have h := roundMag_le n d
  have hm : magBits (roundUnits neg n d) = roundMag n d := magBits_ofSignMag (by omega)
  simp only [isNaN, expField, fracField, hm, Bool.and_eq_false_iff, beq_eq_false_iff_ne, bne_eq_false_iff_eq]
  omega

/-- A finite value is no NaN. -/
theorem isNaN_of_finite {v : Num} (h : finite v = true) : isNaN v = false := by
  simp only [finite, bne_iff_ne] at h
  simp [isNaN, h]

/-- A finite value is no infinity. -/
theorem isInf_of_finite {v : Num} (h : finite v = true) : isInf v = false := by
  simp only [finite, bne_iff_ne] at h
  simp [isInf, h]

/-- Half a finite value is no NaN. -/
theorem isNaN_half {v : Num} (h : finite v = true) : isNaN (div v two) = false := by
  have h2 : isNaN two = false ∧ isInf two = false ∧ isZero two = false := by decide
  simp [div, isNaN_of_finite h, isInf_of_finite h, h2]

/-- On values that are no NaN, `<` is the denial of `≤` the other way round (R13). -/
theorem lt_eq_not_le {a b : Num} (ha : isNaN a = false) (hb : isNaN b = false) : lt a b = !le b a := by
  simp only [lt, le, ha, hb, Bool.not_false, Bool.true_and, ← decide_not, decide_eq_decide]
  omega

end Sys2Proof.F64

namespace Sys2Proof.Machine
open F64

/-- `valid_fc_fs` is the denial of the causes of R218 (a). -/
theorem validFcFs_eq (fc fs : Num) : validFcFs fc fs = !ratesRejected fc fs := by
  have hz : isNaN zero = false := by decide
  unfold validFcFs ratesRejected
  cases h1 : finite fc with
  | false => rfl
  | true =>
    cases h2 : finite fs with
    | false => rfl
    | true =>
      rw [lt_eq_not_le hz (isNaN_of_finite h2), lt_eq_not_le hz (isNaN_of_finite h1),
        lt_eq_not_le (isNaN_of_finite h1) (isNaN_half h2)]
      simp

/-- `valid_bq` is the denial of the causes of R218 (c). -/
theorem validBq_eq (f fs q : Num) : validBq f fs q = !(ratesRejected f fs || qRejected q) := by
  have hz : isNaN zero = false := by decide
  unfold validBq qRejected
  rw [validFcFs_eq]
  cases h : finite q with
  | false => simp
  | true =>
    rw [lt_eq_not_le hz (isNaN_of_finite h)]
    simp

/-- `valid_taps` is the denial of the causes R218 (d) adds. -/
theorem validTaps_eq (nmax n : Nat) : validTaps nmax n = !tapsRejected nmax n := by
  have h : (n % 2 = 1 ∧ n ≤ nmax) ↔ ¬(n % 2 = 0 ∨ n = 0 ∨ nmax < n) := by omega
  unfold validTaps tapsRejected
  rw [← Bool.decide_and, ← Bool.decide_or, ← Bool.decide_or, ← decide_not, decide_eq_decide, h, or_assoc]

end Sys2Proof.Machine
end

