-- ==== Sys2Proof/Laws/PerInstr.lean ====
section
/-! SUPPORT. What holds of every command as syntax, one lemma per constructor: the number of its words, and that its header is
one the decoder accepts. -/

namespace Sys2Proof.Laws.EncodeLength

/-- A command is encoded in `numWords` words (R76). -/
def Statement (i : Instr) : Prop := (encode i).length = i.numWords

theorem ulawDec (b : Byte) : Statement (.ulawDec b) := rfl
theorem ulawEnc (x : Word) : Statement (.ulawEnc x) := rfl
theorem ulawDecb (len : Word) : Statement (.ulawDecb len) := rfl
theorem ulawEncb (len : Word) : Statement (.ulawEncb len) := rfl
theorem alphaHp (fc : Num) (fs : Num) : Statement (.alphaHp fc fs) := rfl
theorem alphaLp (fc : Num) (fs : Num) : Statement (.alphaLp fc fs) := rfl
theorem bqdBp (f : Num) (fs : Num) (q : Num) : Statement (.bqdBp f fs q) := rfl
theorem bqdHp (f : Num) (fs : Num) (q : Num) : Statement (.bqdHp f fs q) := rfl
theorem firdLp (n : BitVec 16) (fc : Num) (fs : Num) : Statement (.firdLp n fc fs) := rfl
theorem createHp (c : Byte) (fc : Num) (fs : Num) : Statement (.createHp c fc fs) := rfl
theorem createLp (c : Byte) (fc : Num) (fs : Num) : Statement (.createLp c fc fs) := rfl
theorem createBp (c : Byte) (low : Num) (high : Num) (fs : Num) : Statement (.createBp c low high fs) := rfl
theorem createBqbp (c : Byte) (f : Num) (fs : Num) (q : Num) : Statement (.createBqbp c f fs q) := rfl
theorem createBqhp (c : Byte) (f : Num) (fs : Num) (q : Num) : Statement (.createBqhp c f fs q) := rfl
theorem createFir (c : Byte) (n : BitVec 16) (fc : Num) (fs : Num) : Statement (.createFir c n fc fs) := rfl
theorem createcHp (c : Byte) (alpha : Num) : Statement (.createcHp c alpha) := rfl
theorem createcLp (c : Byte) (alpha : Num) : Statement (.createcLp c alpha) := rfl
theorem createcBp (c : Byte) (aH : Num) (aL : Num) : Statement (.createcBp c aH aL) := rfl
theorem createcBq (c : Byte) (a0 : Num) (a1 : Num) (a2 : Num) (b1 : Num) (b2 : Num) : Statement (.createcBq c a0 a1 a2 b1 b2) := rfl
theorem createcFir (c : Byte) (cs : List Num) : Statement (.createcFir c cs) := by
  simp only [Statement, encode, Instr.operandWords, Instr.numWords, List.length_cons, flatMap_f64Words_length]
  omega
theorem procHp (c : Byte) (len : Word) : Statement (.procHp c len) := rfl
theorem procLp (c : Byte) (len : Word) : Statement (.procLp c len) := rfl
theorem procBp (c : Byte) (len : Word) : Statement (.procBp c len) := rfl
theorem procBq (c : Byte) (len : Word) : Statement (.procBq c len) := rfl
theorem procFir (c : Byte) (len : Word) : Statement (.procFir c len) := rfl
theorem stateRd (c : Byte) : Statement (.stateRd c) := rfl
theorem stateWr (c : Byte) (ws : List Word) : Statement (.stateWr c ws) := by
  simp only [Statement, encode, Instr.operandWords, Instr.numWords, List.length_cons]
  omega
theorem coefRd (c : Byte) : Statement (.coefRd c) := rfl
theorem release (c : Byte) : Statement (.release c) := rfl
theorem statusRd : Statement (.statusRd) := rfl

end Sys2Proof.Laws.EncodeLength

namespace Sys2Proof.Laws.HeaderAccepted

/-- The header of a command names it, and its must-be-zero fields are zero (R73, R80). -/
def Statement (i : Instr) : Prop := headerOp (mkHeader i.op i.ctx i.arg) = .ok i.op

theorem byte_arg_high (b : Byte) : (b.setWidth 16).extractLsb' 8 8 = 0#8 := by
  ext i hi
  simp

theorem ulawDec (b : Byte) : Statement (.ulawDec b) :=
  headerOp_mkHeader (.inr rfl) (.inr (.inl ⟨rfl, byte_arg_high b⟩))
theorem ulawEnc (x : Word) : Statement (.ulawEnc x) :=
  headerOp_mkHeader (.inr rfl) (.inr (.inr ⟨rfl, rfl⟩))
theorem ulawDecb (len : Word) : Statement (.ulawDecb len) :=
  headerOp_mkHeader (.inr rfl) (.inr (.inr ⟨rfl, rfl⟩))
theorem ulawEncb (len : Word) : Statement (.ulawEncb len) :=
  headerOp_mkHeader (.inr rfl) (.inr (.inr ⟨rfl, rfl⟩))
theorem alphaHp (fc : Num) (fs : Num) : Statement (.alphaHp fc fs) :=
  headerOp_mkHeader (.inr rfl) (.inr (.inr ⟨rfl, rfl⟩))
theorem alphaLp (fc : Num) (fs : Num) : Statement (.alphaLp fc fs) :=
  headerOp_mkHeader (.inr rfl) (.inr (.inr ⟨rfl, rfl⟩))
theorem bqdBp (f : Num) (fs : Num) (q : Num) : Statement (.bqdBp f fs q) :=
  headerOp_mkHeader (.inr rfl) (.inr (.inr ⟨rfl, rfl⟩))
theorem bqdHp (f : Num) (fs : Num) (q : Num) : Statement (.bqdHp f fs q) :=
  headerOp_mkHeader (.inr rfl) (.inr (.inr ⟨rfl, rfl⟩))
theorem firdLp (n : BitVec 16) (fc : Num) (fs : Num) : Statement (.firdLp n fc fs) :=
  headerOp_mkHeader (.inr rfl) (.inl rfl)
theorem createHp (c : Byte) (fc : Num) (fs : Num) : Statement (.createHp c fc fs) :=
  headerOp_mkHeader (.inl rfl) (.inr (.inr ⟨rfl, rfl⟩))
theorem createLp (c : Byte) (fc : Num) (fs : Num) : Statement (.createLp c fc fs) :=
  headerOp_mkHeader (.inl rfl) (.inr (.inr ⟨rfl, rfl⟩))
theorem createBp (c : Byte) (low : Num) (high : Num) (fs : Num) : Statement (.createBp c low high fs) :=
  headerOp_mkHeader (.inl rfl) (.inr (.inr ⟨rfl, rfl⟩))
theorem createBqbp (c : Byte) (f : Num) (fs : Num) (q : Num) : Statement (.createBqbp c f fs q) :=
  headerOp_mkHeader (.inl rfl) (.inr (.inr ⟨rfl, rfl⟩))
theorem createBqhp (c : Byte) (f : Num) (fs : Num) (q : Num) : Statement (.createBqhp c f fs q) :=
  headerOp_mkHeader (.inl rfl) (.inr (.inr ⟨rfl, rfl⟩))
theorem createFir (c : Byte) (n : BitVec 16) (fc : Num) (fs : Num) : Statement (.createFir c n fc fs) :=
  headerOp_mkHeader (.inl rfl) (.inl rfl)
theorem createcHp (c : Byte) (alpha : Num) : Statement (.createcHp c alpha) :=
  headerOp_mkHeader (.inl rfl) (.inr (.inr ⟨rfl, rfl⟩))
theorem createcLp (c : Byte) (alpha : Num) : Statement (.createcLp c alpha) :=
  headerOp_mkHeader (.inl rfl) (.inr (.inr ⟨rfl, rfl⟩))
theorem createcBp (c : Byte) (aH : Num) (aL : Num) : Statement (.createcBp c aH aL) :=
  headerOp_mkHeader (.inl rfl) (.inr (.inr ⟨rfl, rfl⟩))
theorem createcBq (c : Byte) (a0 : Num) (a1 : Num) (a2 : Num) (b1 : Num) (b2 : Num) : Statement (.createcBq c a0 a1 a2 b1 b2) :=
  headerOp_mkHeader (.inl rfl) (.inr (.inr ⟨rfl, rfl⟩))
theorem createcFir (c : Byte) (cs : List Num) : Statement (.createcFir c cs) :=
  headerOp_mkHeader (.inl rfl) (.inl rfl)
theorem procHp (c : Byte) (len : Word) : Statement (.procHp c len) :=
  headerOp_mkHeader (.inl rfl) (.inr (.inr ⟨rfl, rfl⟩))
theorem procLp (c : Byte) (len : Word) : Statement (.procLp c len) :=
  headerOp_mkHeader (.inl rfl) (.inr (.inr ⟨rfl, rfl⟩))
theorem procBp (c : Byte) (len : Word) : Statement (.procBp c len) :=
  headerOp_mkHeader (.inl rfl) (.inr (.inr ⟨rfl, rfl⟩))
theorem procBq (c : Byte) (len : Word) : Statement (.procBq c len) :=
  headerOp_mkHeader (.inl rfl) (.inr (.inr ⟨rfl, rfl⟩))
theorem procFir (c : Byte) (len : Word) : Statement (.procFir c len) :=
  headerOp_mkHeader (.inl rfl) (.inr (.inr ⟨rfl, rfl⟩))
theorem stateRd (c : Byte) : Statement (.stateRd c) :=
  headerOp_mkHeader (.inl rfl) (.inr (.inr ⟨rfl, rfl⟩))
theorem stateWr (c : Byte) (ws : List Word) : Statement (.stateWr c ws) :=
  headerOp_mkHeader (.inl rfl) (.inr (.inr ⟨rfl, rfl⟩))
theorem coefRd (c : Byte) : Statement (.coefRd c) :=
  headerOp_mkHeader (.inl rfl) (.inr (.inr ⟨rfl, rfl⟩))
theorem release (c : Byte) : Statement (.release c) :=
  headerOp_mkHeader (.inl rfl) (.inr (.inr ⟨rfl, rfl⟩))
theorem statusRd : Statement (.statusRd) :=
  headerOp_mkHeader (.inr rfl) (.inr (.inr ⟨rfl, rfl⟩))

end Sys2Proof.Laws.HeaderAccepted
end

