-- ==== Sys2Proof/Machine/Container.lean ====
section
/-! DEFINITION. The audio container the host feeds with the block's output (20_memory.md R67). It stands outside the block: no
command writes it and no meaning uses this file (DEDUCED, log entry 12, safe). -/

namespace Sys2Proof.Machine

/-- The ASCII bytes of a tag. -/
def tagBytes (t : String) : List Byte := t.toList.map fun ch => BitVec.ofNat 8 ch.toNat

/-- The 44-byte header of R67 for `n` samples. A size, a byte rate or a block align that its field cannot hold is taken modulo 2^32
or 2^16, where R67 says nothing (DESIGN CHOICE, log entry 13, unsafe). -/
def containerHeader (channels : BitVec 16) (sampleRate : Word) (n : Nat) : List Byte :=
  let dataBytes : Word := BitVec.ofNat 32 (2 * n)
  tagBytes "RIFF" ++ wordBytes (36#32 + dataBytes) ++ tagBytes "WAVE" ++ tagBytes "fmt " ++ wordBytes 16#32 ++
    sampleBytes 1#16 ++ sampleBytes channels ++ wordBytes sampleRate ++
    wordBytes (sampleRate * channels.setWidth 32 * 2#32) ++ sampleBytes (channels * 2#16) ++ sampleBytes 16#16 ++
    tagBytes "data" ++ wordBytes dataBytes

/-- The container: the header, then the samples, low byte first (R56 (a), R67). -/
def container (channels : BitVec 16) (sampleRate : Word) (xs : List Sample) : List Byte :=
  containerHeader channels sampleRate xs.length ++ xs.flatMap sampleBytes

end Sys2Proof.Machine
end

