-- ==== Sys2Proof/Tests/Slice0.lean ====
section
/-! SUPPORT. The model's own tests. Expected values come from spec/95_test_vectors.md (the vector is named beside each) or are
worked out by hand from the rule that is named. Then, for every statement that has hypotheses, a witness that meets them. -/

namespace Sys2Proof.Tests
open Sys2Proof Sys2Proof.Machine

-- one theorem at a time: so many kernel evaluations at once ask for a stack each
set_option Elab.async false

/-! ## Helpers -/

/-- 0.25. -/
def quarter : Sys2Proof.Num := 0x3FD0000000000000#64
/-- 0.5. -/
def half : Sys2Proof.Num := 0x3FE0000000000000#64
/-- 1000.0. -/
def hz1000 : Sys2Proof.Num := 0x408F400000000000#64
/-- 8000.0. -/
def hz8000 : Sys2Proof.Num := 0x40BF400000000000#64
/-- 2^−1074, a frequency so low that the angular frequency underflows to +0, where R15 fixes `SIN` and `COS`. -/
def hzTiny : Sys2Proof.Num := 0x0000000000000001#64
/-- +∞. -/
def plusInf : Sys2Proof.Num := 0x7FF0000000000000#64
/-- 1e308 (program P6). -/
def huge : Sys2Proof.Num := 0x7FE1CCF385EBC8A0#64

/-- A block with `NCTX` = 4 and `NMAX` = 5, as the vectors assume, with contexts `b` and words and beats waiting. -/
def blk (b : Bank) (cmd din : List Word) : State := ⟨⟨4, 5⟩, b, 0#32, false, cmd, din, [], []⟩

def hpZero : Context := .hp half ⟨0#16, 0#64⟩
def lpZero : Context := .lp quarter 0#64
def bpZero : Context := .bp ⟨half, half⟩ ⟨0#16, 0#64, 0#64⟩
/-- 0.5, 0, −0.5, −0.5, 0.25 (V-Q2). -/
def bqZero : Context :=
  .bq ⟨half, 0#64, 0xBFE0000000000000#64, 0xBFE0000000000000#64, quarter⟩ ⟨0#16, 0#16, 0#64, 0#64⟩
/-- 0.25, 0.5, 0.25 (V-F2). -/
def firZero : Context := .fir 3 [quarter, half, quarter] ⟨[0#16, 0#16, 0#16], 0⟩

/-- Four streams of four kinds. -/
def four : Bank := [(0, hpZero), (1, lpZero), (2, bpZero), (3, firZero)]

/-- Does a step end in a next state with this `STATUS`, these output beats and these response words? -/
def shows (r : Result) (status : BitVec 32) (dout rsp : List Word) : Bool :=
  match r with
  | .next t => t.status == status && t.dout == dout && t.rsp == rsp
  | .fault _ | .refused _ => false

/-- The context `c` after a step. -/
def ctxAfter (r : Result) (c : Nat) : Option Context :=
  match r with
  | .next t => Bank.get t.ctx c
  | .fault _ | .refused _ => none

/-- The next state of a step (the state it began in if there were none). -/
def nextOf (r : Result) (s : State) : State :=
  match r with
  | .next t => t
  | .fault _ | .refused _ => s

/-- The beats of a list of integers. -/
def beats (xs : List Int) : List Word := xs.map (BitVec.ofInt 32)

/-! ## Well-formed terms -/

/-- `ARG` carries 65535 coefficients at most; one more is no command. -/
theorem test_wellFormed_refuses_too_many_taps : (Instr.createcFir 0#8 (List.replicate 65536 0#64)).wellFormed = false := by
  rw [Instr.wellFormed, List.length_replicate]
  decide

/-- `WC` carries 2^32 − 1 words at most; one more is no command. -/
theorem test_wellFormed_refuses_too_many_words : (Instr.stateWr 0#8 (List.replicate (2 ^ 32) 0#32)).wellFormed = false := by
  rw [Instr.wellFormed, List.length_replicate]
  decide

/-! ## Decoding: words written out from R73, R78, R79 and R81 -/

theorem test_decode_codec :
    decode [0x0100009A#32] = .instr (.ulawDec 0x9A#8) ∧
    decode [0x02000000#32, 0xFFFFFB2E#32] = .instr (.ulawEnc 0xFFFFFB2E#32) ∧
    decode [0x03000000#32, 0x0000000A#32] = .instr (.ulawDecb 10#32) ∧
    decode [0x04000000#32, 0x00000004#32] = .instr (.ulawEncb 4#32) := by decide

theorem test_decode_designers :
    decode [0x10000000#32, 0#32, 0x4072C000#32, 0#32, 0x40BF4000#32] =
      .instr (.alphaHp 0x4072C00000000000#64 0x40BF400000000000#64) ∧
    decode [0x11000000#32, 1#32, 0x4072C000#32, 2#32, 0x40BF4000#32] =
      .instr (.alphaLp 0x4072C00000000001#64 0x40BF400000000002#64) ∧
    decode [0x12000000#32, 1#32, 2#32, 3#32, 4#32, 5#32, 6#32] =
      .instr (.bqdBp 0x0000000200000001#64 0x0000000400000003#64 0x0000000600000005#64) ∧
    decode [0x13000000#32, 1#32, 2#32, 3#32, 4#32, 5#32, 6#32] =
      .instr (.bqdHp 0x0000000200000001#64 0x0000000400000003#64 0x0000000600000005#64) ∧
    decode [0x1400FFFF#32, 1#32, 2#32, 3#32, 4#32] =
      .instr (.firdLp 0xFFFF#16 0x0000000200000001#64 0x0000000400000003#64) := by decide

theorem test_decode_create :
    decode [0x20FF0000#32, 1#32, 2#32, 3#32, 4#32] =
      .instr (.createHp 0xFF#8 0x0000000200000001#64 0x0000000400000003#64) ∧
    decode [0x21010000#32, 1#32, 2#32, 3#32, 4#32] =
      .instr (.createLp 1#8 0x0000000200000001#64 0x0000000400000003#64) ∧
    decode [0x22020000#32, 1#32, 2#32, 3#32, 4#32, 5#32, 6#32] =
      .instr (.createBp 2#8 0x0000000200000001#64 0x0000000400000003#64 0x0000000600000005#64) ∧
    decode [0x23030000#32, 1#32, 2#32, 3#32, 4#32, 5#32, 6#32] =
      .instr (.createBqbp 3#8 0x0000000200000001#64 0x0000000400000003#64 0x0000000600000005#64) ∧
    decode [0x24030000#32, 1#32, 2#32, 3#32, 4#32, 5#32, 6#32] =
      .instr (.createBqhp 3#8 0x0000000200000001#64 0x0000000400000003#64 0x0000000600000005#64) ∧
    decode [0x25000005#32, 0#32, 0x408F4000#32, 0#32, 0x40BF4000#32] =
      .instr (.createFir 0#8 5#16 0x408F400000000000#64 0x40BF400000000000#64) := by decide

theorem test_decode_createc :
    decode [0x28010000#32, 0#32, 0x3FE80000#32] = .instr (.createcHp 1#8 0x3FE8000000000000#64) ∧
    decode [0x29010000#32, 0#32, 0x3FD00000#32] = .instr (.createcLp 1#8 0x3FD0000000000000#64) ∧
    decode [0x2A020000#32, 1#32, 2#32, 3#32, 4#32] =
      .instr (.createcBp 2#8 0x0000000200000001#64 0x0000000400000003#64) ∧
    decode [0x2B030000#32, 1#32, 2#32, 3#32, 4#32, 5#32, 6#32, 7#32, 8#32, 9#32, 10#32] =
      .instr (.createcBq 3#8 0x0000000200000001#64 0x0000000400000003#64 0x0000000600000005#64 0x0000000800000007#64
        0x0000000A00000009#64) ∧
    decode [0x2C000003#32, 1#32, 2#32, 3#32, 4#32, 5#32, 6#32] =
      .instr (.createcFir 0#8 [0x0000000200000001#64, 0x0000000400000003#64, 0x0000000600000005#64]) ∧
    decode [0x2C000000#32, 7#32] = .instr (.createcFir 0#8 []) := by decide

theorem test_decode_proc :
    decode [0x30010000#32, 2#32] = .instr (.procHp 1#8 2#32) ∧ decode [0x31090000#32, 1#32] = .instr (.procLp 9#8 1#32) ∧
    decode [0x32000000#32, 4#32] = .instr (.procBp 0#8 4#32) ∧
    decode [0x33000000#32, 0xFA0#32] = .instr (.procBq 0#8 4000#32) ∧
    decode [0x34FF0000#32, 0xFFFFFFFF#32] = .instr (.procFir 0xFF#8 0xFFFFFFFF#32) := by decide

theorem test_decode_context_system :
    decode [0x40000000#32] = .instr (.stateRd 0#8) ∧
    decode [0x41030000#32, 6#32, 0x7D0#32, 0x3E8#32, 0#32, 0x40938800#32, 0#32, 0x407F4000#32, 0x4F000000#32] =
      .instr (.stateWr 3#8 [0x7D0#32, 0x3E8#32, 0#32, 0x40938800#32, 0#32, 0x407F4000#32]) ∧
    decode [0x42010000#32] = .instr (.coefRd 1#8) ∧ decode [0x4E010000#32] = .instr (.release 1#8) ∧
    decode [0x4F000000#32] = .instr .statusRd := by decide

/-- Reserved opcodes beside the used ones, and every must-be-zero field (R73, R80, V-X4). -/
theorem test_decode_illegal :
    decode [0x05000000#32] = .illegal 0x05000000#32 .reservedOpcode ∧
    decode [0x15000000#32] = .illegal 0x15000000#32 .reservedOpcode ∧
    decode [0x26000000#32] = .illegal 0x26000000#32 .reservedOpcode ∧
    decode [0x2D000000#32] = .illegal 0x2D000000#32 .reservedOpcode ∧
    decode [0x35000000#32] = .illegal 0x35000000#32 .reservedOpcode ∧
    decode [0x43000000#32] = .illegal 0x43000000#32 .reservedOpcode ∧
    decode [0x50000000#32] = .illegal 0x50000000#32 .reservedOpcode ∧
    decode [0x010001FF#32] = .illegal 0x010001FF#32 .mustBeZero ∧
    decode [0x010100FF#32] = .illegal 0x010100FF#32 .mustBeZero ∧
    decode [0x14010003#32] = .illegal 0x14010003#32 .mustBeZero ∧
    decode [0x20000001#32] = .illegal 0x20000001#32 .mustBeZero ∧
    decode [0x4F000001#32] = .illegal 0x4F000001#32 .mustBeZero := by decide

/-- The encoder writes the words of V-S1, V-F5 and R192's example. -/
theorem test_encode :
    encode (.alphaHp 0x4072C00000000000#64 hz8000) = [0x10000000#32, 0#32, 0x4072C000#32, 0#32, 0x40BF4000#32] ∧
    encode (.createcFir 0#8 [F64.one]) = [0x2C000001#32, 0#32, 0x3FF00000#32] ∧
    encode (.stateWr 3#8 [0x7D0#32, 0x3E8#32, 0#32, 0x40938800#32, 0#32, 0x407F4000#32]) =
      [0x41030000#32, 6#32, 0x7D0#32, 0x3E8#32, 0#32, 0x40938800#32, 0#32, 0x407F4000#32] ∧
    encode (.ulawDec 0xFF#8) = [0x010000FF#32] := by decide

/-- No two rows of the opcode table have a header word in common. -/
theorem test_opcode_rows_are_disjoint :
    opcodeRows.Pairwise (fun a b => a.2.1 &&& (a.2.2 &&& b.2.2) ≠ b.2.1 &&& (a.2.2 &&& b.2.2)) := by decide

/-- A row of the table with operand words of zeros: `STATUS.RD` (one word), `PROC.HP` (its `LEN` word left to the padding). -/
theorem test_decodeTableWord :
    decodeTableWord 32 0x4F000000 = some .statusRd ∧ decodeTableWord 32 0x30020000 = some (.procHp 2#8 0#32) ∧
    decodeTableWord 64 0xFFFFFFFF02000000 = some (.ulawEnc 0xFFFFFFFF#32) ∧ decodeTableWord 32 0x05000000 = none := by
  decide

/-- `withFetchWord` puts exactly the command before what is on `CMD`. -/
theorem test_withFetchWord :
    ((blk [] [7#32] []).withFetchWord 32 0x30020000).cmd = [0x30020000#32, 0#32, 7#32] ∧
    shows (step (State.reset.withFetchWord 32 0x4F000000)) 0#32 [] [0x4F000000#32, 0#32] = true := by decide +kernel

/-! ## One step of every command -/

/-- V-C1. -/
theorem test_ulawDec :
    shows (step (blk [] [0x0100007F#32] [])) 0#32 [] [0x01000000#32, 0xFFFFFFF8#32] = true ∧
    shows (step (blk [] [0x01000000#32] [])) 0#32 [] [0x01000000#32, BitVec.ofInt 32 (-32256)] = true ∧
    shows (step (blk [] [0x0100009A#32] [])) 0#32 [] [0x01000000#32, 11008#32] = true := by decide +kernel

/-- V-C2: the exponent-8 corner, both clamps, an ordinary value. -/
theorem test_ulawEnc :
    shows (step (blk [] [0x02000000#32, 0xFFFF8000#32] [])) 0#32 [] [0x02000000#32, 0x7F#32] = true ∧
    shows (step (blk [] [0x02000000#32, 0x80000000#32] [])) 0#32 [] [0x02000000#32, 0x7F#32] = true ∧
    shows (step (blk [] [0x02000000#32, 0x00009C40#32] [])) 0#32 [] [0x02000000#32, 0x80#32] = true ∧
    shows (step (blk [] [0x02000000#32, 0xFFFFFB2E#32] [])) 0#32 [] [0x02000000#32, 0x49#32] = true := by decide +kernel

/-- V-C4, with bits 31:8 of a beat ignored; the seventh beat is left for the next command. -/
theorem test_ulawDecb :
    shows (step (blk [] [0x03000000#32, 6#32] [0xFF#32, 0xABCDEF9A#32, 0x1A#32, 0x80#32, 0#32, 0x7F#32, 9#32])) 0#32
      (beats [8, 11008, -11008, 32256, -32256, -8]) [0x03000000#32] = true := by decide +kernel

/-- V-C4. -/
theorem test_ulawEncb :
    shows (step (blk [] [0x04000000#32, 4#32] (beats [0, 1000, -1234, 40000]))) 0#32
      [0xFF#32, 0xD1#32, 0x49#32, 0x80#32] [0x04000000#32] = true := by decide +kernel

/-- V-S1. -/
theorem test_alphaHp :
    shows (step (blk [] [0x10000000#32, 0#32, 0x4072C000#32, 0#32, 0x40BF4000#32] [])) 0#32 []
      [0x10000000#32, 0x7BB0D3E3#32, 0x3FE9E5DF#32] = true ∧
    shows (step (blk [] [0x10000000#32, 0#32, 0x40AF4000#32, 0#32, 0x40BF4000#32] [])) 8#32 [] [0x10000005#32] = true := by
  decide +kernel

/-- V-S1. -/
theorem test_alphaLp :
    shows (step (blk [] [0x11000000#32, 0#32, 0x40A77000#32, 0#32, 0x40BF4000#32] [])) 0#32 []
      [0x11000000#32, 0xE849E7E0#32, 0x3FE67723#32] = true ∧
    shows (step (blk [] [0x11000000#32, 0#32, 0#32, 0#32, 0x40BF4000#32] [])) 8#32 [] [0x11000005#32] = true := by
  decide +kernel

/-- By hand from R150 at a frequency where w0 = +0: SIN = +0 and COS = 1, so α = 0, norm = 1: 0, 0, −0, −2, 1. V-Q1: Q = 0. -/
theorem test_bqdBp :
    shows (step (blk [] [0x12000000#32, 1#32, 0#32, 0#32, 0x40BF4000#32, 0#32, 0x3FF00000#32] [])) 0#32 []
      [0x12000000#32, 0#32, 0#32, 0#32, 0#32, 0#32, 0x80000000#32, 0#32, 0xC0000000#32, 0#32, 0x3FF00000#32] = true ∧
    shows (step (blk [] [0x12000000#32, 0#32, 0x408F4000#32, 0#32, 0x40BF4000#32, 0#32, 0#32] [])) 8#32 []
      [0x12000005#32] = true := by decide +kernel

/-- By hand from R151 at the same frequency: 1, −2, 1, −2, 1. V-Q1: Q = −1. -/
theorem test_bqdHp :
    shows (step (blk [] [0x13000000#32, 1#32, 0#32, 0#32, 0x40BF4000#32, 0#32, 0x3FF00000#32] [])) 0#32 []
      [0x13000000#32, 0#32, 0x3FF00000#32, 0#32, 0xC0000000#32, 0#32, 0x3FF00000#32, 0#32, 0xC0000000#32, 0#32,
        0x3FF00000#32] = true ∧
    shows (step (blk [] [0x13000000#32, 0#32, 0x408F4000#32, 0#32, 0x40BF4000#32, 0#32, 0xBFF00000#32] [])) 8#32 []
      [0x13000005#32] = true := by decide +kernel

/-- V-F1: N = 1, and the three tap counts that are refused. -/
theorem test_firdLp :
    shows (step (blk [] [0x14000001#32, 0#32, 0x408F4000#32, 0#32, 0x40BF4000#32] [])) 0#32 []
      [0x14000000#32, 0#32, 0x3FF00000#32] = true ∧
    shows (step (blk [] [0x14000004#32, 0#32, 0x408F4000#32, 0#32, 0x40BF4000#32] [])) 8#32 [] [0x14000005#32] = true ∧
    shows (step (blk [] [0x14000000#32, 0#32, 0x408F4000#32, 0#32, 0x40BF4000#32] [])) 8#32 [] [0x14000005#32] = true ∧
    shows (step (blk [] [0x14000007#32, 0#32, 0x408F4000#32, 0#32, 0x40BF4000#32] [])) 8#32 [] [0x14000005#32] = true := by
  decide +kernel

/-- α of V-S1, over a context of another kind; then program P5, step 2: refused, and the context is untouched. -/
theorem test_createHp :
    ctxAfter (step (blk four [0x20010000#32, 0#32, 0x4072C000#32, 0#32, 0x40BF4000#32] [])) 1 =
      some (.hp 0x3FE9E5DF7BB0D3E3#64 ⟨0#16, 0#64⟩) ∧
    shows (step (blk four [0x20010000#32, 0#32, 0x40B38800#32, 0#32, 0x40BF4000#32] [])) 8#32 [] [0x20010005#32] = true ∧
    ctxAfter (step (blk four [0x20010000#32, 0#32, 0x40B38800#32, 0#32, 0x40BF4000#32] [])) 1 = some lpZero := by
  decide +kernel

/-- α of S1; program P5, step 12. -/
theorem test_createLp :
    ctxAfter (step (blk [] [0x21030000#32, 0#32, 0x4072C000#32, 0#32, 0x40BF4000#32] [])) 3 =
      some (.lp 0x3FC86882113CB073#64 0#64) ∧
    shows (step (blk [] [0x21010000#32, 0#32, 0#32, 0#32, 0x40BF4000#32] [])) 8#32 [] [0x21010005#32] = true := by
  decide +kernel

/-- V-B2; V-B4: the high cutoff at Nyquist is refused, low ≥ high is not. -/
theorem test_createBp :
    ctxAfter (step (blk [] [0x22000000#32, 0#32, 0x4072C000#32, 0#32, 0x40A77000#32, 0#32, 0x40BF4000#32] [])) 0 =
      some (.bp ⟨0x3FE9E5DF7BB0D3E3#64, 0x3FE67723E849E7E0#64⟩ ⟨0#16, 0#64, 0#64⟩) ∧
    shows (step (blk [] [0x22000000#32, 0#32, 0x4072C000#32, 0#32, 0x40AF4000#32, 0#32, 0x40BF4000#32] [])) 8#32 []
      [0x22000005#32] = true ∧
    shows (step (blk [] [0x22000000#32, 0#32, 0x40A77000#32, 0#32, 0x4072C000#32, 0#32, 0x40BF4000#32] [])) 0#32 []
      [0x22000000#32] = true := by decide +kernel

/-- The coefficients of `test_bqdBp`; program P5, step 5. -/
theorem test_createBqbp :
    ctxAfter (step (blk [] [0x23030000#32, 1#32, 0#32, 0#32, 0x40BF4000#32, 0#32, 0x3FF00000#32] [])) 3 =
      some (.bq ⟨0#64, 0#64, 0x8000000000000000#64, 0xC000000000000000#64, 0x3FF0000000000000#64⟩
        ⟨0#16, 0#16, 0#64, 0#64⟩) ∧
    shows (step (blk [] [0x23010000#32, 0#32, 0x408F4000#32, 0#32, 0x40BF4000#32, 0#32, 0#32] [])) 8#32 []
      [0x23010005#32] = true := by decide +kernel

/-- The coefficients of `test_bqdHp`. -/
theorem test_createBqhp :
    ctxAfter (step (blk [] [0x24000000#32, 1#32, 0#32, 0#32, 0x40BF4000#32, 0#32, 0x3FF00000#32] [])) 0 =
      some (.bq ⟨0x3FF0000000000000#64, 0xC000000000000000#64, 0x3FF0000000000000#64, 0xC000000000000000#64,
        0x3FF0000000000000#64⟩ ⟨0#16, 0#16, 0#64, 0#64⟩) := by decide +kernel

/-- N = 1 (V-F1); program P5, step 4: an even N. -/
theorem test_createFir :
    ctxAfter (step (blk four [0x25030001#32, 0#32, 0x408F4000#32, 0#32, 0x40BF4000#32] [])) 3 =
      some (.fir 1 [F64.one] ⟨[0#16], 0⟩) ∧
    shows (step (blk [] [0x25010004#32, 0#32, 0x408F4000#32, 0#32, 0x40BF4000#32] [])) 8#32 [] [0x25010005#32] = true := by
  decide +kernel

/-- Program P6, step 1: finite is enough; +∞ is refused. -/
theorem test_createcHp :
    ctxAfter (step (blk [] [0x28000000#32, 0x85EBC8A0#32, 0x7FE1CCF3#32] [])) 0 = some (.hp huge ⟨0#16, 0#64⟩) ∧
    shows (step (blk [] [0x28000000#32, 0#32, 0x7FF00000#32] [])) 8#32 [] [0x28000005#32] = true := by decide +kernel

/-- Program P5, step 7. -/
theorem test_createcLp :
    ctxAfter (step (blk [] [0x29010000#32, 0#32, 0x3FD00000#32] [])) 1 = some lpZero ∧
    shows (step (blk [] [0x29040000#32, 0#32, 0x3FD00000#32] [])) 4#32 [] [0x29040002#32] = true := by decide +kernel

/-- V-B1. -/
theorem test_createcBp :
    ctxAfter (step (blk [] [0x2A020000#32, 0#32, 0x3FE00000#32, 0#32, 0x3FE00000#32] [])) 2 = some bpZero := by
  decide +kernel

/-- V-Q2. -/
theorem test_createcBq :
    ctxAfter (step (blk [] [0x2B000000#32, 0#32, 0x3FE00000#32, 0#32, 0#32, 0#32, 0xBFE00000#32, 0#32, 0xBFE00000#32, 0#32,
      0x3FD00000#32] [])) 0 = some bqZero := by decide +kernel

/-- V-F2; `ARG` = 0 carries no operand words and is refused (R173). -/
theorem test_createcFir :
    ctxAfter (step (blk [] [0x2C000003#32, 0#32, 0x3FD00000#32, 0#32, 0x3FE00000#32, 0#32, 0x3FD00000#32] [])) 0 =
      some firZero ∧
    shows (step (blk [] [0x2C000000#32] [])) 8#32 [] [0x2C000005#32] = true := by decide +kernel

/-- V-S3: truncation of negative values; V-S7: saturation, with the unclipped value fed back. -/
theorem test_procHp :
    shows (step (blk [(0, hpZero)] [0x30000000#32, 3#32] (beats [-3, 0, 0]))) 0#32 (beats [-1, 0, 0]) [0x30000000#32] = true ∧
    ctxAfter (step (blk [(0, .hp 0x3FE8000000000000#64 ⟨0x8000#16, 0#64⟩)] [0x30000000#32, 2#32] (beats [32767, 32767]))) 0 =
      some (.hp 0x3FE8000000000000#64 ⟨0x7FFF#16, 0x40E1FFEE00000000#64⟩) ∧
    shows (step (blk [(0, .hp 0x3FE8000000000000#64 ⟨0x8000#16, 0#64⟩)] [0x30000000#32, 2#32] (beats [32767, 32767]))) 1#32
      (beats [32767, 32767]) [0x30000000#32] = true := by decide +kernel

/-- V-S4. -/
theorem test_procLp :
    shows (step (blk four [0x31010000#32, 4#32] (beats [100, 100, 100, -100]))) 0#32 (beats [25, 43, 57, 18])
      [0x31010000#32] = true ∧
    ctxAfter (step (blk four [0x31010000#32, 4#32] (beats [100, 100, 100, -100]))) 1 =
      some (.lp quarter 0x40325C0000000000#64) := by decide +kernel

/-- V-B1. -/
theorem test_procBp :
    shows (step (blk four [0x32020000#32, 4#32] (beats [1000, -1000, 500, 500]))) 0#32 (beats [250, -250, 62, 124])
      [0x32020000#32] = true ∧
    ctxAfter (step (blk four [0x32020000#32, 4#32] (beats [1000, -1000, 500, 500]))) 2 =
      some (.bp ⟨half, half⟩ ⟨500#16, 0x4067700000000000#64, 0x405F300000000000#64⟩) := by decide +kernel

/-- V-Q2; V-Q3: ties go away from zero. -/
theorem test_procBq :
    shows (step (blk [(0, bqZero)] [0x33000000#32, 4#32] (beats [1000, 2000, -1000, 3]))) 0#32
      (beats [500, 1250, -500, -1561]) [0x33000000#32] = true ∧
    shows (step (blk [(0, .bq ⟨half, 0#64, 0#64, 0#64, 0#64⟩ ⟨0#16, 0#16, 0#64, 0#64⟩)] [0x33000000#32, 5#32]
      (beats [1, -1, 3, -3, 5]))) 0#32 (beats [1, -1, 2, -2, 3]) [0x33000000#32] = true := by decide +kernel

/-- V-F2: the history wraps. -/
theorem test_procFir :
    shows (step (blk four [0x34030000#32, 5#32] (beats [100, 200, -300, 400, 2]))) 0#32 (beats [25, 100, 50, 0, 126])
      [0x34030000#32] = true ∧
    ctxAfter (step (blk four [0x34030000#32, 5#32] (beats [100, 200, -300, 400, 2]))) 3 =
      some (.fir 3 [quarter, half, quarter] ⟨[400#16, 2#16, BitVec.ofInt 16 (-300)], 2⟩) := by decide +kernel

/-- V-F4 and V-X1: a FIR image; R190's example. -/
theorem test_stateRd :
    shows (step (blk [(0, .fir 3 [] ⟨[0x8000#16, 0x8000#16, 0x8000#16], 2⟩)] [0x40000000#32] [])) 0#32 []
      [0x40000000#32, 0x0003000B#32, 2#32, 0xFFFF8000#32, 0xFFFF8000#32, 0xFFFF8000#32] = true ∧
    shows (step (blk [(1, .hp half ⟨500#16, 0x4057700000000000#64⟩)] [0x40010000#32] [])) 0#32 []
      [0x40010000#32, 3#32, 0x1F4#32, 0#32, 0x40577000#32] = true := by decide +kernel

/-- R192's example; V-X2: a Sample word that is no sign extension, and `wp` = N. -/
theorem test_stateWr :
    ctxAfter (step (blk [(3, bqZero)] [0x41030000#32, 6#32, 0x7D0#32, 0x3E8#32, 0#32, 0x40938800#32, 0#32, 0x407F4000#32] []))
      3 = some (.bq ⟨half, 0#64, 0xBFE0000000000000#64, 0xBFE0000000000000#64, quarter⟩
        ⟨2000#16, 1000#16, 0x4093880000000000#64, 0x407F400000000000#64⟩) ∧
    shows (step (blk four [0x41000000#32, 3#32, 0x00008000#32, 0#32, 0#32] [])) 8#32 [] [0x41000006#32] = true ∧
    shows (step (blk four [0x41030000#32, 4#32, 3#32, 0#32, 0#32, 0#32] [])) 8#32 [] [0x41030006#32] = true := by
  decide +kernel

/-- V-B2. -/
theorem test_coefRd :
    shows (step (blk [(0, .bp ⟨0x3FE9E5DF7BB0D3E3#64, 0x3FE67723E849E7E0#64⟩ ⟨0#16, 0#64, 0#64⟩)] [0x42000000#32] [])) 0#32 []
      [0x42000000#32, 7#32, 0x7BB0D3E3#32, 0x3FE9E5DF#32, 0xE849E7E0#32, 0x3FE67723#32] = true := by decide +kernel

/-- V-X3. -/
theorem test_release :
    ctxAfter (step (blk four [0x4E010000#32] [])) 1 = none ∧
    shows (step (blk four [0x4E010000#32] [])) 0#32 [] [0x4E010000#32] = true ∧
    shows (step (blk [] [0x4E010000#32] [])) 4#32 [] [0x4E010003#32] = true := by decide +kernel

/-- V-X4; program P5, step 15. -/
theorem test_statusRd :
    shows (step (blk [] [0x4F000000#32] [])) 0#32 [] [0x4F000000#32, 0#32] = true ∧
    shows (step { blk [] [0x4F000000#32] [] with status := 12#32 }) 12#32 [] [0x4F000000#32, 12#32] = true := by
  decide +kernel

/-! ## Refusals, the halt, waiting, reset -/

/-- The vectors of 95_test_vectors.md "Refusals", one per code; `OPC` is checked before `CTX`, `CTX` before the configuration. -/
theorem test_refusals :
    shows (step (blk [] [0x31090000#32, 1#32] [5#32])) 4#32 [] [0x31090002#32] = true ∧
    shows (step (blk [] [0x30010000#32, 2#32] [7#32, 9#32])) 4#32 [] [0x30010003#32] = true ∧
    shows (step (blk four [0x30010000#32, 1#32] [5#32])) 4#32 [] [0x30010004#32] = true ∧
    shows (step (blk [(0, .hp huge ⟨0#16, 0#64⟩)] [0x30000000#32, 2#32] (beats [32767, -32768]))) 0x10#32 []
      [0x30000007#32] = true ∧
    ctxAfter (step (blk [(0, .hp huge ⟨0#16, 0#64⟩)] [0x30000000#32, 2#32] (beats [32767, -32768]))) 0 = none ∧
    shows (step (blk [] [0x20090000#32, 0#32, 0#32, 0#32, 0#32] [])) 4#32 [] [0x20090002#32] = true := by decide +kernel

/-- Program P5, steps 16 and 17, and P6, step 10: the header alone is consumed and nothing is read any more. -/
theorem test_illegal_halts :
    step { blk four [0x05000000#32, 0x4F000000#32] [] with status := 0x0C#32 } =
      .next { blk four [0x4F000000#32] [] with status := 0x0E#32, halt := true, rsp := [0x05000001#32] } ∧
    step { blk four [0x4F000000#32] [] with halt := true } = .next { blk four [0x4F000000#32] [] with halt := true } ∧
    shows (step (blk [] [0x010001FF#32] [])) 2#32 [] [0x01000001#32] = true :=
  ⟨rfl, rfl, rfl⟩

/-- A missing operand word and a missing beat are waited for (R248). -/
theorem test_waits :
    step (blk four [0x30000000#32] []) = .next (blk four [0x30000000#32] []) ∧
    step (blk four [0x30000000#32, 2#32] [1#32]) = .next (blk four [0x30000000#32, 2#32] [1#32]) := ⟨rfl, rfl⟩

/-- Reset ends a command that waits and drops its words and beats; the next word is a header again (R240). -/
theorem test_hostReset :
    (blk four [0x30000000#32, 2#32, 0x4F000000#32] [1#32]).hostReset false = blk [] [0x4F000000#32] [] ∧
    (blk four [0x4F000000#32] [1#32]).hostReset false = blk [] [0x4F000000#32] [1#32] ∧
    { blk four [0x4F000000#32] [] with halt := true, status := 0x1F#32 }.hostReset true = blk [] [0x4F000000#32] [] := by
  decide

/-- R14's own examples: 2.9, −2.9, 2.5, −2.5, −2.4, 0.49999999999999994. -/
theorem test_conversions :
    F64.trunc 0x4007333333333333#64 = 2 ∧ F64.trunc 0xC007333333333333#64 = -2 ∧
    F64.roundHA 0x4004000000000000#64 = 3 ∧ F64.roundHA 0xC004000000000000#64 = -3 ∧
    F64.roundHA 0xC003333333333333#64 = -2 ∧ F64.roundHA 0x3FDFFFFFFFFFFFFF#64 = 0 := by decide +kernel

/-- IEEE 754 by hand: 1 + 2^−53 is a tie and goes to even, 1 + 3·2^−53 goes up, the largest finite number doubled is +∞, the
smallest subnormal halved is a tie and goes to zero, 1 − 1 is +0, −1 · 0 is −0, −0 = +0. -/
theorem test_arithmetic :
    F64.add F64.one 0x3CA0000000000000#64 = F64.one ∧
    F64.add F64.one 0x3CB8000000000000#64 = 0x3FF0000000000002#64 ∧
    F64.mul 0x7FEFFFFFFFFFFFFF#64 F64.two = plusInf ∧ F64.div hzTiny F64.two = F64.zero ∧
    F64.sub F64.one F64.one = F64.zero ∧ F64.mul 0xBFF0000000000000#64 F64.zero = 0x8000000000000000#64 ∧
    F64.le F64.zero 0x8000000000000000#64 = true ∧ F64.lt 0x8000000000000000#64 F64.zero = false := by decide +kernel

/-- R82's example, and R195's replay form. -/
theorem test_assembler :
    asmText (.procHp 0#8 2#32) [1000, -1000] = "PROC.HP c0, [1000, -1000]" ∧
    asmText (.createcFir 0#8 [F64.one]) [] = "CREATEC.FIR c0, n=1, f64:0x3FF0000000000000" ∧
    createState 1#8 (.biquadHighpass hz1000 hz8000 F64.one) = .createBqhp 1#8 hz1000 hz8000 F64.one ∧
    pipeline .hp 0#8 3#32 = [.ulawDecb 3#32, .procHp 0#8 3#32, .ulawEncb 3#32] := by decide +kernel

/-- Images the vectors give: 300.0, 0.7071 (V-Q1), 1e308 (P6), and −1.5 by hand. -/
theorem test_decimal_literals :
    decimalNum false 3000 (-1) = 0x4072C00000000000#64 ∧ decimalNum false 7071 (-4) = 0x3FE6A0902DE00D1B#64 ∧
    decimalNum false 1 308 = huge ∧ decimalNum true 15 (-1) = 0xBFF8000000000000#64 ∧
    hexFloatNum true 0x18 (-4) = 0xBFF8000000000000#64 := by decide +kernel

/-- Offsets of R67 for one channel at 8000 Hz and two samples: file size − 8 = 40 at 4, byte rate 16000 at 28, block align 2 at 32,
4 data bytes at 40, then the samples 8 and −8. -/
theorem test_container :
    (container 1#16 8000#32 [8#16, 0xFFF8#16]).length = 48 ∧
    ((container 1#16 8000#32 [8#16, 0xFFF8#16]).drop 4).take 4 = [40#8, 0#8, 0#8, 0#8] ∧
    ((container 1#16 8000#32 [8#16, 0xFFF8#16]).drop 28).take 6 = [0x80#8, 0x3E#8, 0#8, 0#8, 2#8, 0#8] ∧
    (container 1#16 8000#32 [8#16, 0xFFF8#16]).drop 36 =
      [0x64#8, 0x61#8, 0x74#8, 0x61#8, 4#8, 0#8, 0#8, 0#8, 8#8, 0#8, 0xF8#8, 0xFF#8] := by decide +kernel

/-- `exec` answers its next state, named without running it. -/
theorem exec_nextOf (i : Instr) (s d : State) : exec i s = .next (nextOf (exec i s) d) := by cases i <;> rfl

/-- The same of a step. -/
theorem step_nextOf (s d : State) : step s = .next (nextOf (step s) d) := by
  unfold step
  split
  · rfl
  · split
    · exact exec_nextOf _ s d
    · rfl
    · rfl

/-! ## Witnesses: for every statement with hypotheses, a state and operands that meet all of them together -/

/-- 0.5 and 0.5 on two single-pole contexts beside a band-pass context with the same coefficients (program P4). -/
def cascade : Bank := [(0, hpZero), (1, .lp half 0#64), (2, bpZero)]

theorem witness_DecodeOfEncodeIsTheCommand :
    (Instr.createcFir 255#8 (List.replicate 65535 0#64)).wellFormed = true ∧
    (Instr.stateWr 0#8 (List.replicate (2 ^ 32 - 1) 0#32)).wellFormed = true := by
  rw [Instr.wellFormed, Instr.wellFormed, List.length_replicate, List.length_replicate]
  decide

theorem witness_EncodeOfDecodeIsTheWords :
    decode [0x2C010001#32, 0#32, 0x3FF00000#32, 7#32] = .instr (.createcFir 1#8 [F64.one]) := by decide

theorem witness_HeaderIsAcceptedByItsTableRow :
    headerOp 0x30FF0000#32 = .ok .procHp ∧ (Op.procHp, 0x30000000#32, 0xFF00FFFF#32) ∈ opcodeRows ∧
    (0x30FF0000#32 &&& 0xFF00FFFF#32) = 0x30000000#32 := ⟨rfl, by decide, by decide⟩

theorem witness_StepRunsTheDecodedCommand :
    (blk four [0x4F000000#32] []).halt = false ∧ decode (blk four [0x4F000000#32] []).cmd = .instr .statusRd :=
  ⟨rfl, by decide⟩

theorem witness_IllegalHeaderHaltsTheBlock :
    ((blk four [0x010001FF#32, 7#32] []).halt = false ∧
      (blk four [0x010001FF#32, 7#32] []).cmd = 0x010001FF#32 :: [7#32] ∧
      ∀ row ∈ opcodeRows, 0x010001FF#32 &&& row.2.2 ≠ row.2.1) ∧
    (∀ row ∈ opcodeRows, 0#32 &&& row.2.2 ≠ row.2.1) ∧ (∀ row ∈ opcodeRows, 0xFFFFFFFF#32 &&& row.2.2 ≠ row.2.1) ∧
    { blk four [7#32] [] with halt := true }.halt = true := by decide

/-- Clause by clause: a halted block; a step into the halt and one that does not halt; a command. -/
theorem witness_HaltIsSetByIllegalAlone :
    { blk [] [] [] with halt := true }.halt = true ∧
    ((blk [] [0#32] []).halt = false ∧
      step (blk [] [0#32] []) = .next (nextOf (step (blk [] [0#32] [])) (blk [] [] []))) ∧
    ((blk [] [0x4F000000#32] []).halt = false ∧
      step (blk [] [0x4F000000#32] []) = .next (nextOf (step (blk [] [0x4F000000#32] [])) (blk [] [] []))) ∧
    exec (.release 0#8) (blk four [] []) = .next (nextOf (exec (.release 0#8) (blk four [] [])) (blk [] [] [])) :=
  ⟨rfl, ⟨rfl, step_nextOf _ _⟩, ⟨rfl, step_nextOf _ _⟩, exec_nextOf _ _ _⟩

theorem witness_MissingWordsAndBeatsAreWaitedFor :
    ((blk four [] []).halt = false ∧ decode (blk four [] []).cmd = .incomplete) ∧
    ((blk four [0x2C000001#32, 0#32] []).halt = false ∧ decode (blk four [0x2C000001#32, 0#32] []).cmd = .incomplete) ∧
    (blk four [] [1#32]).din.length < (Instr.procHp 0#8 2#32).beats ∧
    (blk four [] []).din.length < (Instr.ulawDecb 1#32).beats := by decide

/-- The four contexts meet the invariant. -/
theorem four_inv (cmd din : List Word) : (blk four cmd din).Inv where
  nctx_range := by simp [blk]
  nmax_range := by simp [blk]
  bank_wf := by
    show Bank.wf 4 four
    decide
  contexts_ok := by
    show ∀ e ∈ four, e.2.ok 5 = true
    decide +kernel
  status_reserved := by simp [blk]
  halt_iff_ill := by simp [blk]

theorem witness_StepKeepsTheInvariant :
    (blk four [0x34030000#32, 1#32] [5#32]).Inv ∧
    step (blk four [0x34030000#32, 1#32] [5#32]) =
      .next (nextOf (step (blk four [0x34030000#32, 1#32] [5#32])) (blk [] [] [])) :=
  ⟨four_inv _ _, step_nextOf _ _⟩

theorem witness_ResetClearsTheBlock :
    ((blk four [0x30000000#32] [1#32]).halt = false ∧ decode (blk four [0x30000000#32] [1#32]).cmd = .incomplete) ∧
    ((blk four [0x30000000#32, 2#32, 7#32] [1#32]).halt = false ∧
      decode (blk four [0x30000000#32, 2#32, 7#32] [1#32]).cmd = .instr (.procHp 0#8 2#32) ∧
      (blk four [0x30000000#32, 2#32, 7#32] [1#32]).din.length < (Instr.procHp 0#8 2#32).beats) := by decide

theorem witness_OneResponsePerCommand :
    (Instr.procHp 0#8 1#32).beats ≤ (blk four [] [5#32]).din.length ∧
    exec (.procHp 0#8 1#32) (blk four [] [5#32]) =
      .next (nextOf (exec (.procHp 0#8 1#32) (blk four [] [5#32])) (blk [] [] [])) := ⟨by decide, exec_nextOf _ _ _⟩

theorem witness_RefusalChangesNothingElse :
    Code.kindMismatch ≠ .ok ∧ Code.kindMismatch ≠ .numNonfinite ∧
    (Instr.procHp 1#8 1#32).beats ≤ (blk four [] [5#32]).din.length ∧
    exec (.procHp 1#8 1#32) (blk four [] [5#32]) =
      .next (nextOf (exec (.procHp 1#8 1#32) (blk four [] [5#32])) (blk [] [] [])) ∧
    (nextOf (exec (.procHp 1#8 1#32) (blk four [] [5#32])) (blk [] [] [])).rsp =
      (blk four [] [5#32]).rsp ++
        [((Instr.procHp 1#8 1#32).op.code ++ (Instr.procHp 1#8 1#32).ctx ++ 0#8 ++ Code.kindMismatch.byte : Word)] :=
  ⟨nofun, nofun, by decide, exec_nextOf _ _ _, by decide +kernel⟩

theorem witness_StatusBitsAreNeverCleared :
    step { blk four [0x4F000000#32] [] with status := 0x10#32 } =
      .next (nextOf (step { blk four [0x4F000000#32] [] with status := 0x10#32 }) (blk [] [] [])) ∧
    ({ blk four [0x4F000000#32] [] with status := 0x10#32 } : State).status.getLsbD 4 = true := ⟨step_nextOf _ _, by decide⟩

theorem witness_CleanStatusMeansNoRefusal :
    step (blk four [0x4F000000#32] []) = .next (nextOf (step (blk four [0x4F000000#32] [])) (blk [] [] [])) ∧
    (nextOf (step (blk four [0x4F000000#32] [])) (blk [] [] [])).refusalFree = true := ⟨step_nextOf _ _, by decide +kernel⟩

theorem witness_OtherContextsAreUntouched :
    exec (.procLp 1#8 1#32) (blk four [] [5#32]) =
      .next (nextOf (exec (.procLp 1#8 1#32) (blk four [] [5#32])) (blk [] [] [])) ∧
    (Instr.procLp 1#8 1#32).context ≠ some 0 ∧
    ∀ c, (Instr.procLp 1#8 1#32).context = some c → Bank.get [(1, lpZero)] c = Bank.get (blk four [] [5#32]).ctx c := by
  refine ⟨exec_nextOf _ _ _, by decide, fun c h => ?_⟩
  have : c = 1 := by simpa [Instr.context, Instr.op, Instr.ctx, Op.namesCtx] using h.symm
  subst this
  decide

theorem witness_OnlyCreationWritesCoefficients :
    exec (.procHp 0#8 1#32) (blk four [] [5#32]) =
      .next (nextOf (exec (.procHp 0#8 1#32) (blk four [] [5#32])) (blk [] [] [])) ∧
    (Instr.procHp 0#8 1#32).creates = false ∧ Bank.get (blk four [] [5#32]).ctx 0 = some hpZero ∧
    Bank.get (nextOf (exec (.procHp 0#8 1#32) (blk four [] [5#32])) (blk [] [] [])).ctx 0 =
      some (.hp half ⟨5#16, 0x4004000000000000#64⟩) := ⟨exec_nextOf _ _ _, rfl, rfl, by decide +kernel⟩

/-- Both clauses: a creation, and a release. -/
theorem witness_LifeChangesOnlyByCreationAndRelease :
    (exec (.createcHp 3#8 half) (blk [] [] []) =
        .next (nextOf (exec (.createcHp 3#8 half) (blk [] [] [])) (blk [] [] [])) ∧
      Bank.get (blk [] [] []).ctx 3 = none ∧
      Bank.get (nextOf (exec (.createcHp 3#8 half) (blk [] [] [])) (blk [] [] [])).ctx 3 ≠ none) ∧
    (exec (.release 0#8) (blk four [] []) = .next (nextOf (exec (.release 0#8) (blk four [] [])) (blk [] [] [])) ∧
      Bank.get (blk four [] []).ctx 0 ≠ none ∧
      Bank.get (nextOf (exec (.release 0#8) (blk four [] [])) (blk [] [] [])).ctx 0 = none) :=
  ⟨⟨exec_nextOf _ _ _, rfl, by decide +kernel⟩, exec_nextOf _ _ _, nofun, by decide +kernel⟩

theorem witness_CommandsOnDifferentContextsCommute :
    let i := Instr.procHp 0#8 1#32
    let j := Instr.procLp 1#8 2#32
    let s := blk four [] []
    let a := nextOf (exec i { s with din := [5#32] ++ [7#32, 9#32] ++ [] }) s
    let a' := nextOf (exec j { s with din := [7#32, 9#32] ++ [5#32] ++ [] }) s
    i.context = some 0 ∧ j.context = some 1 ∧ 0 ≠ 1 ∧ [5#32].length = i.beats ∧ [7#32, 9#32].length = j.beats ∧
    exec i { s with din := [5#32] ++ [7#32, 9#32] ++ [] } = .next a ∧ exec j a = .next (nextOf (exec j a) s) ∧
    exec j { s with din := [7#32, 9#32] ++ [5#32] ++ [] } = .next a' ∧ exec i a' = .next (nextOf (exec i a') s) ∧
    Bank.wf s.par.nctx s.ctx :=
  ⟨rfl, rfl, by decide, rfl, rfl, exec_nextOf _ _ _, exec_nextOf _ _ _, exec_nextOf _ _ _, exec_nextOf _ _ _,
    (four_inv [] []).bank_wf⟩

/-- The first context that does not exist; and a block that has all 256. -/
theorem witness_ContextOutOfRangeIsRefused :
    ((Instr.procHp 4#8 1#32).op.namesCtx = true ∧ (blk four [] [5#32]).par.nctx ≤ (Instr.procHp 4#8 1#32).ctx.toNat ∧
      (Instr.procHp 4#8 1#32).beats ≤ (blk four [] [5#32]).din.length) ∧
    ({ blk four [] [] with par := ⟨256, 5⟩ } : State).par.nctx = 256 := by decide

theorem witness_InactiveContextIsRefused :
    (Instr.stateRd 3#8).op.namesCtx = true ∧ (Instr.stateRd 3#8).creates = false ∧
    (Instr.stateRd 3#8).ctx.toNat < (blk [] [] []).par.nctx ∧ Bank.get (blk [] [] []).ctx (Instr.stateRd 3#8).ctx.toNat = none ∧
    (Instr.stateRd 3#8).beats ≤ (blk [] [] []).din.length := by decide

theorem witness_WrongKindIsRefused :
    (3#8 : Byte).toNat < (blk four [] [5#32]).par.nctx ∧ Bank.get (blk four [] [5#32]).ctx (3#8 : Byte).toNat = some firZero ∧
    firZero.kind ≠ .hp ∧ (1#32 : Word).toNat ≤ (blk four [] [5#32]).din.length ∧
    (∀ kd c len, Instr.stateRd 3#8 ≠ processCommand kd c len) ∧
    exec (.stateRd 3#8) (blk four [] []) = .next (nextOf (exec (.stateRd 3#8) (blk four [] [])) (blk [] [] [])) :=
  ⟨by decide, by decide, by decide, by decide, fun kd _ _ => by cases kd <;> nofun, exec_nextOf _ _ _⟩

/-- One command for each cause of R218 (a) to (e), the context at the last index that exists. -/
theorem witness_InvalidConfigurationIsRefused :
    configRejected 5 (.alphaHp 0x40AF400000000000#64 hz8000) = true ∧
    configRejected 5 (.createBp 3#8 hz1000 0x40AF400000000000#64 hz8000) = true ∧
    configRejected 5 (.bqdBp hz1000 hz8000 0#64) = true ∧
    configRejected 5 (.createFir 3#8 7#16 hz1000 hz8000) = true ∧
    configRejected 5 (.createcFir 3#8 [plusInf]) = true ∧ configRejected 5 (.createcFir 3#8 []) = true ∧
    (3#8 : Byte).toNat < (blk four [] []).par.nctx ∧
    configRejected (blk four [] []).par.nmax (.createcHp 3#8 half) = false ∧
    exec (.createcHp 3#8 half) (blk four [] []) =
      .next (nextOf (exec (.createcHp 3#8 half) (blk four [] [])) (blk [] [] [])) :=
  ⟨by decide +kernel, by decide +kernel, by decide +kernel, by decide +kernel, by decide +kernel, by decide +kernel,
    by decide +kernel, by decide +kernel, exec_nextOf _ _ _⟩

/-- One image for each cause of R220: its length, a Sample, a `Num`, `wp` = N. -/
theorem witness_InvalidImageIsRefused :
    ((1#8 : Byte).toNat < (blk four [] []).par.nctx ∧ Bank.get (blk four [] []).ctx (1#8 : Byte).toNat = some lpZero) ∧
    imageRejected lpZero [0#32, 0#32, 0#32] = true ∧ imageRejected hpZero [0x8000#32, 0#32, 0#32] = true ∧
    imageRejected lpZero [0#32, 0x7FF00000#32] = true ∧ imageRejected firZero [3#32, 0#32, 0#32, 0#32] = true := by
  decide +kernel

theorem witness_NonfiniteValueReleasesTheContext :
    (0#8 : Byte).toNat < (blk [(0, .hp huge ⟨0#16, 0#64⟩)] [] [32767#32]).par.nctx ∧
    Bank.get (blk [(0, .hp huge ⟨0#16, 0#64⟩)] [] [32767#32]).ctx (0#8 : Byte).toNat = some (.hp huge ⟨0#16, 0#64⟩) ∧
    (1#32 : Word).toNat ≤ (blk [(0, .hp huge ⟨0#16, 0#64⟩)] [] [32767#32]).din.length ∧
    runOfKind .hp (.hp huge ⟨0#16, 0#64⟩)
      (((blk [(0, .hp huge ⟨0#16, 0#64⟩)] [] [32767#32]).din.take (1#32 : Word).toNat).map beatS16) = .nonfinite := by
  decide +kernel

theorem witness_CodecBuffersAreElementWise :
    (2#32 : Word).toNat ≤ (blk [] [] [1#32, 2#32]).din.length ∧ (0#32 : Word).toNat ≤ (blk [] [] []).din.length := by decide

/-- Both ends of the first and of the last segment, and a negative number. -/
theorem witness_CodecRoundTripIsLossyAsStated :
    (0 ≤ (0 : Int).natAbs ∧ (0 : Int).natAbs ≤ 255) ∧ (0 ≤ (-255 : Int).natAbs ∧ (-255 : Int).natAbs ≤ 255) ∧
    (16384 ≤ (16384 : Int).natAbs ∧ (16384 : Int).natAbs ≤ 32767) ∧
    (16384 ≤ (-32767 : Int).natAbs ∧ (-32767 : Int).natAbs ≤ 32767) := by decide

theorem witness_SmallIntegersAreExact : (2 ^ 53 : Int).natAbs ≤ 2 ^ 53 ∧ (-2 ^ 53 : Int).natAbs ≤ 2 ^ 53 := by decide

/-- A fraction; 2^53 + 1 units, a tie between 2^53 and 2^53 + 2; and the first magnitude that overflows. -/
theorem witness_RoundingIsToNearest :
    (0 < 3 ∧ F64.finite (F64.roundUnits true 1 3) = true ∧ F64.finite 0x8000000000000001#64 = true) ∧
    (F64.finite (F64.roundUnits false (2 ^ 53 + 1) 1) = true ∧ F64.finite 0x0020000000000001#64 = true ∧
      F64.units 0x0020000000000001#64 ≠ F64.units (F64.roundUnits false (2 ^ 53 + 1) 1) ∧
      (F64.units 0x0020000000000001#64 * (1 : Nat) - ((2 ^ 53 + 1 : Nat) : Int)).natAbs =
        (F64.units (F64.roundUnits false (2 ^ 53 + 1) 1) * (1 : Nat) - ((2 ^ 53 + 1 : Nat) : Int)).natAbs) ∧
    F64.finite (F64.roundUnits true ((2 ^ 54 - 1) * 2 ^ 2044) 1) = false ∧
    F64.finite (F64.roundUnits true ((2 ^ 54 - 1) * 2 ^ 2044 - 1) 1) = true := by decide +kernel

/-- A sum that is zero and one that is not; a divisor that is not zero. -/
theorem witness_OperationsRoundTheExactResult :
    F64.finite F64.one = true ∧ F64.finite (F64.neg F64.one) = true ∧
    F64.units F64.one + F64.units (F64.neg F64.one) = 0 ∧ F64.units F64.one + F64.units F64.one ≠ 0 ∧
    F64.units F64.one ≠ 0 := by decide +kernel

/-- 2.5: a tie. -/
theorem witness_ConversionsTruncateAndRound :
    F64.finite 0x4004000000000000#64 = true ∧
    (2 * (F64.roundHA 0x4004000000000000#64 * 2 ^ 1074 - F64.units 0x4004000000000000#64)).natAbs = 2 ^ 1074 := by
  decide +kernel

theorem witness_SineAndCosineObeyTheirLaws : F64.finite F64.one = true := by decide

theorem witness_AlphaDesignersAnswerTheFormula :
    validFcFs hz1000 hz8000 = true ∧ F64.finite (alphaHP hz1000 hz8000) = true ∧
    F64.finite (alphaLP hz1000 hz8000) = true := by decide +kernel

theorem witness_BandpassBiquadDesignerAnswersTheFormula :
    validBq hzTiny hz8000 F64.one = true ∧ (bqDesignBp hzTiny hz8000 F64.one).allFinite = true := by decide +kernel

theorem witness_HighpassBiquadDesignerAnswersTheFormula :
    validBq hzTiny hz8000 F64.one = true ∧ (bqDesignHp hzTiny hz8000 F64.one).allFinite = true := by decide +kernel

theorem witness_FirDesignerAnswersTheWindowedSinc :
    validFir (blk [] [] []).par.nmax hz1000 hz8000 (1#16 : BitVec 16).toNat = true ∧
    F64.isZero (firSum (firRaw hz1000 hz8000 1)) = false ∧ F64.finite (firSum (firRaw hz1000 hz8000 1)) = true ∧
    (firDesign hz1000 hz8000 1).all F64.finite = true := by decide +kernel

/-- All six, on the last context that exists. -/
theorem witness_CreateGivesDesignedCoefficientsAndZeroState :
    (3#8 : Byte).toNat < (blk four [] []).par.nctx ∧
    configRejected 5 (.createHp 3#8 hz1000 hz8000) = false ∧ configRejected 5 (.createLp 3#8 hz1000 hz8000) = false ∧
    configRejected 5 (.createBp 3#8 hz1000 hz1000 hz8000) = false ∧
    configRejected 5 (.createBqbp 3#8 hzTiny hz8000 F64.one) = false ∧
    configRejected 5 (.createBqhp 3#8 hzTiny hz8000 F64.one) = false ∧
    configRejected 5 (.createFir 3#8 1#16 hz1000 hz8000) = false := by decide +kernel

/-- All five. -/
theorem witness_CreatecGivesGivenCoefficientsAndZeroState :
    (3#8 : Byte).toNat < (blk four [] []).par.nctx ∧
    configRejected 5 (.createcHp 3#8 half) = false ∧ configRejected 5 (.createcLp 3#8 half) = false ∧
    configRejected 5 (.createcBp 3#8 half quarter) = false ∧
    configRejected 5 (.createcBq 3#8 half 0#64 half half quarter) = false ∧
    configRejected 5 (.createcFir 3#8 [half]) = false ∧
    configRejected 5 (.createcFir 3#8 [half, half, half, half, half]) = false := by decide +kernel

/-- The first sample of 5 on each kind: y = 2.5, 1.25, then 1.0 of the cascade, 2.5, 1.25. -/
theorem witness_ProcessingACleanChunkCompletes :
    (3#8 : Byte).toNat < (blk four [] [5#32]).par.nctx ∧ (1#32 : Word).toNat ≤ (blk four [] [5#32]).din.length ∧
    Bank.get (blk four [] [5#32]).ctx (3#8 : Byte).toNat = some firZero ∧
    runOfKind .hp hpZero [5#16] = .done (.hp half ⟨5#16, 0x4004000000000000#64⟩) [2#16] false ∧
    runOfKind .lp lpZero [5#16] = .done (.lp quarter 0x3FF4000000000000#64) [1#16] false ∧
    runOfKind .bp bpZero [5#16] = .done (.bp ⟨half, half⟩ ⟨5#16, 0x4004000000000000#64, F64.one⟩) [1#16] false ∧
    runOfKind .bq bqZero [5#16] =
      .done (.bq ⟨half, 0#64, 0xBFE0000000000000#64, 0xBFE0000000000000#64, quarter⟩
        ⟨5#16, 0#16, 0x4004000000000000#64, 0#64⟩) [3#16] false ∧
    runOfKind .fir firZero [5#16] =
      .done (.fir 3 [quarter, half, quarter] ⟨[5#16, 0#16, 0#16], 1⟩) [1#16] false := by decide +kernel

/-- A context of the kind that runs, and one of another. -/
theorem witness_RecurrenceStepsAreAsWritten : bqZero.kind = .bq ∧ firZero.kind ≠ .bq := by decide

/-- 5 and 5 on the high-pass context: y = 2.5, then 1.25. -/
theorem witness_ChunksProcessAsOneStream :
    runOfKind .hp hpZero [5#16] = .done (.hp half ⟨5#16, 0x4004000000000000#64⟩) [2#16] false ∧
    runOfKind .hp (.hp half ⟨5#16, 0x4004000000000000#64⟩) [5#16] =
      .done (.hp half ⟨5#16, 0x3FF4000000000000#64⟩) [1#16] false := by decide +kernel

/-- Two beats for the high-pass context, and the states after one and after two commands of one beat. -/
def twoBeats : State := blk four [] [5#32, 5#32]
def afterOne : State := nextOf (exec (processCommand .hp 0#8 1#32) twoBeats) twoBeats
def afterTwo : State := nextOf (exec (processCommand .hp 0#8 1#32) afterOne) twoBeats

theorem witness_TwoProcCommandsEqualOne :
    (2#32 : Word).toNat = (1#32 : Word).toNat + (1#32 : Word).toNat ∧ (2#32 : Word).toNat ≤ twoBeats.din.length ∧
    0x30000000#32 = ((processCommand .hp 0#8 1#32).op.code ++ (0#8 : Byte) ++ 0#16 : Word) ∧
    exec (processCommand .hp 0#8 1#32) twoBeats = .next afterOne ∧
    exec (processCommand .hp 0#8 1#32) afterOne = .next afterTwo ∧
    afterOne.rsp = twoBeats.rsp ++ [0x30000000#32] ∧ afterTwo.rsp = twoBeats.rsp ++ [0x30000000#32, 0x30000000#32] ∧
    exec (processCommand .hp 0#8 2#32) twoBeats =
      .next (nextOf (exec (processCommand .hp 0#8 2#32) twoBeats) twoBeats) :=
  ⟨by decide, by decide, by decide, exec_nextOf _ _ _, exec_nextOf _ _ _, by decide +kernel, by decide +kernel,
    exec_nextOf _ _ _⟩

theorem witness_ZeroLengthChangesNothing :
    (Bank.wf (blk four [] []).par.nctx (blk four [] []).ctx ∧
      Bank.get (blk four [] []).ctx (3#8 : Byte).toNat = some firZero ∧ firZero.kind = .fir) ∧
    ((3#8 : Byte).toNat < (blk [] [] []).par.nctx ∧ Bank.get (blk [] [] []).ctx (3#8 : Byte).toNat = none) :=
  ⟨⟨(four_inv [] []).bank_wf, rfl, rfl⟩, by decide, rfl⟩

/-- The block of program P4 before its chunk, after the high-pass command, and after the low-pass command on its output. -/
def p4 : State := blk cascade [] [5#32, 9#32]
def p4High : State := nextOf (exec (.procHp 0#8 2#32) p4) p4
def p4Low : State := nextOf (exec (.procLp 1#8 2#32) { p4High with din := p4High.dout.drop p4.dout.length }) p4

theorem witness_BandpassEqualsTwoSinglePoleContexts :
    (0#8 : Byte) ≠ 1#8 ∧ (2#32 : Word).toNat ≤ p4.din.length ∧
    Bank.get p4.ctx (2#8 : Byte).toNat = some bpZero ∧ Bank.get p4.ctx (0#8 : Byte).toNat = some hpZero ∧
    Bank.get p4.ctx (1#8 : Byte).toNat = some (.lp half 0#64) ∧ (2#8 : Byte).toNat < p4.par.nctx ∧
    exec (.procHp 0#8 2#32) p4 = .next p4High ∧ p4High.rsp = p4.rsp ++ [(0x30#8 ++ (0#8 : Byte) ++ 0#16 : Word)] ∧
    exec (.procLp 1#8 2#32) { p4High with din := p4High.dout.drop p4.dout.length } = .next p4Low ∧
    p4Low.rsp = p4High.rsp ++ [(0x31#8 ++ (1#8 : Byte) ++ 0#16 : Word)] ∧
    exec (.procBp 2#8 2#32) p4 = .next (nextOf (exec (.procBp 2#8 2#32) p4) p4) :=
  ⟨by decide, by decide, by decide, by decide, by decide, by decide, exec_nextOf _ _ _, by decide +kernel,
    exec_nextOf _ _ _, by decide +kernel, exec_nextOf _ _ _⟩

/-- The write position at its last place, so that the chunk wraps. -/
theorem witness_FirHistoryHoldsTheLatestInputs :
    ([7#16, 8#16, 9#16] : List Sample).length = 3 ∧ 2 < 3 ∧
    (firProcess 3 [quarter, half, quarter] ⟨[7#16, 8#16, 9#16], 2⟩ [1#16, 2#16]).isSome = true := by decide +kernel

theorem witness_TapAddressesStayInTheHistory : (2 < 3 ∧ 2 < 3) ∧ (0 < 3 ∧ 2 < 3) ∧ (0 < 1 ∧ 0 < 1) := by decide

theorem witness_FirIsTheDirectConvolution :
    0 < 3 ∧ (firProcess 3 [quarter, half, quarter] ⟨List.replicate 3 0#16, 0⟩ [1#16, 2#16]).isSome = true := by
  decide +kernel

theorem witness_CtxcfgFieldsAreAsTheTable :
    (Context.fir 65535 [] ⟨[], 0⟩).ntaps < 65536 ∧ hpZero.ntaps < 65536 := by decide

theorem witness_ContextReadsAnswerTheImages :
    (3#8 : Byte).toNat < (blk four [] []).par.nctx ∧ Bank.get (blk four [] []).ctx (3#8 : Byte).toNat = some firZero := by
  decide

/-- An image for each kind, the FIR one with `wp` at its last place. -/
theorem witness_StateWriteStoresTheImage :
    ((3#8 : Byte).toNat < (blk four [] []).par.nctx ∧ Bank.get (blk four [] []).ctx (3#8 : Byte).toNat = some firZero) ∧
    imageRejected hpZero [0xFFFF8000#32, 0#32, 0x80000000#32] = false ∧ imageRejected lpZero [1#32, 0#32] = false ∧
    imageRejected bpZero [0x7FFF#32, 0#32, 0#32, 0#32, 0#32] = false ∧
    imageRejected bqZero [0x7D0#32, 0x3E8#32, 0#32, 0x40938800#32, 0#32, 0x407F4000#32] = false ∧
    imageRejected firZero [2#32, 0#32, 0xFFFFFFFF#32, 5#32] = false := by decide +kernel

theorem witness_StateImageRoundTripChangesNothing :
    (blk four [] []).Inv ∧ Bank.get (blk four [] []).ctx (3#8 : Byte).toNat = some firZero := ⟨four_inv _ _, rfl⟩

theorem witness_CommandsComputeThePureFunction :
    (0#8 : Byte).toNat < (blk four [] [5#32]).par.nctx ∧ (blk four [] [5#32]).par.nmax ≤ 65535 ∧
    Bank.get (blk four [] [5#32]).ctx (0#8 : Byte).toNat = some hpZero ∧
    (Context.hp half ⟨5#16, 0x4004000000000000#64⟩).coefPart = hpZero.coefPart ∧
    (Context.hp half ⟨5#16, 0x4004000000000000#64⟩).ok (blk four [] [5#32]).par.nmax = true ∧
    (1#32 : Word).toNat ≤ (blk four [] [5#32]).din.length ∧
    runOfKind .hp (.hp half ⟨5#16, 0x4004000000000000#64⟩)
      (((blk four [] [5#32]).din.take (1#32 : Word).toNat).map beatS16) =
      .done (.hp half ⟨5#16, 0x3FF4000000000000#64⟩) [1#16] false := by decide +kernel

theorem witness_CoefficientImageReplaysAsCreatec :
    (3#8 : Byte).toNat < (blk four [] []).par.nctx ∧ (blk four [] []).par.nmax ≤ 65535 ∧
    hpZero.ok 5 = true ∧ lpZero.ok 5 = true ∧ bpZero.ok 5 = true ∧ bqZero.ok 5 = true ∧ firZero.ok 5 = true := by
  decide +kernel

theorem witness_ReleaseEndsTheContext :
    (3#8 : Byte).toNat < (blk four [] []).par.nctx ∧ Bank.get (blk four [] []).ctx (3#8 : Byte).toNat = some firZero := by
  decide

theorem witness_StatusReadAnswersStatus :
    ((blk four [0x4F000000#32] []).halt = false ∧ (blk four [0x4F000000#32] []).cmd = 0x4F000000#32 :: []) ∧
    ({ blk four [0x4F000000#32] [] with halt := true }.halt = true ∧
      { blk four [0x4F000000#32] [] with halt := true }.cmd = 0x4F000000#32 :: []) := by decide

end Sys2Proof.Tests
end

/-! ## The invariant of the block, and the frame of a command (R7, R20, R31, R32, R50, R52, R75)

`Ends` says how a command ends; the lemmas here read off it what happens to the bank, to `STATUS` and to the streams. -/

namespace Sys2Proof.Machine

@[simp] theorem State.taken_par (s : State) (i : Instr) : (s.taken i).par = s.par := rfl
@[simp] theorem State.taken_ctx (s : State) (i : Instr) : (s.taken i).ctx = s.ctx := rfl
@[simp] theorem State.taken_status (s : State) (i : Instr) : (s.taken i).status = s.status := rfl
@[simp] theorem State.taken_rsp (s : State) (i : Instr) : (s.taken i).rsp = s.rsp := rfl
@[simp] theorem State.taken_dout (s : State) (i : Instr) : (s.taken i).dout = s.dout := rfl

@[simp] theorem refuseIllegal_par (h : Word) (s : State) : (refuseIllegal h s).par = s.par := rfl
@[simp] theorem refuseIllegal_ctx (h : Word) (s : State) : (refuseIllegal h s).ctx = s.ctx := rfl
@[simp] theorem refuseIllegal_status (h : Word) (s : State) :
    (refuseIllegal h s).status = s.status ||| Flag.ill := rfl
@[simp] theorem refuseIllegal_halt (h : Word) (s : State) : (refuseIllegal h s).halt = true := rfl

/-! ### The bank -/

/-- A bank in canonical form whose contexts hold values of their kind (R20, R21, R28). -/
def Bank.Sound (p : Params) (b : Bank) : Prop := Bank.wf p.nctx b ∧ ∀ e ∈ b, e.2.ok p.nmax = true

theorem Bank.Sound.get {p : Params} {b : Bank} (h : b.Sound p) {c : Nat} {k : Context} (hk : Bank.get b c = some k) :
    k.ok p.nmax = true :=
  h.2 _ (Bank.mem_of_get hk)

theorem Bank.Sound.set {p : Params} {b : Bank} (h : b.Sound p) {c : Nat} {k : Context} (hc : c < p.nctx)
    (hk : k.ok p.nmax = true) : (Bank.set b c k).Sound p := by
  refine ⟨Bank.set_wf k hc h.1, fun e he => ?_⟩
  rcases Bank.mem_set he with rfl | he
  · exact hk
  · exact h.2 e he

theorem Bank.Sound.erase {p : Params} {b : Bank} (h : b.Sound p) (c : Nat) : (Bank.erase b c).Sound p :=
  ⟨Bank.erase_wf c h.1, fun e he => h.2 e (Bank.mem_erase he)⟩

/-- Every way a command ends keeps the bank sound: it is left alone, loses a context, or gets one that is right. -/
theorem Ends.bank_sound {i : Instr} {s t : State} (h : Ends i s t) (hs : s.ctx.Sound s.par) : t.ctx.Sound s.par := by
  cases h with
  | refused | answered | coded => exact hs
  | nonfinite | released => exact hs.erase _
  | created _ _ _ _ hr hk => exact hs.set hr hk
  | processed _ _ _ _ _ _ hr hk _ hok => exact hs.set hr (hok (hs.get hk))
  | loaded _ _ _ _ _ hr hk _ hok => exact hs.set hr (hok (hs.get hk))

/-! ### `STATUS` -/

theorem Flag.ofOvf_reserved (b : Bool) : Flag.ofOvf b &&& Flag.reserved = 0#32 := by cases b <;> decide

theorem Flag.ofOvf_ill (b : Bool) : Flag.ofOvf b &&& Flag.ill = 0#32 := by cases b <;> decide

/-- The flags a command sets are neither reserved bits nor `STATUS.ILL` (R31, R213, R214). -/
theorem Ends.status_flags {i : Instr} {s t : State} (h : Ends i s t) :
    ∃ f, t.status = s.status ||| f ∧ f &&& Flag.reserved = 0#32 ∧ f &&& Flag.ill = 0#32 := by
  cases h with
  | refused code _ hill => exact ⟨code.flag, rfl, code.flag_reserved, Code.flag_ill hill⟩
  | nonfinite => exact ⟨Flag.numerr, rfl, Code.flag_reserved .numNonfinite, Code.flag_ill (code := .numNonfinite) nofun⟩
  | processed _ _ _ ovf => exact ⟨Flag.ofOvf ovf, rfl, Flag.ofOvf_reserved ovf, Flag.ofOvf_ill ovf⟩
  | answered | coded | created | loaded | released => exact ⟨0#32, BitVec.or_zero.symm, BitVec.zero_and, BitVec.zero_and⟩

/-- Setting other bits leaves a masked field as it was. -/
theorem or_and_of_and_eq_zero {x f m : BitVec 32} (h : f &&& m = 0#32) : (x ||| f) &&& m = x &&& m := by
  rw [BitVec.and_or_distrib_right, h, BitVec.or_zero]

/-! ### The invariant -/

theorem State.Inv.bank_sound {s : State} (h : s.Inv) : s.ctx.Sound s.par := ⟨h.bank_wf, h.contexts_ok⟩

theorem Ends.keeps_inv {i : Instr} {s t : State} (h : Ends i s t) (hs : s.Inv) : t.Inv := by
  obtain ⟨f, hf, hres, hill⟩ := h.status_flags
  obtain ⟨hwf, hok⟩ := h.bank_sound hs.bank_sound
  constructor
  case nctx_range => exact h.par ▸ hs.nctx_range
  case nmax_range => exact h.par ▸ hs.nmax_range
  case bank_wf => exact h.par ▸ hwf
  case contexts_ok => exact h.par ▸ hok
  case status_reserved => rw [hf, or_and_of_and_eq_zero hres, hs.status_reserved]
  case halt_iff_ill => rw [h.halt, hf, or_and_of_and_eq_zero hill, hs.halt_iff_ill]

theorem refuseIllegal_keeps_inv (h : Word) {s : State} (hs : s.Inv) : (refuseIllegal h s).Inv := by
  constructor
  case nctx_range => exact hs.nctx_range
  case nmax_range => exact hs.nmax_range
  case bank_wf => exact hs.bank_wf
  case contexts_ok => exact hs.contexts_ok
  case status_reserved =>
    have hres : Flag.ill &&& Flag.reserved = 0#32 := Code.flag_reserved .illegal
    rw [refuseIllegal_status, or_and_of_and_eq_zero hres, hs.status_reserved]
  case halt_iff_ill =>
    have set : (s.status ||| Flag.ill) &&& Flag.ill = Flag.ill := by ext j hj; simp +contextual
    simp only [refuseIllegal_halt, refuseIllegal_status, set, true_iff]
    decide

/-- Settles O10: a step changes nothing, halts the block on an illegal header, or runs a command to one of its ends. -/
theorem stepKeepsTheInvariant : Obligations.StepKeepsTheInvariant := by
  intro s t hs h
  rcases step_cases h with rfl | ⟨-, h0, -, -, rfl⟩ | ⟨-, i, -, -, -, hends⟩
  · exact hs
  · exact refuseIllegal_keeps_inv h0 hs
  · exact hends.keeps_inv hs

/-- Settles O11, from the ranges of the parameters of `Config`. -/
theorem resetMeetsTheInvariant : Obligations.ResetMeetsTheInvariant := by
  have hc := Config.nctxLess1.isLt
  have hm := Config.nmaxHalf.isLt
  constructor
  case nctx_range => simp only [State.reset, Config.nctx]; omega
  case nmax_range => simp only [State.reset, Config.nmax]; omega
  case bank_wf => exact Bank.reset_wf
  case contexts_ok => exact nofun
  case status_reserved => rfl
  case halt_iff_ill => decide

/-! ### One response -/

/-- A command takes exactly its words and its beats (R52, R72). -/
theorem Ends.streams {i : Instr} {s t : State} (h : Ends i s t) :
    t.cmd = s.cmd.drop i.numWords ∧ t.din = s.din.drop i.beats := by
  cases h <;> exact ⟨rfl, rfl⟩

/-- A command answers one header with a code, a payload only with `OK`, and as many output beats as it accepted (R50, R75). -/
theorem Ends.response {i : Instr} {s t : State} (h : Ends i s t) :
    ∃ (code : Code) (payload out : List Word),
      t.rsp = s.rsp ++ respHeader i.op i.ctx code :: payload ∧ t.dout = s.dout ++ out ∧
      (code = .ok → out.length = i.beats) ∧ (code ≠ .ok → payload = [] ∧ out = []) := by
  cases h with
  | refused code h1 => exact ⟨code, [], [], rfl, (List.append_nil _).symm, fun h => absurd h h1, fun _ => ⟨rfl, rfl⟩⟩
  | nonfinite => exact ⟨.numNonfinite, [], [], rfl, (List.append_nil _).symm, nofun, fun _ => ⟨rfl, rfl⟩⟩
  | answered payload _ hb => exact ⟨.ok, payload, [], rfl, (List.append_nil _).symm, fun _ => hb.symm, fun h => absurd rfl h⟩
  | coded out _ _ ho => exact ⟨.ok, [], out, rfl, rfl, fun _ => ho, fun h => absurd rfl h⟩
  | processed _ _ out _ _ _ _ _ _ _ ho => exact ⟨.ok, [], out, rfl, rfl, fun _ => ho, fun h => absurd rfl h⟩
  | created _ _ _ hb | loaded _ _ _ _ hb | released _ _ hb =>
    exact ⟨.ok, [], [], rfl, (List.append_nil _).symm, fun _ => hb.symm, fun h => absurd rfl h⟩

/-- Settles O13, over the ways a command ends. -/
theorem oneResponsePerCommand : Obligations.OneResponsePerCommand := by
  intro i s t hb h
  have hends := exec_ends h hb
  obtain ⟨hcmd, hdin⟩ := hends.streams
  exact ⟨hcmd, hdin, hends.halt, hends.par, hends.response⟩

end Sys2Proof.Machine

/-! ## Narrowing and the recurrences (R16, R18, R126, R127, R143, R156, R176) -/

namespace Sys2Proof.Machine

/-- Settles O35: the clamped integer fits in 16 bits, so its image is read back as it is. -/
theorem narrow16Clamps : Obligations.Narrow16Clamps := by
  intro k
  constructor
  · rw [narrow16, BitVec.toInt_ofInt, Int.bmod_eq_of_le (by omega) (by omega)]
    split
    · omega
    · split <;> omega
  · simp [saturates]

theorem ofRun_ne_mismatch {σ : Type} (mk : σ → Context) (r : Option (Run σ)) : ofRun mk r ≠ .mismatch := by
  cases r <;> exact nofun

/-- A chunk with one sample more at its front: the step on that sample, then the rest from the state after it (R18). -/
theorem ofRun_process_cons {σ : Type} (mk : σ → Context) (step : σ → Sample → Option (StepOut σ)) (st : σ) (x : Sample)
    (xs : List Sample) :
    ofRun mk (process step st (x :: xs)) =
      match step st x with
      | none => .nonfinite
      | some o => (ofRun mk (process step o.st xs)).cons o.out o.ovf := by
  rw [process_cons]
  cases step st x with
  | none => rfl
  | some o =>
    simp only [Option.bind_some]
    cases process step o.st xs <;> rfl

/-- A context of the kind that runs is no mismatch (R211). -/
theorem runOfKind_self (k : Context) (xs : List Sample) : runOfKind k.kind k xs ≠ .mismatch := by
  cases k <;> exact ofRun_ne_mismatch _ _

theorem runOfKind_eq_mismatch_iff (kd : Kind) (k : Context) (xs : List Sample) :
    runOfKind kd k xs = .mismatch ↔ k.kind ≠ kd := by
  constructor
  · rintro h rfl
    exact runOfKind_self k xs h
  · intro h
    cases kd <;> cases k <;> simp [runOfKind, runHp, runLp, runBp, runBq, runFir, Context.kind] at h ⊢

theorem runOfKind_nil (k : Context) : runOfKind k.kind k [] = .done k [] false := by
  cases k <;> rfl

/-- Settles O44: the steps are their definitions, and a `PROC` command folds the step of its kind over the chunk, BP by the
runs of its two stages. -/
theorem recurrenceStepsAreAsWritten : Obligations.RecurrenceStepsAreAsWritten := by
  refine ⟨fun _ _ _ => rfl, fun _ _ _ => rfl, fun _ _ _ => rfl, fun _ _ _ _ => rfl, ?kinds, ?hp, ?lp, ?bq, ?fir, ?bp⟩
  case kinds =>
    refine fun kd k xs => ⟨runOfKind_eq_mismatch_iff kd k xs, ?_⟩
    rintro rfl
    exact runOfKind_nil k
  case hp => exact fun alpha st x xs =>
    (ofRun_process_cons (.hp alpha) (hpStep alpha) st x xs).trans (by cases hpStep alpha st x <;> rfl)
  case lp => exact fun alpha st x xs =>
    (ofRun_process_cons (.lp alpha) (lpStep alpha) st x xs).trans (by cases lpStep alpha st x <;> rfl)
  case bq => exact fun co st x xs => (ofRun_process_cons (.bq co) (bqStep co) st x xs).trans (by cases bqStep co st x <;> rfl)
  case fir => exact fun n cs st x xs =>
    (ofRun_process_cons (.fir n cs) (firStep n cs) st x xs).trans (by cases firStep n cs st x <;> rfl)
  case bp =>
    intro co st xs
    simp only [runOfKind, runBp, runHp, runLp, bpProcess]
    cases hpProcess co.alphaHP ⟨st.prevInHP, st.prevOutHP⟩ xs with
    | none => rfl
    | some u =>
      simp only [ofRun]
      cases lpProcess co.alphaLP st.prevOutLP u.ys <;> rfl

end Sys2Proof.Machine

namespace Sys2Proof.F64

/-! ### `SIN` and `COS` (R15) -/

theorem inUnit_iff (v : Num) : inUnit v = true ↔ finite v = true ∧ le (neg one) v = true ∧ le v one = true := by
  simp [inUnit, and_assoc]

theorem inUnit_zero : inUnit zero = true := by decide

theorem inUnit_one : inUnit one = true := by decide

theorem inUnit_sin {v : Num} (h : finite v = true) : inUnit (sin v) = true := by
  unfold sin
  split
  · exact inUnit_zero
  · split
    · exact inUnit_zero
    · simp_all

theorem inUnit_cos {v : Num} (h : finite v = true) : inUnit (cos v) = true := by
  unfold cos
  split
  · exact inUnit_one
  · split
    · exact inUnit_one
    · simp_all

/-- Settles O36: where the free function leaves [−1, 1], `sin` and `cos` answer a value in it. -/
theorem sineAndCosineObeyTheirLaws : Obligations.SineAndCosineObeyTheirLaws := by
  refine ⟨if_pos rfl, if_pos rfl, fun v hv => ?_⟩
  obtain ⟨hs, hs', hs''⟩ := (inUnit_iff _).1 (inUnit_sin hv)
  exact ⟨hs, hs', hs'', (inUnit_iff _).1 (inUnit_cos hv)⟩

end Sys2Proof.F64

/-! ## The image of a magnitude (R13)

`magValue m` is the magnitude, in units of 2^−1074, of a value with the image `m` below its sign. Every image is
`k * 2^52 + q` for a scale `k` and a significand `q < 2^53` that is normal or has `k = 0`; its value is `q * 2^k`. -/

namespace Sys2Proof.F64

/-- The magnitude, in units of 2^−1074, whose image without the sign is `m`. -/
def magValue (m : Nat) : Nat := (m - (m / 2 ^ 52 - 1) * 2 ^ 52) * 2 ^ (m / 2 ^ 52 - 1)

theorem magUnits_eq_magValue (v : Num) : magUnits v = magValue (magBits v) := by
  unfold magUnits magValue expField fracField
  generalize magBits v = m
  split
  · rename_i h
    rw [h, Nat.zero_sub, Nat.zero_mul, Nat.sub_zero, Nat.pow_zero, Nat.mul_one]
    omega
  · rw [Nat.shiftLeft_eq]
    congr 1
    omega

/-- The value of an image from its scale and its significand; the carry `q = 2^53` is the next scale's `2^52`. -/
theorem magValue_scaled {k q : Nat} (hq : q ≤ 2 ^ 53) (hk : k = 0 ∨ 2 ^ 52 ≤ q) :
    magValue (k * 2 ^ 52 + q) = q * 2 ^ k := by
  unfold magValue
  rcases Nat.lt_or_ge q (2 ^ 53) with h | h
  · have hdiv : (k * 2 ^ 52 + q) / 2 ^ 52 - 1 = k := by omega
    rw [hdiv, Nat.add_sub_cancel_left]
  · have hdiv : (k * 2 ^ 52 + q) / 2 ^ 52 - 1 = k + 1 := by omega
    have hsig : k * 2 ^ 52 + q - (k + 1) * 2 ^ 52 = 2 ^ 52 := by omega
    obtain rfl : q = 2 ^ 53 := by omega
    rw [hdiv, hsig, ← Nat.pow_add, ← Nat.pow_add, show 52 + (k + 1) = 53 + k by omega]

/-- Every image has a scale and a significand. -/
theorem exists_scaled (m : Nat) : ∃ k q, m = k * 2 ^ 52 + q ∧ q < 2 ^ 53 ∧ (k = 0 ∨ 2 ^ 52 ≤ q) :=
  ⟨m / 2 ^ 52 - 1, m - (m / 2 ^ 52 - 1) * 2 ^ 52, by omega, by omega, by omega⟩

theorem magValue_strictMono : StrictMono magValue := by
  refine strictMono_nat_of_lt_succ fun m => ?_
  obtain ⟨k, q, rfl, hq, hk⟩ := exists_scaled m
  rw [magValue_scaled hq.le hk, Nat.add_assoc, magValue_scaled hq (by omega)]
  exact Nat.mul_lt_mul_of_pos_right (Nat.lt_succ_self q) (Nat.two_pow_pos k)

theorem magValue_eq_zero {m : Nat} : magValue m = 0 ↔ m = 0 :=
  magValue_strictMono.injective.eq_iff (a := m) (b := 0)

/-- Twice a value has an image, at most one scale further. -/
theorem exists_magValue_double (m : Nat) : ∃ m', magValue m' = 2 * magValue m ∧ m' ≤ m + 2 ^ 52 := by
  obtain ⟨k, q, rfl, hq, hk⟩ := exists_scaled m
  rw [magValue_scaled hq.le hk]
  rcases Nat.lt_or_ge q (2 ^ 52) with h | h
  · obtain rfl : k = 0 := by omega
    refine ⟨0 * 2 ^ 52 + 2 * q, ?_, by omega⟩
    rw [magValue_scaled (by omega) (.inl rfl), Nat.mul_assoc]
  · refine ⟨(k + 1) * 2 ^ 52 + q, ?_, by omega⟩
    rw [magValue_scaled hq.le (.inr h), Nat.pow_succ', Nat.mul_left_comm]

/-- An integer of at most 53 bits, or 2^53, times a power of two has an image. -/
theorem exists_magValue_mul_two_pow {f : Nat} (hf : f ≤ 2 ^ 53) (e : Nat) :
    ∃ m, magValue m = f * 2 ^ e ∧ m ≤ f + e * 2 ^ 52 := by
  induction e with
  | zero => exact ⟨0 * 2 ^ 52 + f, magValue_scaled hf (.inl rfl), by omega⟩
  | succ e ih =>
    obtain ⟨m, hm, hle⟩ := ih
    obtain ⟨m', hm', hle'⟩ := exists_magValue_double m
    exact ⟨m', by rw [hm', hm, Nat.pow_succ', Nat.mul_left_comm], by omega⟩

/-! ### The fields of a value and of its parts -/

theorem sign_eq_decide (v : Num) : sign v = decide (2 ^ 63 ≤ v.toNat) := by
  have := v.isLt
  rw [sign, BitVec.getLsbD, Nat.testBit_eq_decide_div_mod_eq]
  exact decide_eq_decide.2 (by omega)

theorem toNat_ofSignMag {neg : Bool} {m : Nat} (h : m < 2 ^ 63) :
    (ofSignMag neg m).toNat = if neg then 2 ^ 63 + m else m := by
  rw [ofSignMag, BitVec.toNat_ofNat]
  split <;> omega

theorem sign_ofSignMag {neg : Bool} {m : Nat} (h : m < 2 ^ 63) : sign (ofSignMag neg m) = neg := by
  rw [sign_eq_decide, toNat_ofSignMag h]
  cases neg <;> simp; omega

theorem units_ofSignMag {neg : Bool} {m : Nat} (h : m < 2 ^ 63) :
    units (ofSignMag neg m) = if neg then -(magValue m : Int) else (magValue m : Int) := by
  rw [units, sign_ofSignMag h, magUnits_eq_magValue, magBits_ofSignMag h]

theorem magBits_lt (v : Num) : magBits v < 2 ^ 63 := Nat.mod_lt _ (Nat.two_pow_pos 63)

theorem finite_iff {v : Num} : finite v = true ↔ magBits v < 2047 * 2 ^ 52 := by
  have := magBits_lt v
  simp only [finite, expField, bne_iff_ne]
  omega

/-- A value is its sign and the image of its magnitude. -/
theorem ofSignMag_fields (v : Num) : ofSignMag (sign v) (magBits v) = v := by
  have hv := v.isLt
  apply BitVec.eq_of_toNat_eq
  rw [toNat_ofSignMag (magBits_lt v), sign_eq_decide, magBits]
  simp only [decide_eq_true_eq]
  split <;> omega

theorem natAbs_units (v : Num) : (units v).natAbs = magUnits v := by
  unfold units
  split
  · exact Int.natAbs_neg _
  · rfl

end Sys2Proof.F64

/-! ### The arithmetic operations (R13) and the conversions (R14) -/

namespace Sys2Proof.F64

theorem sign_neg (v : Num) : sign (neg v) = !sign v := by simp [sign, neg]

theorem magBits_neg (v : Num) : magBits (neg v) = magBits v := by
  have h : (0x8000000000000000#64).toNat % 2 ^ 63 = 0 := by decide
  rw [magBits, neg, BitVec.toNat_xor, Nat.xor_mod_two_pow, h, Nat.xor_zero, magBits]

theorem units_neg (v : Num) : units (neg v) = -units v := by
  unfold units
  rw [sign_neg, magUnits_eq_magValue, magBits_neg, ← magUnits_eq_magValue]
  cases sign v <;> simp

theorem isZero_eq_false {v : Num} (h : units v ≠ 0) : isZero v = false := by
  rw [← Int.natAbs_ne_zero, natAbs_units, magUnits_eq_magValue, ne_eq, magValue_eq_zero] at h
  simp [isZero, h]

/-- The key that orders the images orders the values. -/
theorem orderKey_lt_iff (a b : Num) : orderKey a < orderKey b ↔ units a < units b := by
  have hlt := magValue_strictMono.lt_iff_lt (a := magBits a) (b := magBits b)
  have hgt := magValue_strictMono.lt_iff_lt (a := magBits b) (b := magBits a)
  have ha := magValue_eq_zero (m := magBits a)
  have hb := magValue_eq_zero (m := magBits b)
  rw [orderKey, orderKey, units, units, magUnits_eq_magValue, magUnits_eq_magValue]
  split <;> split <;> omega

theorem lt_iff {a b : Num} (ha : finite a = true) (hb : finite b = true) : lt a b = true ↔ units a < units b := by
  simp [lt, isNaN_of_finite ha, isNaN_of_finite hb, orderKey_lt_iff]

theorem le_iff {a b : Num} (ha : finite a = true) (hb : finite b = true) : le a b = true ↔ units a ≤ units b := by
  have h := lt_eq_not_le (isNaN_of_finite hb) (isNaN_of_finite ha)
  rw [← Int.not_lt, ← lt_iff hb ha, h]
  simp

theorem mul_eq {a b : Num} (ha : finite a = true) (hb : finite b = true) :
    mul a b = roundUnits (sign a != sign b) ((units a).natAbs * (units b).natAbs) (2 ^ 1074) := by
  unfold mul
  generalize 1074 = e
  rw [isNaN_of_finite ha, isNaN_of_finite hb, isInf_of_finite ha, isInf_of_finite hb, natAbs_units, natAbs_units,
    Nat.one_shiftLeft, Bool.or_self, if_neg Bool.false_ne_true, if_neg Bool.false_ne_true, if_neg Bool.false_ne_true]

theorem div_eq {a b : Num} (ha : finite a = true) (hb : finite b = true) (h0 : units b ≠ 0) :
    div a b = roundUnits (sign a != sign b) ((units a).natAbs * 2 ^ 1074) (units b).natAbs := by
  unfold div
  generalize 1074 = e
  rw [isNaN_of_finite ha, isNaN_of_finite hb, isInf_of_finite ha, isInf_of_finite hb, isZero_eq_false h0,
    natAbs_units, natAbs_units, Nat.shiftLeft_eq, Bool.or_self, if_neg Bool.false_ne_true, if_neg Bool.false_ne_true,
    if_neg Bool.false_ne_true, if_neg Bool.false_ne_true]

theorem add_eq {a b : Num} (ha : finite a = true) (hb : finite b = true) :
    add a b = if units a + units b = 0 then ofSignMag (sign a && sign b) 0
      else roundUnits (decide (units a + units b < 0)) (units a + units b).natAbs 1 := by
  rw [add, isNaN_of_finite ha, isNaN_of_finite hb, isInf_of_finite ha, isInf_of_finite hb, Bool.or_self,
    if_neg Bool.false_ne_true, if_neg Bool.false_ne_true, if_neg Bool.false_ne_true]

/-- Settles O33: no operand is a NaN or an infinity, which leaves of each operation its rounding. -/
theorem operationsRoundTheExactResult : Obligations.OperationsRoundTheExactResult := by
  intro a b ha hb
  refine ⟨?_, units_neg b, rfl, mul_eq ha hb, div_eq ha hb, lt_iff ha hb, le_iff ha hb⟩
  rw [add_eq ha hb]
  congr 1
  cases sign a <;> cases sign b <;> rfl

/-! ### Conversions -/

theorem trunc_eq_tdiv (v : Num) : trunc v = (units v).tdiv (2 ^ 1074) := by
  unfold trunc units
  generalize 1074 = e
  rw [Nat.shiftRight_eq_div_pow]
  split <;> simp [Int.neg_tdiv]

/-- `M / (2 * h)` with its half rounded up is at distance at most one half, and above at exactly that distance. -/
theorem add_half_div_nearest (M : Nat) {h m : Nat} (hh : 0 < h) (hm : m = (M + h) / (2 * h)) :
    (2 * ((m * (2 * h) : Nat) - (M : Int))).natAbs ≤ 2 * h ∧
    ((2 * ((m * (2 * h) : Nat) - (M : Int))).natAbs = 2 * h → M < m * (2 * h)) := by
  have hle := Nat.div_mul_le_self (M + h) (2 * h)
  have hlt := Nat.lt_div_mul_add (a := M + h) (b := 2 * h) (by omega)
  rw [← hm] at hle hlt
  omega

theorem roundHA_nearest (v : Num) :
    (2 * (roundHA v * 2 ^ 1074 - units v)).natAbs ≤ 2 ^ 1074 ∧
    ((2 * (roundHA v * 2 ^ 1074 - units v)).natAbs = 2 ^ 1074 → (units v).natAbs < (roundHA v * 2 ^ 1074).natAbs) := by
  unfold roundHA units
  generalize hd : 1073 = d
  have he : 1074 = d + 1 := by omega
  rw [he, Nat.shiftRight_eq_div_pow, Nat.one_shiftLeft, ← Nat.cast_ofNat, ← Nat.cast_pow, Nat.pow_succ']
  have hnear := add_half_div_nearest (magUnits v) (Nat.two_pow_pos d) rfl
  generalize (magUnits v + 2 ^ d) / (2 * 2 ^ d) = m at hnear ⊢
  dsimp only
  split
  · rw [Int.neg_mul, ← Int.natCast_mul]; omega
  · rw [← Int.natCast_mul]; omega

/-- Settles O34: `trunc` divides the magnitude, `roundHA` the magnitude and one half more. -/
theorem conversionsTruncateAndRound : Obligations.ConversionsTruncateAndRound := by
  intro v _
  exact ⟨trunc_eq_tdiv v, roundHA_nearest v⟩

end Sys2Proof.F64

/-! ## Rounding (R13)

`roundUnits` keeps a significand of at most 53 bits at the scale `roundScale`, the least at which the quotient has no
more; there it is the nearest integer, ties to even. No finite value lies nearer, because below that scale's first
normal value there is nothing near enough, and from it on every value is a multiple of the scale's unit. -/

namespace Sys2Proof.F64

/-- `nearestEven` by its cases: quotient and remainder, the half against the remainder. -/
theorem nearestEven_cases (n : Nat) {d : Nat} (hd : 0 < d) :
    ∃ q r, n = q * d + r ∧ r < d ∧
      ((2 * r < d ∧ nearestEven n d = q) ∨ (d < 2 * r ∧ nearestEven n d = q + 1) ∨
       (2 * r = d ∧ nearestEven n d = q + q % 2)) := by
  refine ⟨n / d, n % d, (Nat.div_add_mod' n d).symm, Nat.mod_lt n hd, ?_⟩
  simp only [nearestEven]
  split
  · exact .inl ⟨‹_›, rfl⟩
  · split
    · exact .inr (.inl ⟨‹_›, rfl⟩)
    · exact .inr (.inr ⟨by omega, rfl⟩)

/-- The integer chosen is at distance at most one half, and even at exactly that distance. -/
theorem nearestEven_within_half (n : Nat) {d : Nat} (hd : 0 < d) :
    2 * ((nearestEven n d : Int) * d - n).natAbs ≤ d ∧
    (2 * ((nearestEven n d : Int) * d - n).natAbs = d → nearestEven n d % 2 = 0) := by
  obtain ⟨q, r, hn, hr, hcases⟩ := nearestEven_cases n hd
  rw [← Int.natCast_mul]
  rcases (show (nearestEven n d = q ∧ 2 * r ≤ d) ∨ (nearestEven n d = q + 1 ∧ d ≤ 2 * r) by omega)
    with ⟨h, hle⟩ | ⟨h, hle⟩
  · rw [h]
    omega
  · rw [h, Nat.add_mul, Nat.one_mul]
    omega

/-- Another integer is further away, or as far away from a choice that is even. -/
theorem nearestEven_nearest (n : Nat) {d : Nat} (hd : 0 < d) (j : Int) :
    ((nearestEven n d : Int) * d - n).natAbs < (j * d - n).natAbs ∨
    (((nearestEven n d : Int) * d - n).natAbs = (j * d - n).natAbs ∧ (j = nearestEven n d ∨ nearestEven n d % 2 = 0)) := by
  obtain ⟨hhalf, htie⟩ := nearestEven_within_half n hd
  rcases eq_or_ne j (nearestEven n d) with rfl | hj
  · exact .inr ⟨rfl, .inl rfl⟩
  · have hgap : d ≤ (j * d - nearestEven n d * d).natAbs := by
      rw [← Int.sub_mul, Int.natAbs_mul, Int.natAbs_natCast]
      exact Nat.le_mul_of_pos_left d (by omega)
    omega

theorem div_le_nearestEven (n d : Nat) : n / d ≤ nearestEven n d := by
  simp only [nearestEven]
  split_ifs <;> omega

theorem nearestEven_le_div_succ (n d : Nat) : nearestEven n d ≤ n / d + 1 := by
  simp only [nearestEven]
  split_ifs <;> omega

/-- An even integer is reached from the midpoint below it on. -/
theorem even_le_nearestEven_iff (n : Nat) {d p : Nat} (hd : 0 < d) (hp : p % 2 = 0) :
    p ≤ nearestEven n d ↔ 2 * (p * d) ≤ 2 * n + d := by
  obtain ⟨q, r, rfl, hr, hcases⟩ := nearestEven_cases n hd
  rcases (show p ≤ q ∨ p = q + 1 ∨ q + 2 ≤ p by omega) with h | h | h
  · have := Nat.mul_le_mul_right d h
    omega
  · rw [h, Nat.add_mul, Nat.one_mul]
    omega
  · have := Nat.mul_le_mul_right d h
    rw [Nat.add_mul] at this
    omega

/-! ### Scale and significand -/

/-- The scale at which `n / d` has at most 53 bits. -/
def roundScale (n d : Nat) : Nat := (n / d).log2 + 1 - 53

/-- The significand kept at that scale. -/
def roundSig (n d : Nat) : Nat := nearestEven n (d * 2 ^ roundScale n d)

theorem roundMag_eq (n d : Nat) : roundMag n d = min (roundScale n d * 2 ^ 52 + roundSig n d) (2047 * 2 ^ 52) := by
  simp only [roundMag, roundScale, roundSig, Nat.shiftLeft_eq]

theorem scaled_pos {d : Nat} (hd : 0 < d) (k : Nat) : 0 < d * 2 ^ k := Nat.mul_pos hd (Nat.two_pow_pos k)

theorem lt_scaled (n : Nat) {d : Nat} (hd : 0 < d) : n < 2 ^ 53 * (d * 2 ^ roundScale n d) := by
  have hlog : n / d < 2 ^ (53 + roundScale n d) :=
    Nat.lt_log2_self.trans_le (Nat.pow_le_pow_right (by omega) (by unfold roundScale; omega))
  rw [Nat.div_lt_iff_lt_mul hd, Nat.pow_add] at hlog
  rwa [Nat.mul_comm d, ← Nat.mul_assoc]

theorem scaled_le (n : Nat) {d : Nat} (hd : 0 < d) :
    roundScale n d = 0 ∨ 2 ^ 52 * (d * 2 ^ roundScale n d) ≤ n := by
  rcases Nat.eq_zero_or_pos (roundScale n d) with h | h
  · exact .inl h
  · have hlog2 : (n / d).log2 = 52 + roundScale n d := by unfold roundScale at h ⊢; omega
    have hne : n / d ≠ 0 := by rintro h0; rw [h0, Nat.log2_zero] at hlog2; omega
    have hlog := Nat.log2_self_le hne
    rw [hlog2, Nat.le_div_iff_mul_le hd, Nat.pow_add] at hlog
    rw [Nat.mul_comm d, ← Nat.mul_assoc]
    exact .inr hlog

theorem roundSig_le (n : Nat) {d : Nat} (hd : 0 < d) : roundSig n d ≤ 2 ^ 53 :=
  (nearestEven_le_div_succ n _).trans ((Nat.div_lt_iff_lt_mul (scaled_pos hd _)).2 (lt_scaled n hd))

theorem le_roundSig (n : Nat) {d : Nat} (hd : 0 < d) : roundScale n d = 0 ∨ 2 ^ 52 ≤ roundSig n d :=
  (scaled_le n hd).imp_right fun h =>
    ((Nat.le_div_iff_mul_le (scaled_pos hd _)).2 h).trans (div_le_nearestEven n _)

theorem magValue_rounded (n : Nat) {d : Nat} (hd : 0 < d) :
    magValue (roundScale n d * 2 ^ 52 + roundSig n d) = roundSig n d * 2 ^ roundScale n d :=
  magValue_scaled (roundSig_le n hd) (le_roundSig n hd)

/-! ### Nearest -/

/-- A value is a multiple of a scale's unit, or less than the scale's first normal value. -/
theorem magValue_dvd_or_lt (m k : Nat) : 2 ^ k ∣ magValue m ∨ (k ≠ 0 ∧ magValue m < 2 ^ 52 * 2 ^ k) := by
  obtain ⟨l, q, rfl, hq, hl⟩ := exists_scaled m
  rw [magValue_scaled hq.le hl]
  rcases Nat.lt_or_ge l k with h | h
  · refine .inr ⟨by omega, ?_⟩
    calc q * 2 ^ l < 2 ^ 53 * 2 ^ l := Nat.mul_lt_mul_of_pos_right hq (Nat.two_pow_pos l)
      _ = 2 ^ 52 * 2 ^ (l + 1) := by rw [← Nat.pow_add, ← Nat.pow_add, show 53 + l = 52 + (l + 1) by omega]
      _ ≤ 2 ^ 52 * 2 ^ k := Nat.mul_le_mul_left _ (Nat.pow_le_pow_right (by omega) h)
  · exact .inl (Nat.dvd_mul_left_of_dvd (Nat.pow_dvd_pow 2 h) q)

/-- Any integer whose magnitude has an image is further from `n / d` than what is kept, or is as far from an even significand. -/
theorem roundSig_nearest (n : Nat) {d m : Nat} (hd : 0 < d) {w : Int} (hw : w.natAbs = magValue m) :
    (((roundSig n d * 2 ^ roundScale n d : Nat) : Int) * d - n).natAbs < (w * d - n).natAbs ∨
    ((((roundSig n d * 2 ^ roundScale n d : Nat) : Int) * d - n).natAbs = (w * d - n).natAbs ∧
      (w = (roundSig n d * 2 ^ roundScale n d : Nat) ∨ roundSig n d % 2 = 0)) := by
  have hscale := scaled_le n hd
  have hnear := nearestEven_nearest n (scaled_pos hd (roundScale n d))
  rw [← roundSig] at hnear
  generalize roundScale n d = k at hscale hnear ⊢
  have hunit : ∀ j : Int, j * 2 ^ k * d = j * (d * 2 ^ k : Nat) := fun j => by push_cast; ring
  rw [Nat.cast_mul, Nat.cast_pow, Nat.cast_ofNat, hunit]
  rcases magValue_dvd_or_lt m k with h | ⟨hk, h⟩
  · rw [← hw, ← Int.natCast_dvd] at h
    obtain ⟨j, rfl⟩ := h
    rw [Nat.cast_pow, Nat.cast_ofNat, Int.mul_comm _ j, hunit]
    refine (hnear j).imp_right fun ⟨heq, hj⟩ => ⟨heq, hj.imp_left fun hj => by rw [hj]⟩
  · have hw' : w < 2 ^ 52 * 2 ^ k := by
      have : w < (2 ^ 52 * 2 ^ k : Nat) := by omega
      exact_mod_cast this
    have hbelow : w * d < 2 ^ 52 * (d * 2 ^ k : Nat) := by
      rw [← hunit]
      exact Int.mul_lt_mul_of_pos_right hw' (by omega)
    have hle : 2 ^ 52 * (d * 2 ^ k) ≤ n := hscale.resolve_left hk
    have := hnear (2 ^ 52)
    omega

/-- The distance of a value from `±n / d`, in parts of `1 / d`. -/
def distance (neg : Bool) (n d : Nat) (v : Num) : Nat := (units v * d - (if neg then -(n : Int) else n)).natAbs

theorem roundMag_lt (n d : Nat) : roundMag n d < 2 ^ 63 := (roundMag_le n d).trans_lt (by decide)

theorem finite_roundUnits_iff (neg : Bool) (n d : Nat) :
    finite (roundUnits neg n d) = true ↔ roundScale n d * 2 ^ 52 + roundSig n d < 2047 * 2 ^ 52 := by
  rw [finite_iff, roundUnits, magBits_ofSignMag (roundMag_lt n d), roundMag_eq]
  omega

theorem roundMag_of_finite {neg : Bool} {n d : Nat} (h : finite (roundUnits neg n d) = true) :
    roundMag n d = roundScale n d * 2 ^ 52 + roundSig n d := by
  rw [roundMag_eq, Nat.min_eq_left ((finite_roundUnits_iff neg n d).1 h).le]

theorem units_roundUnits {neg : Bool} {n d : Nat} (hd : 0 < d) (h : finite (roundUnits neg n d) = true) :
    units (roundUnits neg n d) = if neg then -((roundSig n d * 2 ^ roundScale n d : Nat) : Int)
      else (roundSig n d * 2 ^ roundScale n d : Nat) := by
  rw [roundUnits, units_ofSignMag (roundMag_lt n d), roundMag_of_finite h, magValue_rounded n hd]

/-- The last fraction bit of a finite rounding is that of its significand. -/
theorem roundUnits_even {neg : Bool} {n d : Nat} (h : finite (roundUnits neg n d) = true) (he : roundSig n d % 2 = 0) :
    (roundUnits neg n d).getLsbD 0 = false := by
  rw [BitVec.getLsbD, Nat.testBit_zero, roundUnits, toNat_ofSignMag (roundMag_lt n d), roundMag_of_finite h,
    decide_eq_false_iff_not]
  split <;> omega

/-- No finite value is nearer than a finite rounding; one that is as near is the rounding, or the rounding is even. -/
theorem roundUnits_nearest {neg : Bool} {n d : Nat} (v : Num) (hd : 0 < d) (h : finite (roundUnits neg n d) = true) :
    distance neg n d (roundUnits neg n d) < distance neg n d v ∨
    (distance neg n d (roundUnits neg n d) = distance neg n d v ∧
      (units v = units (roundUnits neg n d) ∨ (roundUnits neg n d).getLsbD 0 = false)) := by
  have heven := roundUnits_even h
  have hv : (units v).natAbs = magValue (magBits v) := (natAbs_units v).trans (magUnits_eq_magValue v)
  unfold distance
  rw [units_roundUnits hd h]
  cases neg with
  | false =>
    refine (roundSig_nearest n hd hv).imp_right fun ⟨heq, hside⟩ => ⟨heq, hside.imp_right heven⟩
  | true =>
    have hmirror : ∀ w : Int, (w * d - -(n : Int)).natAbs = (-w * d - n).natAbs := fun w => by
      rw [Int.neg_mul]
      omega
    simp only [if_true, hmirror, Int.neg_neg]
    refine (roundSig_nearest n hd ((Int.natAbs_neg _).trans hv)).imp_right fun ⟨heq, hside⟩ =>
      ⟨heq, hside.imp (fun h => by omega) heven⟩

/-! ### Overflow -/

/-- The significand carries out of scale `e + 1`, or the scale is greater, from the midpoint past that scale's last value on. -/
theorem carry_iff (n : Nat) {d : Nat} (hd : 0 < d) (e : Nat) :
    (e + 3) * 2 ^ 52 ≤ roundScale n d * 2 ^ 52 + roundSig n d ↔ (2 ^ 54 - 1) * 2 ^ e * d ≤ n := by
  have hlt := lt_scaled n hd
  have hle := scaled_le n hd
  have hsig := roundSig_le n hd
  have hnormal := le_roundSig n hd
  have hcarry := even_le_nearestEven_iff n (p := 2 ^ 53) (scaled_pos hd (roundScale n d)) rfl
  rw [← roundSig] at hcarry
  generalize roundScale n d = k at hlt hle hnormal hcarry ⊢
  generalize roundSig n d = sig at hsig hnormal hcarry ⊢
  have hmono : ∀ {a b : Nat}, a ≤ b → d * 2 ^ a ≤ d * 2 ^ b := fun h =>
    Nat.mul_le_mul_left d (Nat.pow_le_pow_right (by omega) h)
  rw [Nat.mul_assoc, Nat.mul_comm (2 ^ e)]
  rcases lt_trichotomy k (e + 1) with h | rfl | h
  · have := hmono (show k ≤ e from Nat.le_of_lt_succ h)
    omega
  · have : d * 2 ^ (e + 1) = 2 * (d * 2 ^ e) := by rw [Nat.pow_succ', Nat.mul_left_comm]
    omega
  · have := hmono (show e + 2 ≤ k from h)
    have : d * 2 ^ (e + 2) = 4 * (d * 2 ^ e) := by rw [Nat.pow_add, Nat.mul_comm (2 ^ e), Nat.mul_left_comm]
    omega

theorem finite_roundUnits_eq_false_iff (neg : Bool) (n : Nat) {d : Nat} (hd : 0 < d) :
    finite (roundUnits neg n d) = false ↔ (2 ^ 54 - 1) * 2 ^ 2044 * d ≤ n := by
  rw [← carry_iff n hd, ← Bool.not_eq_true, finite_roundUnits_iff, Nat.not_lt]

theorem roundUnits_eq_inf {neg : Bool} {n d : Nat} (h : finite (roundUnits neg n d) = false) :
    roundUnits neg n d = inf neg := by
  rw [← Bool.not_eq_true, finite_roundUnits_iff, Nat.not_lt] at h
  rw [roundUnits, roundMag_eq, Nat.min_eq_right h, inf]

/-! ### A value that has an image -/

/-- An image is what its value rounds to: nothing else is at distance 0. -/
theorem roundMag_magValue {m : Nat} (hm : m < 2047 * 2 ^ 52) : roundMag (magValue m) 1 = m := by
  have hval : magValue (roundScale (magValue m) 1 * 2 ^ 52 + roundSig (magValue m) 1) = magValue m := by
    have := roundSig_nearest (magValue m) (d := 1) (w := magValue m) Nat.one_pos rfl
    rw [magValue_rounded _ Nat.one_pos]
    omega
  rw [roundMag_eq, magValue_strictMono.injective hval, Nat.min_eq_left hm.le]

theorem roundUnits_magValue (neg : Bool) {m : Nat} (hm : m < 2047 * 2 ^ 52) :
    roundUnits neg (magValue m) 1 = ofSignMag neg m := by
  rw [roundUnits, roundMag_magValue hm]

theorem roundUnits_self {v : Num} (h : finite v = true) : roundUnits (sign v) (magUnits v) 1 = v := by
  rw [magUnits_eq_magValue, roundUnits_magValue _ (finite_iff.1 h), ofSignMag_fields]

/-- Settles O32: nearness and ties from the significand, overflow from its carry, exactness from distance 0. -/
theorem roundingIsToNearest : Obligations.RoundingIsToNearest := by
  refine ⟨fun neg n d v hd hR _ => ?nearest, fun neg n d v hd hR _ hne heq => ?ties, fun neg n d hd => ?sign_overflow,
    fun v hv => roundUnits_self hv⟩
  case nearest =>
    rcases roundUnits_nearest v hd hR with h | ⟨h, -⟩
    · exact h.le
    · exact h.le
  case ties =>
    rcases roundUnits_nearest v hd hR with h | ⟨-, h⟩
    · exact absurd heq h.ne'
    · exact h.resolve_left hne
  case sign_overflow =>
    refine ⟨sign_ofSignMag (roundMag_lt n d), finite_roundUnits_eq_false_iff neg n hd, fun h => ?_⟩
    rw [roundUnits_eq_inf h]
    cases neg <;> rfl

/-! ### Small integers -/

/-- An integer of magnitude at most 2^53 has an image, which is what it converts to. -/
theorem ofInt_exact {n : Int} (hn : n.natAbs ≤ 2 ^ 53) :
    finite (ofInt n) = true ∧ units (ofInt n) = n * 2 ^ 1074 := by
  obtain ⟨m, hm, hle⟩ := exists_magValue_mul_two_pow hn 1074
  have hfin : m < 2047 * 2 ^ 52 := by omega
  have h63 : m < 2 ^ 63 := by omega
  clear hle
  unfold ofInt
  generalize 1074 = e at hm ⊢
  rw [Nat.shiftLeft_eq, ← hm, roundUnits_magValue _ hfin, finite_iff, magBits_ofSignMag h63, units_ofSignMag h63, hm]
  refine ⟨hfin, ?_⟩
  rw [Nat.cast_mul, Nat.cast_pow, Nat.cast_ofNat, ← Int.neg_mul, ← ite_mul]
  congr 1
  simp only [decide_eq_true_eq]
  omega

/-- Two integers within half a unit are the same. -/
theorem eq_of_dist_le_half {r n : Int} {e : Nat} (h : (2 * (r * 2 ^ e - n * 2 ^ e)).natAbs ≤ 2 ^ e) : r = n := by
  rw [← Int.sub_mul, ← Int.mul_assoc, Int.natAbs_mul, Int.natAbs_pow] at h
  have := Nat.le_of_mul_le_mul_right (h.trans (Nat.one_mul _).ge) (Nat.two_pow_pos e)
  omega

/-- Settles O31: the conversions act on the exact value. -/
theorem smallIntegersAreExact : Obligations.SmallIntegersAreExact := by
  intro n hn
  obtain ⟨hfin, hunits⟩ := ofInt_exact hn
  refine ⟨hfin, hunits, ?trunc, ?roundHA⟩
  case trunc => rw [trunc_eq_tdiv, hunits, Int.mul_tdiv_cancel _ (pow_ne_zero _ two_ne_zero)]
  case roundHA =>
    have hnear := (roundHA_nearest (ofInt n)).1
    rw [hunits] at hnear
    exact eq_of_dist_le_half hnear

end Sys2Proof.F64

/-! ## The block state (R20 to R38): who writes `HALT`, `STATUS` and the bank, and who reads it

`exec_ctx` says what a command does to a context, named or not; `exec_unseen` says what it does not read. -/

namespace Sys2Proof.Machine

/-! ### The step and the command, by cases -/

theorem step_of_halt {s : State} (hh : s.halt = true) : step s = .next s := if_pos hh

theorem step_of_instr {s : State} {i : Instr} (hh : s.halt = false) (hd : decode s.cmd = .instr i) :
    step s = exec i s := by
  simp [step, hh, hd]

theorem step_of_illegal {s : State} {h : Word} {why : Illegal} (hh : s.halt = false)
    (hd : decode s.cmd = .illegal h why) : step s = .next (refuseIllegal h s) := by
  simp [step, hh, hd]

theorem step_of_incomplete {s : State} (hh : s.halt = false) (hd : decode s.cmd = .incomplete) : step s = .next s := by
  simp [step, hh, hd]

/-- No arm of `exec` is refused by the model. -/
theorem exec_total (i : Instr) (s : State) : ∃ t, exec i s = .next t := by
  cases i <;> exact ⟨_, rfl⟩

/-- A command waits for a beat, or comes to one of its ends (R248). -/
theorem exec_cases {i : Instr} {s t : State} (h : exec i s = .next t) : t = s ∨ Ends i s t := by
  by_cases hb : i.beats ≤ s.din.length
  · exact .inr (exec_ends h hb)
  · rw [exec_waits (by omega)] at h
    cases h
    exact .inl rfl

theorem exec_halt {i : Instr} {s t : State} (h : exec i s = .next t) : t.halt = s.halt := by
  rcases exec_cases h with rfl | hends
  · rfl
  · exact hends.halt

/-- Settles O9, over what stands at the front of `CMD`. -/
theorem everyStepHasANextState : Obligations.EveryStepHasANextState := by
  intro s
  cases hh : s.halt with
  | true => exact ⟨s, step_of_halt hh⟩
  | false =>
    cases hd : decode s.cmd with
    | instr i => rw [step_of_instr hh hd]; exact exec_total i s
    | illegal h why => exact ⟨_, step_of_illegal hh hd⟩
    | incomplete => exact ⟨s, step_of_incomplete hh hd⟩

/-- Settles O15: a step leaves `STATUS` alone or sets flags in it. -/
theorem statusBitsAreNeverCleared : Obligations.StatusBitsAreNeverCleared := by
  intro s t k h hk
  have hor : t = s ∨ ∃ f, t.status = s.status ||| f := by
    rcases step_cases h with rfl | ⟨-, h0, -, -, rfl⟩ | ⟨-, i, -, -, -, hends⟩
    · exact .inl rfl
    · exact .inr ⟨Flag.ill, refuseIllegal_status h0 s⟩
    · exact .inr hends.status
  rcases hor with rfl | ⟨f, hf⟩
  · exact hk
  · rw [hf, BitVec.getLsbD_or, hk, Bool.true_or]

/-! ### What a command does to a context -/

theorem context_of_namesCtx {i : Instr} (h : i.op.namesCtx = true) : i.context = some i.ctx.toNat := if_pos h

/-- What becomes of context `d` in a command. -/
inductive ContextEnds (i : Instr) (s t : State) (d : Nat) : Prop where
  /-- It is as it was. -/
  | kept (hk : Bank.get t.ctx d = Bank.get s.ctx d)
  /-- A creation made it (R37). -/
  | created (hd : i.context = some d) (hc : i.creates = true) (k : Context) (hk : Bank.get t.ctx d = some k)
  /-- Its state registers were written, and no others (R29, R38). -/
  | updated (hd : i.context = some d) (k k' : Context) (hk : Bank.get s.ctx d = some k)
      (hk' : Bank.get t.ctx d = some k') (hcoef : k'.coefPart = k.coefPart)
  /-- It was released, by command (R196) or because of a value that is not finite (R219). -/
  | dropped (hd : i.context = some d) (hk : Bank.get t.ctx d = none)
      (why : i.op = .release ∨
        (t.status = s.status ||| Flag.numerr ∧ t.rsp = s.rsp ++ [respHeader i.op i.ctx .numNonfinite]))

/-- To tell what becomes of every context, it is enough to tell it of the one that is named, where the bank was changed there
and nowhere else. -/
theorem ContextEnds.of_named {i : Instr} {s t : State} (hn : i.op.namesCtx = true)
    (hother : ∀ d, i.ctx.toNat ≠ d → Bank.get t.ctx d = Bank.get s.ctx d)
    (hnamed : i.context = some i.ctx.toNat → ContextEnds i s t i.ctx.toNat) (d : Nat) : ContextEnds i s t d := by
  by_cases hd : i.ctx.toNat = d
  · exact hd ▸ hnamed (context_of_namesCtx hn)
  · exact .kept (hother d hd)

theorem Ends.ctx {i : Instr} {s t : State} (h : Ends i s t) : ∀ d, ContextEnds i s t d := by
  cases h with
  | refused | answered | coded => exact fun _ => .kept rfl
  | nonfinite _ hn =>
    exact .of_named hn (fun _ => Bank.get_erase_other _) fun hd =>
      .dropped hd (Bank.get_erase_same _ _) (.inr ⟨rfl, rfl⟩)
  | created k hn hc =>
    exact .of_named hn (fun _ => Bank.get_set_other _ _) fun hd => .created hd hc k (Bank.get_set_same _ _ _)
  | processed k k' _ _ hn _ _ hk hcoef | loaded k k' hn _ _ _ hk hcoef =>
    exact .of_named hn (fun _ => Bank.get_set_other _ _) fun hd =>
      .updated hd k k' hk (Bank.get_set_same _ _ _) hcoef
  | released _ hi =>
    exact .of_named (hi ▸ rfl) (fun _ => Bank.get_erase_other _) fun hd =>
      .dropped hd (Bank.get_erase_same _ _) (.inl hi)

theorem exec_ctx {i : Instr} {s t : State} (h : exec i s = .next t) (d : Nat) : ContextEnds i s t d := by
  rcases exec_cases h with rfl | hends
  · exact .kept rfl
  · exact hends.ctx d

/-- Settles O18: only the end of a creation writes more than the state registers. -/
theorem onlyCreationWritesCoefficients : Obligations.OnlyCreationWritesCoefficients := by
  intro i s t c k k' h hcreates hk hk'
  cases exec_ctx h c with
  | kept hsame => rw [hsame, hk] at hk'; cases hk'; rfl
  | created _ hc => rw [hcreates] at hc; cases hc
  | updated _ l l' hl hl' hcoef => rw [hk] at hl; rw [hk'] at hl'; cases hl; cases hl'; exact hcoef
  | dropped _ hnone => rw [hk'] at hnone; cases hnone

/-- Settles O19, over what becomes of the context. -/
theorem lifeChangesOnlyByCreationAndRelease : Obligations.LifeChangesOnlyByCreationAndRelease := by
  intro i s t c h
  cases exec_ctx h c with
  | kept hsame => exact ⟨fun h0 h1 => absurd (hsame.trans h0) h1, fun h0 h1 => absurd (hsame.symm.trans h1) h0⟩
  | created hd hc k hk => exact ⟨fun _ _ => ⟨hc, hd⟩, fun _ h1 => (nomatch hk.symm.trans h1)⟩
  | updated _ k k' hk hk' _ =>
    exact ⟨fun h0 _ => (nomatch hk.symm.trans h0), fun _ h1 => (nomatch hk'.symm.trans h1)⟩
  | dropped hd hnone why => exact ⟨fun _ h1 => absurd hnone h1, fun _ _ => ⟨hd, why⟩⟩

/-! ### What a command does not read -/

/-- A relation between states that agree on everything a command which names the context `n` reads, and that every update such
a command makes keeps. -/
structure Unseen (n : Option Nat) (R : State → State → Prop) : Prop where
  par : ∀ {s s'}, R s s' → s'.par = s.par
  status : ∀ {s s'}, R s s' → s'.status = s.status
  din : ∀ {s s'}, R s s' → s'.din = s.din
  get : ∀ {c s s'}, R s s' → n = some c → Bank.get s'.ctx c = Bank.get s.ctx c
  consume : ∀ {s s'}, R s s' → ∀ words beats, R (s.consume words beats) (s'.consume words beats)
  flag : ∀ {s s'}, R s s' → ∀ f, R (s.flag f) (s'.flag f)
  respond : ∀ {s s'}, R s s' → ∀ ws, R (s.respond ws) (s'.respond ws)
  emit : ∀ {s s'}, R s s' → ∀ ws, R (s.emit ws) (s'.emit ws)
  putCtx : ∀ {c s s'}, R s s' → n = some c → ∀ k, R (s.putCtx c k) (s'.putCtx c k)
  dropCtx : ∀ {c s s'}, R s s' → n = some c → R (s.dropCtx c) (s'.dropCtx c)

namespace Unseen

variable {n : Option Nat} {R : State → State → Prop} (hR : Unseen n R) {s s' : State} (h : R s s')
include hR h

theorem accept (o : Op) (c : Byte) (payload : List Word) :
    R (Machine.accept o c payload s) (Machine.accept o c payload s') := hR.respond h _

theorem refuse (o : Op) (c : Byte) (code : Code) : R (Machine.refuse o c code s) (Machine.refuse o c code s') :=
  hR.respond (hR.flag h _) _

theorem design (o : Op) (payload : Option (List Word)) :
    R (Machine.design o payload s) (Machine.design o payload s') := by
  cases payload with
  | none => exact hR.refuse h _ _ _
  | some ws => exact hR.accept h _ _ _

theorem inRange (o : Op) (c : Byte) {go go' : State} (hgo : R go go') :
    R (Machine.inRange o c s go) (Machine.inRange o c s' go') := by
  unfold Machine.inRange
  rw [hR.par h]
  split
  · exact hgo
  · exact hR.refuse h _ _ _

section
variable {c : Byte} (hc : n = some c.toNat)
include hc

theorem withContext (o : Op) {go go' : Context → State} (hgo : ∀ k, R (go k) (go' k)) :
    R (Machine.withContext o c s go) (Machine.withContext o c s' go') := by
  unfold Machine.withContext
  rw [hR.get h hc]
  refine hR.inRange h o c ?_
  cases Bank.get s.ctx c.toNat with
  | none => exact hR.refuse h _ _ _
  | some k => exact hgo k

theorem create (o : Op) (k : Option Context) : R (Machine.create o c k s) (Machine.create o c k s') := by
  refine hR.inRange h o c ?_
  cases k with
  | none => exact hR.refuse h _ _ _
  | some k => exact hR.accept (hR.putCtx h hc k) _ _ _

theorem finishProc (o : Op) (r : ProcResult) : R (Machine.finishProc o c r s) (Machine.finishProc o c r s') := by
  cases r with
  | mismatch => exact hR.refuse h _ _ _
  | nonfinite => exact hR.dropCtx (hR.refuse h _ _ _) hc
  | done k ys ovf => exact hR.accept (hR.flag (hR.emit (hR.putCtx h hc k) _) _) _ _ _

end

theorem buffered (len : Word) {go : List Word → State → State}
    (hgo : ∀ beats {u u'}, R u u' → R (go beats u) (go beats u')) :
    R (Machine.buffered len s go) (Machine.buffered len s' go) := by
  unfold Machine.buffered
  rw [hR.din h]
  split
  · exact h
  · exact hgo _ (hR.consume h _ _)

theorem codecBuffer (o : Op) (len : Word) (f : Word → Word) :
    R (Machine.codecBuffer o len f s) (Machine.codecBuffer o len f s') :=
  hR.buffered h len fun _ _ _ hu => hR.accept (hR.emit hu _) _ _ _

theorem procCommand {c : Byte} (hc : n = some c.toNat) (o : Op) (len : Word)
    (run : Context → List Sample → ProcResult) :
    R (Machine.procCommand o c len run s) (Machine.procCommand o c len run s') :=
  hR.buffered h len fun _ _ _ hu => hR.withContext hu hc o fun _ => hR.finishProc hu hc o _

end Unseen

/-- From states that a command cannot tell apart it goes to states that it cannot tell apart. -/
theorem exec_unseen {i : Instr} {R : State → State → Prop} (hR : Unseen i.context R) {s s' t : State} (h : R s s')
    (ht : exec i s = .next t) : ∃ t', exec i s' = .next t' ∧ R t t' := by
  cases i <;> cases ht <;> refine ⟨_, rfl, ?_⟩
  case ulawDec | ulawEnc => exact hR.accept (hR.consume h _ _) _ _ _
  case statusRd => rw [hR.status h]; exact hR.accept (hR.consume h _ _) _ _ _
  case ulawDecb | ulawEncb => exact hR.codecBuffer h _ _ _
  case alphaHp | alphaLp | bqdBp | bqdHp => exact hR.design (hR.consume h _ _) _ _
  case firdLp => rw [hR.par h]; exact hR.design (hR.consume h _ _) _ _
  case createHp | createLp | createBp | createBqbp | createBqhp | createcHp | createcLp | createcBp | createcBq =>
    exact hR.create (hR.consume h _ _) rfl _ _
  case createFir | createcFir => rw [hR.par h]; exact hR.create (hR.consume h _ _) rfl _ _
  case procHp | procLp | procBp | procBq | procFir => exact hR.procCommand h rfl _ _ _
  case stateRd | coefRd =>
    exact hR.withContext (hR.consume h _ _) rfl _ fun _ => hR.accept (hR.consume h _ _) _ _ _
  case release =>
    exact hR.withContext (hR.consume h _ _) rfl _ fun _ => hR.accept (hR.dropCtx (hR.consume h _ _) rfl) _ _ _
  case stateWr c ws =>
    refine hR.withContext (hR.consume h _ _) rfl _ fun k => ?_
    cases parseState k ws with
    | none => exact hR.refuse (hR.consume h _ _) _ _ _
    | some k' => exact hR.accept (hR.putCtx (hR.consume h _ _) rfl k') _ _ _

/-- No command reads or writes `HALT` (R32). -/
theorem halt_unseen (n : Option Nat) (b : Bool) : Unseen n fun s s' => s' = { s with halt := b } := by
  constructor <;> (intros; subst_vars; rfl)

/-- Settles O7: of the three answers of the decoder `illegal` alone leads to a write of `HALT`. -/
theorem haltIsSetByIllegalAlone : Obligations.HaltIsSetByIllegalAlone := by
  refine ⟨⟨rfl, fun _ _ => rfl⟩, fun _ => step_of_halt, fun s t hh h => ?set, fun _ _ _ => exec_halt,
    fun i s t b h => ?read⟩
  case set =>
    cases hd : decode s.cmd with
    | instr i =>
      rw [step_of_instr hh hd] at h
      simp [exec_halt h, hh]
    | illegal h0 why =>
      rw [step_of_illegal hh hd] at h
      cases h
      simp
    | incomplete =>
      rw [step_of_incomplete hh hd] at h
      cases h
      simp [hh]
  case read =>
    obtain ⟨_, ht', rfl⟩ := exec_unseen (halt_unseen i.context b) rfl h
    exact ht'

/-- Two states that agree on all but `HALT` and the contexts other than the one in `n`. -/
structure AgreeOn (n : Option Nat) (s s' : State) : Prop where
  par : s'.par = s.par
  status : s'.status = s.status
  cmd : s'.cmd = s.cmd
  din : s'.din = s.din
  dout : s'.dout = s.dout
  rsp : s'.rsp = s.rsp
  get : ∀ c, n = some c → Bank.get s'.ctx c = Bank.get s.ctx c

/-- No command reads a context that it does not name (R33). -/
theorem agreeOn_unseen (n : Option Nat) : Unseen n (AgreeOn n) where
  par h := h.par
  status h := h.status
  din h := h.din
  get h hc := h.get _ hc
  consume h words beats := { h with cmd := congrArg (List.drop words) h.cmd, din := congrArg (List.drop beats) h.din }
  flag h f := { h with status := congrArg (· ||| f) h.status }
  respond h ws := { h with rsp := congrArg (· ++ ws) h.rsp }
  emit h ws := { h with dout := congrArg (· ++ ws) h.dout }
  putCtx h hc k :=
    { h with
      get := fun d hd => by
        cases hc.symm.trans hd
        exact (Bank.get_set_same _ _ _).trans (Bank.get_set_same _ _ _).symm }
  dropCtx h hc :=
    { h with
      get := fun d hd => by
        cases hc.symm.trans hd
        exact (Bank.get_erase_same _ _).trans (Bank.get_erase_same _ _).symm }

/-- Settles O17: the other contexts are kept, and they are not read. -/
theorem otherContextsAreUntouched : Obligations.OtherContextsAreUntouched := by
  intro i s t d h hd
  constructor
  · cases exec_ctx h d with
    | kept hk => exact hk
    | created hd' | updated hd' | dropped hd' => exact absurd hd' hd
  · intro b hb
    have hagree : AgreeOn i.context s { s with ctx := b } := ⟨rfl, rfl, rfl, rfl, rfl, rfl, hb⟩
    obtain ⟨t', ht', ha⟩ := exec_unseen (agreeOn_unseen i.context) hagree h
    exact ⟨t', ht', ha.status, ha.dout, ha.rsp, ha.cmd, ha.din, ha.get⟩

/-! ### Reset -/

/-- A reset drops what is there of the words and beats of a command that waits (R240). -/
theorem hostReset_of_waiting {s : State} (hw : s.waiting = true) (mid : Bool) :
    (s.hostReset mid).cmd = s.cmd.drop s.atFront.1 ∧ (s.hostReset mid).din = s.din.drop s.atFront.2 := by
  simp [State.hostReset, hw]

theorem atFront_of_instr {s : State} {i : Instr} (hh : s.halt = false) (hd : decode s.cmd = .instr i) :
    s.atFront = (i.numWords, i.beats) := by
  simp [State.atFront, hh, hd]

theorem atFront_of_incomplete {s : State} (hh : s.halt = false) (hd : decode s.cmd = .incomplete) :
    s.atFront = (s.cmd.length, 0) := by
  simp [State.atFront, hh, hd]

theorem waiting_of_instr {s : State} {i : Instr} (hh : s.halt = false) (hd : decode s.cmd = .instr i) :
    s.waiting = decide (s.din.length < i.beats) := by
  simp [State.waiting, hh, hd]

theorem waiting_of_incomplete {s : State} (hh : s.halt = false) (hd : decode s.cmd = .incomplete) :
    s.waiting = !s.cmd.isEmpty := by
  simp [State.waiting, hh, hd]

theorem hostReset_cmd_of_incomplete {s : State} (mid : Bool) (hh : s.halt = false) (hd : decode s.cmd = .incomplete) :
    (s.hostReset mid).cmd = [] := by
  by_cases hempty : s.cmd = []
  · simp [State.hostReset, hempty]
  · have hw : s.waiting = true := by simp [waiting_of_incomplete hh hd, hempty]
    rw [(hostReset_of_waiting hw mid).1, atFront_of_incomplete hh hd, List.drop_length]

/-- Settles O12: the registers by definition, the streams by what of a command was waiting. -/
theorem resetClearsTheBlock : Obligations.ResetClearsTheBlock := by
  refine ⟨⟨fun _ => rfl, rfl, rfl⟩, fun s mid => ⟨fun _ => rfl, rfl, rfl, rfl, rfl,
    hostReset_cmd_of_incomplete mid, fun i hh hd hlt => ?_⟩⟩
  have hw : s.waiting = true := by rw [waiting_of_instr hh hd, decide_eq_true hlt]
  obtain ⟨hcmd, hdin⟩ := hostReset_of_waiting hw mid
  rw [atFront_of_instr hh hd] at hcmd hdin
  exact ⟨hcmd, hdin.trans (List.drop_eq_nil_of_le (Nat.le_of_lt hlt))⟩

/-! ### `CTXCFG` (R30) -/

/-- `CTXCFG` with its lower four bits taken as one field. -/
theorem ctxcfg_eq (k : Context) :
    ctxcfg k = BitVec.ofNat 16 k.ntaps ++ 0#12 ++ (BitVec.ofNat 3 k.kind.code ++ 1#1) :=
  BitVec.append_assoc

/-- Settles O53, field by field. -/
theorem ctxcfgFieldsAreAsTheTable : Obligations.CtxcfgFieldsAreAsTheTable := by
  intro k hk
  refine ⟨extract_append_low (BitVec.ofNat 16 k.ntaps ++ 0#12 ++ BitVec.ofNat 3 k.kind.code) 1#1, ?kind, ?zeros, ?ntaps⟩
  case kind =>
    have hfield : (ctxcfg k).extractLsb' 1 3 = BitVec.ofNat 3 k.kind.code :=
      extract_append_mid (BitVec.ofNat 16 k.ntaps ++ 0#12) (BitVec.ofNat 3 k.kind.code) 1#1
    rw [hfield]
    cases k <;> rfl
  case zeros =>
    rw [ctxcfg_eq]
    exact extract_append_mid (BitVec.ofNat 16 k.ntaps) 0#12 (BitVec.ofNat 3 k.kind.code ++ 1#1)
  case ntaps =>
    have hfield : (ctxcfg k).extractLsb' 16 16 = BitVec.ofNat 16 k.ntaps := by
      rw [ctxcfg_eq]
      exact extract_append_top (BitVec.ofNat 16 k.ntaps) 0#12 (BitVec.ofNat 3 k.kind.code ++ 1#1)
    rw [hfield, BitVec.toNat_ofNat, Nat.mod_eq_of_lt hk]
    cases k <;> rfl

end Sys2Proof.Machine

/-! ## The addresses of the FIR history (R53, R54, R176) -/

namespace Sys2Proof.Machine

/-- The address of a tap, reduced by one conditional subtraction of N. -/
theorem tapAddr_eq_ite {n wp j : Nat} (hwp : wp < n) (hj : j < n) :
    tapAddr n wp j = if wp + n - j < n then wp + n - j else wp - j := by
  unfold tapAddr
  split
  · exact Nat.mod_eq_of_lt ‹_›
  · have hshift : wp + n - j = wp - j + n := by omega
    rw [hshift, Nat.add_mod_right, Nat.mod_eq_of_lt (by omega)]

theorem tapAddr_lt {n : Nat} (hn : 0 < n) (wp j : Nat) : tapAddr n wp j < n := Nat.mod_lt _ hn

/-- Tap 0 reads the location at the write position. -/
theorem tapAddr_zero {n wp : Nat} (hwp : wp < n) : tapAddr n wp 0 = wp := by
  rw [tapAddr, Nat.sub_zero, Nat.add_mod_right, Nat.mod_eq_of_lt hwp]

/-- The last tap reads the location that is written next. -/
theorem tapAddr_last {n : Nat} (hn : 0 < n) (wp : Nat) : tapAddr n wp (n - 1) = (wp + 1) % n := by
  rw [tapAddr, show wp + n - (n - 1) = wp + 1 by omega]

/-- No tap but the first reads the location at the write position. -/
theorem tapAddr_succ_ne {n wp j : Nat} (hwp : wp < n) (hj : j + 1 < n) : tapAddr n wp (j + 1) ≠ wp := by
  rw [tapAddr_eq_ite hwp hj]
  split <;> omega

/-- Once `wp` has advanced, every location is one tap further behind. -/
theorem tapAddr_advance {n wp j : Nat} (hwp : wp < n) (hj : j < n) :
    tapAddr n ((wp + 1) % n) (j + 1) = tapAddr n wp j := by
  rcases (show wp + 1 < n ∨ wp + 1 = n by omega) with hlt | heq
  · rw [Nat.mod_eq_of_lt hlt, tapAddr, tapAddr, show wp + 1 + n - (j + 1) = wp + n - j by omega]
  · rw [heq, Nat.mod_self, tapAddr_eq_ite hwp hj, if_neg (by omega), tapAddr, Nat.mod_eq_of_lt (by omega)]
    omega

/-- Settles O51, from the address after one conditional subtraction. -/
theorem tapAddressesStayInTheHistory : Obligations.TapAddressesStayInTheHistory := by
  intro n wp j hwp hj
  have hn : 0 < n := Nat.zero_lt_of_lt hwp
  exact ⟨tapAddr_lt hn wp j, tapAddr_zero hwp, tapAddr_last hn wp, tapAddr_eq_ite hwp hj⟩

/-! ### What the history holds after a chunk -/

/-- A step writes its sample at `wp` and advances `wp` (R176). -/
theorem firStep_st {n : Nat} {cs : List Num} {st : FirState} {x : Sample} {o : StepOut FirState}
    (h : firStep n cs st x = some o) : o.st = ⟨st.hist.set st.wp x, (st.wp + 1) % n⟩ := by
  simp only [firStep] at h
  split at h
  · cases h; rfl
  · cases h

/-- A chunk with one sample more at its end: the step on that sample, from the state after the rest. -/
theorem process_concat {σ : Type} {step : σ → Sample → Option (StepOut σ)} {st : σ} {xs : List Sample} {x : Sample}
    {r : Run σ} (h : process step st (xs ++ [x]) = some r) :
    ∃ r' o, process step st xs = some r' ∧ step r'.st x = some o ∧ r.st = o.st := by
  rw [process_append] at h
  obtain ⟨r', hr', h⟩ := Option.bind_eq_some_iff.1 h
  obtain ⟨t, ht, rfl⟩ := Option.map_eq_some_iff.1 h
  rw [process_cons] at ht
  obtain ⟨o, ho, ht⟩ := Option.bind_eq_some_iff.1 ht
  obtain ⟨_, hnil, rfl⟩ := Option.map_eq_some_iff.1 ht
  cases hnil
  exact ⟨r', o, hr', ho, rfl⟩

/-- The write position advances by one for each sample, modulo N. -/
theorem firProcess_wp {n : Nat} {cs : List Num} {st : FirState} {xs : List Sample} {r : Run FirState}
    (hwp : st.wp < n) (h : firProcess n cs st xs = some r) : r.st.wp = (st.wp + xs.length) % n := by
  induction xs using List.reverseRecOn generalizing r with
  | nil => cases h; exact (Nat.mod_eq_of_lt hwp).symm
  | append_singleton xs x ih =>
    obtain ⟨r', o, hr', ho, hst⟩ := process_concat h
    rw [hst, firStep_st ho, ih hr', List.length_append, List.length_singleton, Nat.mod_add_mod, Nat.add_assoc]

/-- Counted back from the write position, the history holds the samples of the chunk, the last one first. -/
theorem firProcess_latest {n : Nat} {cs : List Num} {st : FirState} {xs : List Sample} {r : Run FirState}
    (h0 : st.hist.length = n ∧ st.wp < n) (h : firProcess n cs st xs = some r) {j : Nat} (hj : j < n)
    (hjx : j < xs.length) : r.st.hist[tapAddr n r.st.wp (j + 1)]? = xs.reverse[j]? := by
  induction xs using List.reverseRecOn generalizing r j with
  | nil => cases hjx
  | append_singleton xs x ih =>
    obtain ⟨r', o, hr', ho, hst⟩ := process_concat h
    obtain ⟨hlen, hwp⟩ := firProcess_size h0 hr'
    rw [hst, firStep_st ho, tapAddr_advance hwp hj, List.reverse_concat]
    cases j with
    | zero => rw [tapAddr_zero hwp, List.getElem?_set_self (hlen ▸ hwp), List.getElem?_cons_zero]
    | succ j =>
      rw [List.getElem?_set_ne (tapAddr_succ_ne hwp hj).symm, List.getElem?_cons_succ]
      exact ih hr' (Nat.lt_of_succ_lt hj) (by simpa using hjx)

/-- Settles O50, by induction on the chunk from its last sample. -/
theorem firHistoryHoldsTheLatestInputs : Obligations.FirHistoryHoldsTheLatestInputs := by
  intro n cs st xs r hlen hwp h
  refine ⟨firProcess_wp hwp h, (firProcess_size ⟨hlen, hwp⟩ h).1, fun j hj hjx => ?_⟩
  rw [← List.getElem?_reverse hjx, ← firProcess_latest ⟨hlen, hwp⟩ h hj hjx, tapAddr, Nat.sub_sub, Nat.add_comm 1 j]

end Sys2Proof.Machine

/-! ## Chunks and buffer commands (R65, R66, R211, R223) -/

namespace Sys2Proof.Machine

/-! ### A chunk in two parts -/

/-- A recurrence over chunks that gives for a chunk in two parts what it gives for the whole (R65). -/
def Streams {σ : Type} (p : σ → List Sample → Option (Run σ)) : Prop :=
  ∀ ⦃st u v r t⦄, p st u = some r → p r.st v = some t → p st (u ++ v) = some ⟨r.ys ++ t.ys, r.ovf || t.ovf, t.st⟩

theorem process_streams {σ : Type} (step : σ → Sample → Option (StepOut σ)) : Streams (process step) := by
  intro st u v r t hu hv
  rw [process_append, hu, Option.bind_some, hv, Option.map_some]

/-- A band-pass chunk from the runs of its two stages. -/
theorem bpProcess_of_stages {co : BpCoef} {st : BpState} {xs : List Sample} {u : Run HpState} {v : Run Num}
    (hu : hpProcess co.alphaHP ⟨st.prevInHP, st.prevOutHP⟩ xs = some u)
    (hv : lpProcess co.alphaLP st.prevOutLP u.ys = some v) :
    bpProcess co st xs = some ⟨v.ys, u.ovf || v.ovf, ⟨u.st.prevIn, u.st.prevOut, v.st⟩⟩ := by
  simp only [bpProcess, hu, hv]

/-- Both stages of the band-pass stream, so the cascade does. -/
theorem bpProcess_streams (co : BpCoef) : Streams (bpProcess co) := by
  intro st u v r t hu hv
  obtain ⟨hp, lp, hhp, hlp, rfl⟩ := bpProcess_stages hu
  obtain ⟨hp', lp', hhp', hlp', rfl⟩ := bpProcess_stages hv
  rw [bpProcess_of_stages (process_streams _ hhp hhp') (process_streams _ hlp hlp')]
  simp only [Option.some.injEq, Run.mk.injEq, true_and, and_true]
  ac_rfl

theorem ofRun_eq_done {σ : Type} {mk : σ → Context} {r : Option (Run σ)} {k : Context} {ys : List Sample} {ovf : Bool} :
    ofRun mk r = .done k ys ovf ↔ ∃ st, r = some ⟨ys, ovf, st⟩ ∧ mk st = k := by
  constructor
  · intro h
    cases r with
    | none => cases h
    | some r => cases h; exact ⟨r.st, rfl, rfl⟩
  · rintro ⟨st, rfl, rfl⟩
    rfl

/-- A `PROC` on the contexts `mk st`, where its recurrence streams. -/
theorem Streams.done {σ : Type} {p : σ → List Sample → Option (Run σ)} (hp : Streams p) {mk : σ → Context}
    {run : Context → List Sample → ProcResult} (hrun : ∀ st xs, run (mk st) xs = ofRun mk (p st xs))
    {st : σ} {k1 k2 : Context} {u v yu yv : List Sample} {o1 o2 : Bool}
    (hu : run (mk st) u = .done k1 yu o1) (hv : run k1 v = .done k2 yv o2) :
    run (mk st) (u ++ v) = .done k2 (yu ++ yv) (o1 || o2) := by
  obtain ⟨st1, hu', rfl⟩ := ofRun_eq_done.1 ((hrun st u).symm.trans hu)
  obtain ⟨st2, hv', rfl⟩ := ofRun_eq_done.1 ((hrun st1 v).symm.trans hv)
  exact (hrun st (u ++ v)).trans (ofRun_eq_done.2 ⟨st2, hp hu' hv', rfl⟩)

/-- Settles O45: the recurrence of every kind streams. -/
theorem chunksProcessAsOneStream : Obligations.ChunksProcessAsOneStream := by
  intro kd k k1 k2 u v yu yv o1 o2 hu hv
  obtain ⟨rfl, -⟩ := runOfKind_done hu
  cases k with
  | hp alpha st => exact (process_streams (hpStep alpha)).done (mk := .hp alpha) (fun _ _ => rfl) hu hv
  | lp alpha st => exact (process_streams (lpStep alpha)).done (mk := .lp alpha) (fun _ _ => rfl) hu hv
  | bp co st => exact (bpProcess_streams co).done (mk := .bp co) (fun _ _ => rfl) hu hv
  | bq co st => exact (process_streams (bqStep co)).done (mk := .bq co) (fun _ _ => rfl) hu hv
  | fir n cs st => exact (process_streams (firStep n cs)).done (mk := .fir n cs) (fun _ _ => rfl) hu hv

/-! ### The `PROC` command -/

/-- The mnemonic of a `PROC` command is that of its kind, whatever `LEN`. -/
theorem op_processCommand (kd : Kind) (c : Byte) (l l' : Word) :
    (processCommand kd c l).op = (processCommand kd c l').op := by
  cases kd <;> rfl

/-- A `PROC` command that answered `OK` ran the recurrence of its kind over its beats and put the result away. -/
theorem procCommand_accepted {kd : Kind} {c : Byte} {len : Word} {s a : State}
    (h : exec (processCommand kd c len) s = .next a)
    (hrsp : a.rsp = s.rsp ++ [respHeader (processCommand kd c len).op c .ok]) :
    len.toNat ≤ s.din.length ∧ c.toNat < s.par.nctx ∧
    ∃ k k' ys ovf, Bank.get s.ctx c.toNat = some k ∧
      runOfKind kd k ((s.din.take len.toNat).map beatS16) = .done k' ys ovf ∧
      a = finishProc (processCommand kd c len).op c (.done k' ys ovf) (s.consume 2 len.toNat) := by
  have hok {code : Code} (hr : a.rsp = s.rsp ++ [respHeader (processCommand kd c len).op c code]) : code = .ok :=
    respHeader_inj (List.singleton_inj.1 (List.append_cancel_left (hr.symm.trans hrsp)))
  rw [exec_processCommand] at h
  obtain rfl := Host.Outcome.next.inj h
  rcases procCommand_cases (processCommand kd c len).op c len (runOfKind kd) s
    with ⟨-, e⟩ | ⟨hlen, _, rfl, ⟨-, e⟩ | ⟨-, -, e⟩ | ⟨k, hr, hk, e⟩⟩ <;> rw [e] at hrsp hok ⊢
  · simp at hrsp
  · cases hok rfl
  · cases hok rfl
  · refine ⟨hlen, hr, k, ?_⟩
    cases hrun : runOfKind kd k ((s.din.take len.toNat).map beatS16) with
    | mismatch => rw [hrun] at hok; cases hok rfl
    | nonfinite => rw [hrun] at hok; cases hok rfl
    | done k' ys ovf => exact ⟨k', ys, ovf, hk, rfl, rfl⟩

/-- Settles O46: both commands ran their chunk, so that the one command runs the two as one stream. -/
theorem twoProcCommandsEqualOne : Obligations.TwoProcCommandsEqualOne := by
  intro kd c lu lv luv s a b t hdr hsum hlen hhdr ha hb harsp hbrsp ht
  obtain rfl : hdr = respHeader (processCommand kd c lu).op c .ok := hhdr.trans (respHeader_ok _ c).symm
  obtain ⟨-, hr, k, k1, yu, o1, hk, hu, rfl⟩ := procCommand_accepted ha harsp
  have hbrsp' : b.rsp = (s.rsp ++ [respHeader (processCommand kd c lu).op c .ok]) ++
      [respHeader (processCommand kd c lv).op c .ok] := by
    rw [hbrsp, op_processCommand kd c lv lu, List.append_assoc, List.singleton_append]
  obtain ⟨-, -, k1', k2, yv, o2, hk1, hv, rfl⟩ := procCommand_accepted hb hbrsp'
  obtain rfl : k1 = k1' := Option.some.inj ((Bank.get_set_same s.ctx c.toNat k1).symm.trans hk1)
  have hrun : runOfKind kd k ((s.din.take luv.toNat).map beatS16) = .done k2 (yu ++ yv) (o1 || o2) := by
    rw [hsum, List.take_add, List.map_append]
    exact chunksProcessAsOneStream kd k k1 k2 _ _ yu yv o1 o2 hu hv
  rw [exec_processCommand_active hr hk hlen, hrun, op_processCommand kd c luv lu] at ht
  cases ht
  refine ⟨?ctx, ?status, ?dout, ?din, rfl⟩
  case ctx => exact (Bank.set_set s.ctx c.toNat k1 k2).symm
  case status => exact (Flag.ofOvf_or o1 o2 s.status).symm
  case dout => simp [finishProc]
  case din => simp [finishProc, hsum]

/-! ### Buffers of no beats -/

@[simp] theorem State.emit_nil (s : State) : s.emit [] = s := by simp [State.emit]

@[simp] theorem State.flag_zero (s : State) : s.flag 0#32 = s := by simp [State.flag]

/-- Writing back the context that was read changes nothing. -/
theorem State.putCtx_of_get {n : Nat} {s : State} {c : Nat} {k : Context} (hwf : Bank.wf n s.ctx)
    (hk : Bank.get s.ctx c = some k) : s.putCtx c k = s := by
  rw [State.putCtx, Bank.set_of_get hwf hk]

/-- A codec buffer command with `LEN` = 0 takes its words and answers. -/
theorem codecBuffer_zero (o : Op) (f : Word → Word) (s : State) :
    codecBuffer o 0#32 f s = accept o 0#8 [] (s.consume 2 0) :=
  congrArg (accept o 0#8 []) (State.emit_nil _)

/-- A chunk that gave no output and the context it was given is answered, and nothing else. -/
theorem finishProc_unchanged {n : Nat} (o : Op) {c : Byte} {k : Context} {s : State} (hwf : Bank.wf n s.ctx)
    (hk : Bank.get s.ctx c.toNat = some k) : finishProc o c (.done k [] false) s = accept o c [] s := by
  simp [finishProc, Flag.ofOvf, State.putCtx_of_get hwf hk]

/-- Settles O47: the recurrence of no sample gives the context it was given, and writing that back changes nothing. -/
theorem zeroLengthChangesNothing : Obligations.ZeroLengthChangesNothing := by
  refine ⟨fun s => ⟨?decb, ?encb⟩, fun kd c s k hwf hk hkind => ?active, fun kd c s hr hnone => ?inactive⟩
  case decb => exact congrArg Host.Outcome.next (codecBuffer_zero .ulawDecb _ s)
  case encb => exact congrArg Host.Outcome.next (codecBuffer_zero .ulawEncb _ s)
  case active =>
    subst hkind
    have hr : c.toNat < s.par.nctx := hwf.2 _ (Bank.mem_of_get hk)
    have hrun : runOfKind k.kind k ((s.din.take (0#32 : Word).toNat).map beatS16) = .done k [] false := runOfKind_nil k
    rw [exec_processCommand_active hr hk (Nat.zero_le _), hrun, finishProc_unchanged (s := s.consume 2 _) _ hwf hk,
      ← respHeader_ok]
    rfl
  case inactive =>
    rw [exec_processCommand]
    rcases procCommand_cases (processCommand kd c 0#32).op c 0#32 (runOfKind kd) s
      with ⟨h, -⟩ | ⟨hlen, _, rfl, ⟨h, -⟩ | ⟨-, -, e⟩ | ⟨k, -, hk, -⟩⟩
    · exact absurd h (Nat.not_lt_zero _)
    · exact absurd hr (Nat.not_lt_of_le h)
    · exact congrArg Host.Outcome.next e
    · cases hnone.symm.trans hk

end Sys2Proof.Machine

/-! ## Commands on different contexts (R31, R33, R62)

A command that names a context is a function of that context, of the parameters and of its beats: `exec_effect`. What it does is
then one `Effect`, and two effects on different contexts commute. -/

namespace Sys2Proof.Machine

/-! ### Effects -/

/-- What a command writes to the context it names. -/
inductive CtxWrite where
  | keep
  | put (k : Context)
  | drop

/-- The bank after the write to context `c`. -/
def CtxWrite.on (c : Nat) (b : Bank) : CtxWrite → Bank
  | .keep => b
  | .put k => Bank.set b c k
  | .drop => Bank.erase b c

theorem CtxWrite.get_on_other (w : CtxWrite) (b : Bank) {c e : Nat} (h : c ≠ e) :
    Bank.get (w.on c b) e = Bank.get b e := by
  cases w with
  | keep => rfl
  | put k => exact Bank.get_set_other b k h
  | drop => exact Bank.get_erase_other b h

/-- What a context reads after a write depends on nothing but what it read before. -/
theorem CtxWrite.get_on_same (w : CtxWrite) {b b' : Bank} {c : Nat} (h : Bank.get b c = Bank.get b' c) :
    Bank.get (w.on c b) c = Bank.get (w.on c b') c := by
  cases w with
  | keep => exact h
  | put k => exact (Bank.get_set_same b c k).trans (Bank.get_set_same b' c k).symm
  | drop => exact (Bank.get_erase_same b c).trans (Bank.get_erase_same b' c).symm

theorem CtxWrite.on_rising (w : CtxWrite) (c : Nat) {b : Bank} (h : b.Pairwise fun x y => x.1 < y.1) :
    (w.on c b).Pairwise fun x y => x.1 < y.1 := by
  cases w with
  | keep => exact h
  | put k => exact Bank.set_rising c k h
  | drop => exact h.filter _

theorem CtxWrite.get_on_comm (w v : CtxWrite) (b : Bank) {c d : Nat} (h : c ≠ d) (e : Nat) :
    Bank.get (v.on d (w.on c b)) e = Bank.get (w.on c (v.on d b)) e := by
  by_cases hd : d = e
  · subst hd
    rw [w.get_on_other _ h]
    exact v.get_on_same (w.get_on_other b h)
  · rw [v.get_on_other _ hd]
    by_cases hc : c = e
    · subst hc
      exact w.get_on_same (v.get_on_other b hd).symm
    · rw [w.get_on_other _ hc, w.get_on_other _ hc, v.get_on_other _ hd]

/-- What a command that names a context does beyond taking its words and beats. -/
structure Effect where
  ctx : CtxWrite
  flags : BitVec 32
  out : List Word
  rsp : List Word

/-- The state after the effect on context `c`. -/
def Effect.on (e : Effect) (c : Nat) (s : State) : State :=
  { s with ctx := e.ctx.on c s.ctx, status := s.status ||| e.flags, dout := s.dout ++ e.out, rsp := s.rsp ++ e.rsp }

/-! ### Every command that names a context has one effect -/

/-- How a `STATE.WR` on an ACTIVE context ends, by the context that its image was read as (R192). -/
def stateWritten (c : Byte) (x : Option Context) (s : State) : State :=
  match x with
  | some k => accept .stateWr c [] (s.putCtx c.toNat k)
  | none => refuse .stateWr c .stateInvalid s

/-- `g` has one and the same effect on all states with parameters `p` whose context `c` is `k`. -/
def HasEffect (p : Params) (c : Nat) (k : Option Context) (g : State → State) : Prop :=
  ∃ e : Effect, ∀ s, s.par = p → Bank.get s.ctx c = k → g s = e.on c s

namespace HasEffect

variable {p : Params} {c : Byte} {k : Option Context} (o : Op)

theorem accept (payload : List Word) : HasEffect p c.toNat k (Machine.accept o c payload) :=
  ⟨⟨.keep, 0#32, [], respHeader o c .ok :: payload⟩, fun s _ _ => by
    simp [Machine.accept, State.respond, Effect.on, CtxWrite.on]⟩

theorem acceptPut (x : Context) : HasEffect p c.toNat k fun s => Machine.accept o c [] (s.putCtx c.toNat x) :=
  ⟨⟨.put x, 0#32, [], [respHeader o c .ok]⟩, fun s _ _ => by
    simp [Machine.accept, State.respond, State.putCtx, Effect.on, CtxWrite.on]⟩

theorem acceptDrop : HasEffect p c.toNat k fun s => Machine.accept o c [] (s.dropCtx c.toNat) :=
  ⟨⟨.drop, 0#32, [], [respHeader o c .ok]⟩, fun s _ _ => by
    simp [Machine.accept, State.respond, State.dropCtx, Effect.on, CtxWrite.on]⟩

theorem refuse (code : Code) : HasEffect p c.toNat k (Machine.refuse o c code) :=
  ⟨⟨.keep, code.flag, [], [respHeader o c code]⟩, fun s _ _ => by
    simp [Machine.refuse, State.respond, State.flag, Effect.on, CtxWrite.on]⟩

theorem finishProc (r : ProcResult) : HasEffect p c.toNat k (Machine.finishProc o c r) := by
  cases r with
  | mismatch => exact refuse o .kindMismatch
  | nonfinite =>
    exact ⟨⟨.drop, Flag.numerr, [], [respHeader o c .numNonfinite]⟩, fun s _ _ => by
      simp [Machine.finishProc, refuseNonfinite, Machine.refuse, State.respond, State.flag, State.dropCtx, Code.flag,
        Effect.on, CtxWrite.on]⟩
  | done x ys ovf =>
    exact ⟨⟨.put x, Flag.ofOvf ovf, ys.map sampleWord, [respHeader o c .ok]⟩, fun s _ _ => rfl⟩

theorem inRange {go : State → State} (hgo : HasEffect p c.toNat k go) :
    HasEffect p c.toNat k fun s => Machine.inRange o c s (go s) := by
  by_cases hr : c.toNat < p.nctx
  · obtain ⟨e, he⟩ := hgo
    exact ⟨e, fun s hp hk => (if_pos (hp ▸ hr)).trans (he s hp hk)⟩
  · obtain ⟨e, he⟩ := refuse (p := p) (k := k) o .ctxRange
    exact ⟨e, fun s hp hk => (if_neg (hp ▸ hr)).trans (he s hp hk)⟩

theorem withContext {go : Context → State → State} (hgo : ∀ x, HasEffect p c.toNat k (go x)) :
    HasEffect p c.toNat k fun s => Machine.withContext o c s (go · s) := by
  cases k with
  | none =>
    obtain ⟨e, he⟩ := inRange o (refuse (p := p) (k := none) o .ctxInactive)
    exact ⟨e, fun s hp hk => by simpa only [Machine.withContext, hk] using he s hp hk⟩
  | some x =>
    obtain ⟨e, he⟩ := inRange o (hgo x)
    exact ⟨e, fun s hp hk => by simpa only [Machine.withContext, hk] using he s hp hk⟩

theorem create (x : Option Context) : HasEffect p c.toNat k (Machine.create o c x) := by
  cases x with
  | none => exact inRange o (refuse o .cfgInvalid)
  | some x => exact inRange o (acceptPut o x)

theorem stateWritten (c : Byte) (x : Option Context) : HasEffect p c.toNat k (Machine.stateWritten c x) := by
  cases x with
  | none => exact refuse .stateWr .stateInvalid
  | some x => exact acceptPut .stateWr x

end HasEffect

theorem procCommand_of_beats {c : Byte} {len : Word} {s : State} {xs r : List Word} (o : Op)
    (run : Context → List Sample → ProcResult) (hlen : xs.length = len.toNat) (hdin : s.din = xs ++ r) :
    procCommand o c len run s = withContext o c (s.consume 2 len.toNat) fun k =>
      finishProc o c (run k (xs.map beatS16)) (s.consume 2 len.toNat) := by
  have hready : ¬ s.din.length < len.toNat := by simp [hdin, hlen]
  rw [procCommand, buffered, if_neg hready, hdin, ← hlen, List.take_left]

/-- A command that names a context has one effect on all states with the same parameters, the same named context and the same
beats. -/
theorem exec_effect {i : Instr} {c : Nat} (hc : i.context = some c) (p : Params) (k : Option Context) {xs : List Word}
    (hxs : xs.length = i.beats) :
    ∃ e : Effect, ∀ {s t r}, exec i s = .next t → s.par = p → Bank.get s.ctx c = k → s.din = xs ++ r →
      t = e.on c (s.taken i) := by
  suffices h : ∃ g, HasEffect p c k g ∧ ∀ s r, s.par = p → s.din = xs ++ r → exec i s = .next (g (s.taken i)) by
    obtain ⟨g, ⟨e, he⟩, hg⟩ := h
    refine ⟨e, fun {s t r} ht hp hk hdin => ?_⟩
    rw [hg s r hp hdin, he (s.taken i) hp hk] at ht
    cases ht
    rfl
  cases i <;> cases hc
  case createHp | createLp | createBp | createBqbp | createBqhp | createcHp | createcLp | createcBp | createcBq =>
    exact ⟨_, .create _ _, fun _ _ _ _ => rfl⟩
  case createFir c n fc fs =>
    exact ⟨create .createFir c ((designFir p.nmax fc fs n.toNat).map newFir), .create _ _, by rintro s _ rfl _; rfl⟩
  case createcFir c cs =>
    exact ⟨create .createcFir c ((givenFir p.nmax cs).map newFir), .create _ _, by rintro s _ rfl _; rfl⟩
  case procHp | procLp | procBp | procBq | procFir =>
    exact ⟨_, .withContext _ fun _ => .finishProc _ _,
      fun s r _ hdin => congrArg Host.Outcome.next (procCommand_of_beats _ _ hxs hdin)⟩
  case stateRd | coefRd => exact ⟨_, .withContext _ fun _ => .accept _ _, fun _ _ _ _ => rfl⟩
  case release => exact ⟨_, .withContext _ fun _ => .acceptDrop _, fun _ _ _ _ => rfl⟩
  case stateWr c ws =>
    exact ⟨_, .withContext _ fun k => .stateWritten c (parseState k ws), fun _ _ _ _ => rfl⟩

/-! ### Two commands -/

/-- Settles O20: in either order each command has the same effect, and the two effects are on different contexts. -/
theorem commandsOnDifferentContextsCommute : Obligations.CommandsOnDifferentContextsCommute := by
  intro i j c d s a b a' b' xs ys r hi hj hcd hxs hys ha hb ha' hb'
  obtain ⟨e, he⟩ := exec_effect hi s.par (Bank.get s.ctx c) hxs
  obtain ⟨f, hf⟩ := exec_effect hj s.par (Bank.get s.ctx d) hys
  obtain rfl := he ha rfl rfl (List.append_assoc xs ys r)
  obtain rfl := hf ha' rfl rfl (List.append_assoc ys xs r)
  have hdin : (xs ++ ys ++ r).drop i.beats = ys ++ r := by rw [← hxs, List.append_assoc, List.drop_left]
  have hdin' : (ys ++ xs ++ r).drop j.beats = xs ++ r := by rw [← hys, List.append_assoc, List.drop_left]
  obtain rfl := hf hb rfl (e.ctx.get_on_other s.ctx hcd) hdin
  obtain rfl := he hb' rfl (f.ctx.get_on_other s.ctx hcd.symm) hdin'
  have hget := e.ctx.get_on_comm f.ctx s.ctx hcd
  refine ⟨hget, fun hwf => ?ctx, ?status, e.out, f.out, e.rsp, f.rsp, rfl, rfl, rfl, rfl, rfl, rfl, rfl, rfl⟩
  case ctx =>
    exact Bank.ext_get (f.ctx.on_rising d (e.ctx.on_rising c hwf.1)) (e.ctx.on_rising c (f.ctx.on_rising d hwf.1)) hget
  case status =>
    show s.status ||| e.flags ||| f.flags = s.status ||| f.flags ||| e.flags
    ac_rfl

end Sys2Proof.Machine

/-! ## The encoding (R73, R74, R76, R78 to R81)

A header against its row of the opcode table, field by field; then the operand words, form by form. Both directions of the round
trip are `decode_eq_instr_iff`: a command is decoded exactly from its encoding. -/

namespace Sys2Proof

/-! ### A header and its row of the opcode table -/

/-- The bits of `ARG` that must be zero (R73). -/
def ArgUse.mask : ArgUse → BitVec 16
  | .none => 0xFFFF#16
  | .byte => 0xFF00#16
  | .taps => 0#16

/-- The bits of a header that its row fixes: `OPC`, `CTX` where it names no context, and the must-be-zero bits of `ARG`. -/
def Op.mask (o : Op) : Word := 0xFF#8 ++ (if o.namesCtx then 0#8 else 0xFF#8) ++ o.argUse.mask

/-- The row of a command in the opcode table (R81). -/
def Op.row (o : Op) : Op × Word × Word := (o, mkHeader o 0#8 0#16, o.mask)

theorem opcodeRows_eq : opcodeRows = Op.all.map Op.row := by decide

theorem Op.mem_all (o : Op) : o ∈ Op.all := by cases o <;> decide

/-- The rows of the opcode table are the rows of the commands. -/
theorem mem_opcodeRows_iff {row : Op × Word × Word} : row ∈ opcodeRows ↔ row = row.1.row := by
  rw [opcodeRows_eq, List.mem_map]
  constructor
  · rintro ⟨o, -, rfl⟩
    rfl
  · exact fun h => ⟨row.1, row.1.mem_all, h.symm⟩

/-- A header is put together from its fields and from no others. -/
theorem eq_mkHeader_iff {h : Word} {o : Op} {c : Byte} {a : BitVec 16} :
    h = mkHeader o c a ↔ hdrOpc h = o.code ∧ hdrCtx h = c ∧ hdrArg h = a := by
  constructor
  · rintro rfl
    simp
  · rintro ⟨ho, rfl, rfl⟩
    exact (mkHeader_fields ho.symm).symm

theorem hdrOpc_and_mask (h : Word) (o : Op) : hdrOpc (h &&& o.mask) = hdrOpc h := by
  have hm : o.mask.extractLsb' 24 8 = 0xFF#8 := extract_append_top 0xFF#8 _ o.argUse.mask
  rw [hdrOpc, BitVec.extractLsb'_and, hm]
  exact BitVec.and_allOnes

theorem hdrCtx_and_mask (h : Word) (o : Op) :
    hdrCtx (h &&& o.mask) = if o.namesCtx then 0#8 else hdrCtx h := by
  have hm : o.mask.extractLsb' 16 8 = if o.namesCtx then 0#8 else 0xFF#8 := extract_append_mid 0xFF#8 _ o.argUse.mask
  rw [hdrCtx, BitVec.extractLsb'_and, hm]
  split
  · exact BitVec.and_zero
  · exact BitVec.and_allOnes

theorem hdrArg_and_mask (h : Word) (o : Op) : hdrArg (h &&& o.mask) = hdrArg h &&& o.argUse.mask := by
  have hm : o.mask.extractLsb' 0 16 = o.argUse.mask := extract_append_low (0xFF#8 ++ _) o.argUse.mask
  rw [hdrArg, BitVec.extractLsb'_and, hm]
  rfl

theorem append_halves (a : BitVec 16) : a.extractLsb' 8 8 ++ a.extractLsb' 0 8 = a :=
  (BitVec.extractLsb'_append_extractLsb'_eq_extractLsb' (start₁ := 0) (len₁ := 8) rfl).trans BitVec.extractLsb'_eq_self

/-- `ARG` holds a Byte exactly when its upper half is zero. -/
theorem and_byte_mask_eq_zero_iff (a : BitVec 16) : a &&& ArgUse.byte.mask = 0#16 ↔ a.extractLsb' 8 8 = 0#8 := by
  have hm : a &&& ArgUse.byte.mask = a.extractLsb' 8 8 ++ 0#8 := calc
    a &&& ArgUse.byte.mask = (a.extractLsb' 8 8 ++ a.extractLsb' 0 8) &&& (BitVec.allOnes 8 ++ 0#8) := by
      rw [append_halves]
      rfl
    _ = a.extractLsb' 8 8 ++ 0#8 := by rw [BitVec.and_append, BitVec.and_allOnes, BitVec.and_zero]
  rw [hm]
  exact BitVec.append_left_inj (s₂ := 0#8) 0#8

@[simp] theorem and_none_mask (a : BitVec 16) : a &&& ArgUse.none.mask = a := BitVec.and_allOnes

@[simp] theorem and_taps_mask (a : BitVec 16) : a &&& ArgUse.taps.mask = 0#16 := BitVec.and_zero

theorem fieldsLegal_iff {o : Op} {h : Word} :
    fieldsLegal o h = true ↔ (o.namesCtx = true ∨ hdrCtx h = 0#8) ∧ hdrArg h &&& o.argUse.mask = 0#16 := by
  rw [fieldsLegal, Bool.and_eq_true]
  refine and_congr (by simp) ?_
  cases o.argUse with
  | none => simp
  | byte => simp [and_byte_mask_eq_zero_iff]
  | taps => simp

theorem Op.ofCode_eq_some_iff {b : Byte} {o : Op} : Op.ofCode b = some o ↔ b = o.code :=
  ⟨fun h => (Op.code_of_ofCode h).symm, fun h => h ▸ Op.ofCode_code o⟩

theorem headerOp_eq_ok_iff {h : Word} {o : Op} : headerOp h = .ok o ↔ hdrOpc h = o.code ∧ fieldsLegal o h = true := by
  rw [← Op.ofCode_eq_some_iff, headerOp]
  cases Op.ofCode (hdrOpc h) with
  | none => simp
  | some o' =>
    by_cases hf : fieldsLegal o' h = true
    · simp only [hf, if_true, Except.ok.injEq, Option.some.injEq]
      exact ⟨fun e => ⟨e, e ▸ hf⟩, And.left⟩
    · simp only [hf, Option.some.injEq]
      exact ⟨nofun, fun ⟨e, hf'⟩ => absurd (e ▸ hf') hf⟩

/-- The header has the pattern of the row exactly when its `OPC` is the code and its must-be-zero fields are zero (R73, R81). -/
theorem and_mask_eq_iff {h : Word} {o : Op} :
    h &&& o.mask = mkHeader o 0#8 0#16 ↔ hdrOpc h = o.code ∧ fieldsLegal o h = true := by
  rw [eq_mkHeader_iff, hdrOpc_and_mask, hdrCtx_and_mask, hdrArg_and_mask, fieldsLegal_iff]
  cases o.namesCtx <;> simp

/-- Settles O3: field by field, the masked header is the row's pattern where the decoder accepts it. -/
theorem headerIsAcceptedByItsTableRow : Obligations.HeaderIsAcceptedByItsTableRow := by
  intro h o
  rw [headerOp_eq_ok_iff, ← and_mask_eq_iff]
  constructor
  · exact fun he => ⟨o.row, mem_opcodeRows_iff.2 rfl, rfl, he⟩
  · rintro ⟨row, hrow, rfl, he⟩
    rw [mem_opcodeRows_iff.1 hrow] at he
    exact he

/-! ### The operand words, form by form (R74, R81) -/

section
variable {ws : List Word} {i : Instr}

theorem with1_eq_some_iff {k : Word → Instr} :
    with1 ws k = some i ↔ ∃ w rest, ws = [w] ++ rest ∧ i = k w := by
  constructor
  · intro h
    match ws, h with
    | w :: rest, rfl => exact ⟨w, rest, rfl, rfl⟩
  · rintro ⟨w, rest, rfl, rfl⟩
    rfl

theorem withF1_eq_some_iff {k : Num → Instr} :
    withF1 ws k = some i ↔ ∃ a rest, ws = f64Words a ++ rest ∧ i = k a := by
  constructor
  · intro h
    match ws, h with
    | a :: a' :: rest, rfl => exact ⟨f64 a a', rest, by simp, rfl⟩
  · rintro ⟨a, rest, rfl, rfl⟩
    simp [withF1, f64Words]

theorem withF2_eq_some_iff {k : Num → Num → Instr} :
    withF2 ws k = some i ↔ ∃ a b rest, ws = f64Words a ++ f64Words b ++ rest ∧ i = k a b := by
  constructor
  · intro h
    match ws, h with
    | a :: a' :: b :: b' :: rest, rfl => exact ⟨f64 a a', f64 b b', rest, by simp, rfl⟩
  · rintro ⟨a, b, rest, rfl, rfl⟩
    simp [withF2, f64Words]

theorem withF3_eq_some_iff {k : Num → Num → Num → Instr} :
    withF3 ws k = some i ↔ ∃ a b c rest, ws = f64Words a ++ f64Words b ++ f64Words c ++ rest ∧ i = k a b c := by
  constructor
  · intro h
    match ws, h with
    | a :: a' :: b :: b' :: c :: c' :: rest, rfl => exact ⟨f64 a a', f64 b b', f64 c c', rest, by simp, rfl⟩
  · rintro ⟨a, b, c, rest, rfl, rfl⟩
    simp [withF3, f64Words]

theorem withF5_eq_some_iff {k : Num → Num → Num → Num → Num → Instr} :
    withF5 ws k = some i ↔ ∃ a b c d e rest,
      ws = f64Words a ++ f64Words b ++ f64Words c ++ f64Words d ++ f64Words e ++ rest ∧ i = k a b c d e := by
  constructor
  · intro h
    match ws, h with
    | a :: a' :: b :: b' :: c :: c' :: d :: d' :: e :: e' :: rest, rfl =>
      exact ⟨f64 a a', f64 b b', f64 c c', f64 d d', f64 e e', rest, by simp, rfl⟩
  · rintro ⟨a, b, c, d, e, rest, rfl, rfl⟩
    simp [withF5, f64Words]

theorem takeF64s_eq_some_iff {n : Nat} {cs : List Num} :
    takeF64s n ws = some cs ↔ cs.length = n ∧ ∃ rest, ws = cs.flatMap f64Words ++ rest := by
  constructor
  · intro h
    induction n generalizing ws cs with
    | zero =>
      cases h
      exact ⟨rfl, ws, rfl⟩
    | succ n ih =>
      match ws, h with
      | a :: a' :: ws, h =>
        obtain ⟨vs, hvs, rfl⟩ := Option.map_eq_some_iff.1 h
        obtain ⟨hlen, rest, rfl⟩ := ih hvs
        exact ⟨by simp [hlen], rest, by simp⟩
  · rintro ⟨rfl, rest, rfl⟩
    exact takeF64s_flatMap cs rest

theorem withWC_eq_some_iff {k : List Word → Instr} :
    withWC ws k = some i ↔ ∃ us rest, us.length < 2 ^ 32 ∧ ws = BitVec.ofNat 32 us.length :: us ++ rest ∧ i = k us := by
  constructor
  · intro h
    match ws, h with
    | wc :: ws, h =>
      obtain ⟨hle, hi⟩ := Option.ite_none_right_eq_some.1 h
      have hlen : (ws.take wc.toNat).length = wc.toNat := List.length_take_of_le hle
      refine ⟨ws.take wc.toNat, ws.drop wc.toNat, hlen.trans_lt wc.isLt, ?_, (Option.some.inj hi).symm⟩
      rw [hlen, BitVec.ofNat_toNat, BitVec.setWidth_eq, List.cons_append, List.take_append_drop]
  · rintro ⟨us, rest, hlt, rfl, rfl⟩
    have hwc : (BitVec.ofNat 32 us.length).toNat = us.length := by rw [BitVec.toNat_ofNat, Nat.mod_eq_of_lt hlt]
    simp [withWC, hwc]

end

/-! ### A command and its encoding -/

/-- A command of the mnemonic `o` whose fields are those of the header `h` and whose operand words are at the front of `ws`. -/
structure Instr.ReadFrom (i : Instr) (o : Op) (h : Word) (ws : List Word) : Prop where
  wellFormed : i.wellFormed = true
  op : i.op = o
  ctx : i.ctx = hdrCtx h
  arg : i.arg = hdrArg h
  words : ∃ rest, ws = i.operandWords ++ rest

/-- `ARG` with its must-be-zero bits cleared. -/
def ArgUse.clear : ArgUse → BitVec 16 → BitVec 16
  | .none, _ => 0#16
  | .byte, a => (a.extractLsb' 0 8).setWidth 16
  | .taps, a => a

theorem ArgUse.clear_of_legal {u : ArgUse} {a : BitVec 16} (h : a &&& u.mask = 0#16) : u.clear a = a := by
  cases u with
  | none => exact h.symm.trans (and_none_mask a)
  | taps => rfl
  | byte =>
    have hz := (and_byte_mask_eq_zero_iff a).1 h
    calc
      (a.extractLsb' 0 8).setWidth 16 = 0#8 ++ a.extractLsb' 0 8 := BitVec.setWidth_eq_append (by decide)
      _ = a := by rw [← hz, append_halves]

theorem extract_setWidth_byte (b : Byte) : (b.setWidth 16).extractLsb' 0 8 = b := by
  ext i hi
  simp [hi, show i < 16 by omega]

/-- What the decoder reads has the fields of the header and the words that it was read from (R73, R79). -/
theorem readFrom_of_operands {o : Op} {h : Word} {ws : List Word} {i : Instr} (hf : fieldsLegal o h = true)
    (hi : operands o h ws = some i) : i.ReadFrom o h ws := by
  obtain ⟨hctx, harg⟩ := fieldsLegal_iff.1 hf
  have hc : (if o.namesCtx then hdrCtx h else 0#8) = hdrCtx h :=
    ite_eq_left_iff.2 fun hn => (hctx.resolve_left hn).symm
  have ha : o.argUse.clear (hdrArg h) = hdrArg h := ArgUse.clear_of_legal harg
  cases o
  case ulawDec | stateRd | coefRd | release | statusRd =>
    cases hi
    exact ⟨rfl, rfl, hc, ha, ws, rfl⟩
  case ulawEnc | ulawDecb | ulawEncb | procHp | procLp | procBp | procBq | procFir =>
    obtain ⟨w, rest, rfl, rfl⟩ := with1_eq_some_iff.1 hi
    exact ⟨rfl, rfl, hc, ha, rest, rfl⟩
  case createcHp | createcLp =>
    obtain ⟨a, rest, rfl, rfl⟩ := withF1_eq_some_iff.1 hi
    exact ⟨rfl, rfl, hc, ha, rest, rfl⟩
  case alphaHp | alphaLp | firdLp | createHp | createLp | createFir | createcBp =>
    obtain ⟨a, b, rest, rfl, rfl⟩ := withF2_eq_some_iff.1 hi
    exact ⟨rfl, rfl, hc, ha, rest, rfl⟩
  case bqdBp | bqdHp | createBp | createBqbp | createBqhp =>
    obtain ⟨a, b, c, rest, rfl, rfl⟩ := withF3_eq_some_iff.1 hi
    exact ⟨rfl, rfl, hc, ha, rest, rfl⟩
  case createcBq =>
    obtain ⟨a, b, c, d, e, rest, rfl, rfl⟩ := withF5_eq_some_iff.1 hi
    exact ⟨rfl, rfl, hc, ha, rest, rfl⟩
  case createcFir =>
    obtain ⟨cs, hcs, rfl⟩ := Option.map_eq_some_iff.1 hi
    obtain ⟨hlen, rest, rfl⟩ := takeF64s_eq_some_iff.1 hcs
    refine ⟨decide_eq_true (hlen ▸ (hdrArg h).isLt), rfl, hc, ?_, rest, rfl⟩
    simp [Instr.arg, hlen]
  case stateWr =>
    obtain ⟨us, rest, hlt, rfl, rfl⟩ := withWC_eq_some_iff.1 hi
    exact ⟨decide_eq_true hlt, rfl, hc, ha, rest, rfl⟩

/-- A command is read again from its own fields and words, whatever follows them (R73, R79). -/
theorem operands_of_readFrom {o : Op} {h : Word} {ws : List Word} {i : Instr} (hi : i.ReadFrom o h ws) :
    operands o h ws = some i := by
  obtain ⟨hwf, rfl, hc, ha, rest, rfl⟩ := hi
  cases i
  case ulawDec b =>
    have hb : (hdrArg h).extractLsb' 0 8 = b := (congrArg (BitVec.extractLsb' 0 8) ha).symm.trans (extract_setWidth_byte b)
    exact congrArg (some ∘ Instr.ulawDec) hb
  case statusRd | ulawEnc | ulawDecb | ulawEncb => rfl
  case stateRd | coefRd | release | procHp | procLp | procBp | procBq | procFir =>
    obtain rfl := hc
    rfl
  case createcHp | createcLp =>
    obtain rfl := hc
    exact withF1_eq_some_iff.2 ⟨_, rest, rfl, rfl⟩
  case alphaHp | alphaLp => exact withF2_eq_some_iff.2 ⟨_, _, rest, rfl, rfl⟩
  case firdLp =>
    obtain rfl := ha
    exact withF2_eq_some_iff.2 ⟨_, _, rest, rfl, rfl⟩
  case createFir =>
    obtain rfl := hc
    obtain rfl := ha
    exact withF2_eq_some_iff.2 ⟨_, _, rest, rfl, rfl⟩
  case createHp | createLp | createcBp =>
    obtain rfl := hc
    exact withF2_eq_some_iff.2 ⟨_, _, rest, rfl, rfl⟩
  case bqdBp | bqdHp => exact withF3_eq_some_iff.2 ⟨_, _, _, rest, rfl, rfl⟩
  case createBp | createBqbp | createBqhp =>
    obtain rfl := hc
    exact withF3_eq_some_iff.2 ⟨_, _, _, rest, rfl, rfl⟩
  case createcBq =>
    obtain rfl := hc
    exact withF5_eq_some_iff.2 ⟨_, _, _, _, _, rest, rfl, rfl⟩
  case createcFir c cs =>
    obtain rfl := hc
    have hlen : cs.length = (hdrArg h).toNat := by
      rw [← ha]
      exact (Nat.mod_eq_of_lt (of_decide_eq_true hwf)).symm
    exact Option.map_eq_some_iff.2 ⟨cs, takeF64s_eq_some_iff.2 ⟨hlen, rest, rfl⟩, rfl⟩
  case stateWr c us =>
    obtain rfl := hc
    exact withWC_eq_some_iff.2 ⟨us, rest, of_decide_eq_true hwf, rfl, rfl⟩

/-- The header of every command is one the decoder accepts (R73, R80). -/
theorem headerOp_header (i : Instr) : headerOp (mkHeader i.op i.ctx i.arg) = .ok i.op := by
  apply headerOp_mkHeader
  · cases i <;> simp [Instr.op, Op.namesCtx, Instr.ctx]
  · cases i
    case ulawDec b => exact .inr (.inl ⟨rfl, Laws.HeaderAccepted.byte_arg_high b⟩)
    case firdLp | createFir | createcFir => exact .inl rfl
    all_goals exact .inr (.inr ⟨rfl, rfl⟩)

theorem decode_cons_eq_instr_iff {h : Word} {ws : List Word} {i : Instr} :
    decode (h :: ws) = .instr i ↔ ∃ o, headerOp h = .ok o ∧ operands o h ws = some i := by
  rw [decode]
  cases headerOp h with
  | error why => simp
  | ok o => cases hi : operands o h ws <;> simp [hi]

/-- A command is decoded exactly from its encoding, with any words after it (R72, R76). -/
theorem decode_eq_instr_iff {ws : List Word} {i : Instr} :
    decode ws = .instr i ↔ i.wellFormed = true ∧ ∃ rest, ws = encode i ++ rest := by
  constructor
  · intro hd
    match ws, hd with
    | h :: ws, hd =>
      obtain ⟨o, ho, hi⟩ := decode_cons_eq_instr_iff.1 hd
      obtain ⟨hcode, hf⟩ := headerOp_eq_ok_iff.1 ho
      obtain ⟨hwf, rfl, hc, ha, rest, rfl⟩ := readFrom_of_operands hf hi
      have hh : h = mkHeader i.op i.ctx i.arg := eq_mkHeader_iff.2 ⟨hcode, hc.symm, ha.symm⟩
      exact ⟨hwf, rest, congrArg (· :: _) hh⟩
  · rintro ⟨hwf, rest, rfl⟩
    exact decode_cons_eq_instr_iff.2 ⟨i.op, headerOp_header i, operands_of_readFrom
      ⟨hwf, rfl, (hdrCtx_mkHeader ..).symm, (hdrArg_mkHeader ..).symm, rest, rfl⟩⟩

theorem encode_length (i : Instr) : (encode i).length = i.numWords := by
  cases i
  case createcFir c cs => exact Laws.EncodeLength.createcFir c cs
  case stateWr c ws => exact Laws.EncodeLength.stateWr c ws
  all_goals rfl

/-- Settles O1, from the decoder's characterisation: the words are the encoding and a rest. -/
theorem decodeOfEncodeIsTheCommand : Obligations.DecodeOfEncodeIsTheCommand :=
  fun _ rest hwf => decode_eq_instr_iff.2 ⟨hwf, rest, rfl⟩

/-- Settles O2, from the same: what is left after the encoding's `numWords` words is the rest. -/
theorem encodeOfDecodeIsTheWords : Obligations.EncodeOfDecodeIsTheWords := by
  intro ws i hd
  obtain ⟨hwf, rest, rfl⟩ := decode_eq_instr_iff.1 hd
  exact ⟨hwf, by rw [← encode_length, List.drop_left]⟩

/-- Settles O4: the decoder evaluated on the eleven word sequences. -/
theorem knownWordsDecode : Obligations.KnownWordsDecode := by
  unfold Obligations.KnownWordsDecode
  decide

end Sys2Proof

/-! ## The command at the front, and `ULAW.DEC` (R61, R72, R100) -/

namespace Sys2Proof.Machine
open Constants

/-- Settles O5, by the law of the step. -/
theorem stepRunsTheDecodedCommand : Obligations.StepRunsTheDecodedCommand := fun _ _ => step_of_instr

/-- The magnitude of a Byte with exponent `e` and mantissa `m`, in closed form (R100). -/
def ulawMag (e m : Nat) : Nat := if e = 0 then 16 * m + 8 else (16 * m + 264) * 2 ^ (e - 1)

theorem ulawMag_lt {e m : Nat} (he : e < 8) (hm : m < 16) : ulawMag e m < 2 ^ 15 := by
  unfold ulawMag
  split
  · omega
  · have hpow : 2 ^ (e - 1) ≤ 2 ^ 6 := Nat.pow_le_pow_right (by decide) (by omega)
    calc
      (16 * m + 264) * 2 ^ (e - 1) ≤ (16 * 15 + 264) * 2 ^ 6 := Nat.mul_le_mul (by omega) hpow
      _ < 2 ^ 15 := by decide

theorem ulawDecodeInt_eq (b : Byte) :
    ulawDecodeInt b =
      if 128 ≤ 255 - b.toNat then -(ulawMag ((255 - b.toNat) / 16 % 8) ((255 - b.toNat) % 16) : Int)
      else ulawMag ((255 - b.toNat) / 16 % 8) ((255 - b.toNat) % 16) := by
  have hs : (255 - b.toNat) / 128 = 1 ↔ 128 ≤ 255 - b.toNat := by omega
  have hmag : ∀ e m : Nat, (if 1 < e then (if 0 < e then m * 16 + 8 + 0x100 else m * 16 + 8) * 2 ^ (e - 1)
      else if 0 < e then m * 16 + 8 + 0x100 else m * 16 + 8) = ulawMag e m := by
    intro e m
    match e with
    | 0 => simp [ulawMag, Nat.mul_comm]
    | 1 => simp [ulawMag, Nat.mul_comm]
    | e + 2 => simp [ulawMag, Nat.mul_comm]
  simp only [ulawDecodeInt, decMantShift, decHalf, decSegBase, Nat.shiftRight_eq_div_pow, Nat.shiftLeft_eq,
    Nat.reducePow, hs, hmag]

/-- An integer of the Sample range goes out as the beat of its value (R51). -/
theorem sampleWord_ofInt {k : Int} (h1 : -2 ^ 15 ≤ k) (h2 : k < 2 ^ 15) :
    sampleWord (BitVec.ofInt 16 k) = BitVec.ofInt 32 k := by
  rw [sampleWord, BitVec.signExtend, BitVec.toInt_ofInt, Int.bmod_eq_of_le (by omega) (by omega)]

/-- Settles O27: the magnitude is below 2^15, so that the Sample keeps the integer. -/
theorem ulawDecAnswersTheClosedForm : Obligations.UlawDecAnswersTheClosedForm := by
  intro b s u e m mag
  have hmag : mag = ulawMag e m := by
    simp only [mag, ulawMag]
    split <;> push_cast <;> rfl
  have hlt : ulawMag e m < 2 ^ 15 := ulawMag_lt (Nat.mod_lt _ (by decide)) (Nat.mod_lt _ (by decide))
  have hval : ulawDecodeInt b = if 128 ≤ u then -mag else mag := by rw [hmag]; exact ulawDecodeInt_eq b
  have hbeat : sampleWord (ulawDecode b) = BitVec.ofInt 32 (if 128 ≤ u then -mag else mag) := by
    rw [← hval]
    exact sampleWord_ofInt (by rw [hval]; split <;> omega) (by rw [hval]; split <;> omega)
  rw [← hbeat]
  rfl

end Sys2Proof.Machine

/-! ## The codec: `ULAW.ENC`, the round trip and the buffers (R101 to R105)

`encode` gives the Byte of a sign, the least exponent and a mantissa (`ulawEncode_of_least`), and every Byte is the Byte of the
fields that `decode` reads from it (`ulawCode_fields`). The rest is arithmetic on one segment of magnitudes. -/

namespace Sys2Proof.Machine
open Constants

/-! ### The exponent search -/

/-- `e` is the least number of halvings that brings `q` to at most `ENC_LIMIT` (R101). -/
structure LeastHalvings (q e : Nat) : Prop where
  within : q / 2 ^ e ≤ 63
  least : ∀ e' < e, 63 < q / 2 ^ e'

theorem exists_leastHalvings {q n : Nat} (h : q / 2 ^ n ≤ 63) : ∃ e ≤ n, LeastHalvings q e :=
  have hex : ∃ e, q / 2 ^ e ≤ 63 := ⟨n, h⟩
  ⟨Nat.find hex, Nat.find_min' hex h, Nat.find_spec hex, fun _ he' => Nat.lt_of_not_le (Nat.find_min hex he')⟩

theorem LeastHalvings.lt {q e : Nat} (h : LeastHalvings q e) : q < 64 * 2 ^ e :=
  (Nat.div_lt_iff_lt_mul (Nat.two_pow_pos e)).1 (Nat.lt_succ_of_le h.within)

theorem leastHalvings_zero {q : Nat} (h : q < 64) : LeastHalvings q 0 :=
  ⟨by omega, nofun⟩

theorem leastHalvings_succ {q k : Nat} (hlo : 64 * 2 ^ k ≤ q) (hhi : q < 64 * 2 ^ (k + 1)) : LeastHalvings q (k + 1) where
  within := Nat.le_of_lt_succ ((Nat.div_lt_iff_lt_mul (Nat.two_pow_pos _)).2 hhi)
  least e' he' :=
    calc
      63 < q / 2 ^ k := (Nat.le_div_iff_mul_le (Nat.two_pow_pos k)).2 hlo
      _ ≤ q / 2 ^ e' := Nat.div_le_div_left (Nat.pow_le_pow_right (by decide) (Nat.le_of_lt_succ he')) (Nat.two_pow_pos e')

/-- One halving done, one fewer to do. -/
theorem LeastHalvings.halve {q e : Nat} (h : LeastHalvings q (e + 1)) : LeastHalvings (q / 2) e := by
  have hdiv : ∀ n, q / 2 / 2 ^ n = q / 2 ^ (n + 1) := fun n => by rw [Nat.div_div_eq_div_mul, Nat.pow_succ']
  exact ⟨hdiv e ▸ h.within, fun e' he' => hdiv e' ▸ h.least (e' + 1) (Nat.succ_lt_succ he')⟩

theorem encExponent_eq {fuel q e : Nat} (he : e ≤ fuel) (h : LeastHalvings q e) : encExponent fuel q = (q / 2 ^ e, e) := by
  induction fuel generalizing q e with
  | zero =>
    obtain rfl := Nat.le_zero.1 he
    simp [encExponent]
  | succ fuel ih =>
    cases e with
    | zero =>
      have hstop : ¬ encLimit < q := Nat.not_lt_of_le (by simpa [encLimit] using h.within)
      simp [encExponent, hstop]
    | succ e =>
      have hgo : encLimit < q := by simpa [encLimit] using h.least 0 (Nat.succ_pos e)
      have hrec := ih (Nat.le_of_succ_le_succ he) h.halve
      rw [encExponent, if_pos hgo, Nat.shiftRight_one, hrec, Nat.div_div_eq_div_mul, Nat.pow_succ']

/-! ### The Byte of a sign, an exponent and a mantissa -/

/-- The Byte that `encode` puts together (R101); an exponent of 8 falls on the sign. -/
def ulawCode (neg : Prop) [Decidable neg] (e m : Nat) : Byte :=
  ~~~((if neg then 0x80#8 else 0#8) ||| BitVec.ofNat 8 (16 * e) ||| BitVec.ofNat 8 m)

/-- An integer clamped to the Sample range (R101). -/
def clampSample (x : Int) : Int := max (-32768) (min x 32767)

theorem clampSample_of_natAbs_le {x : Int} (hx : x.natAbs ≤ 32767) : clampSample x = x := by
  unfold clampSample
  omega

theorem ulawEncode_eq {x : Int} {e : Nat} (he : e ≤ 8) (h : LeastHalvings ((clampSample x).natAbs / 4) e) :
    ulawEncode x = ulawCode (clampSample x < 0) e ((clampSample x).natAbs / 4 / 2 ^ e % 16) := by
  have hclamp : max clampMin (min x clampMax) = clampSample x := rfl
  have hmant : ∀ n, n &&& encCandMask &&& encMantMask = n % 16 := fun n =>
    (Nat.and_assoc n 63 15).trans (Nat.and_two_pow_sub_one_eq_mod n 4)
  have hsign : BitVec.ofNat 8 (if clampSample x < 0 then 0x80 else 0) = if clampSample x < 0 then 0x80#8 else 0#8 := by
    split <;> rfl
  simp only [ulawEncode, hclamp, encPreshift, Nat.shiftRight_eq_div_pow, Nat.reducePow, encExponent_eq he h, hmant, ulawCode,
    hsign, BitVec.ofNat_or, Nat.shiftLeft_eq, Nat.mul_comm 16]

/-- An operand of the Sample range other than −32768 has an exponent below 8, and no clamp changes it. -/
theorem ulawEncode_of_least {x : Int} {e : Nat} (he : e < 8) (h : LeastHalvings (x.natAbs / 4) e) :
    ulawEncode x = ulawCode (x < 0) e (x.natAbs / 4 / 2 ^ e % 16) := by
  have hpow : 2 ^ e ≤ 2 ^ 7 := Nat.pow_le_pow_right (by decide) (Nat.le_of_lt_succ he)
  have hlt := h.lt
  have hclamp : clampSample x = x := clampSample_of_natAbs_le (by omega)
  have henc := ulawEncode_eq (x := x) (Nat.le_of_lt he)
  simp only [hclamp] at henc
  exact henc h

theorem exists_leastHalvings_of_natAbs {x : Int} (hx : x.natAbs ≤ 32767) : ∃ e < 8, LeastHalvings (x.natAbs / 4) e := by
  obtain ⟨e, he, h⟩ := exists_leastHalvings (q := x.natAbs / 4) (n := 7) (by omega)
  exact ⟨e, Nat.lt_succ_of_le he, h⟩

theorem ulawCode_complement (neg : Prop) [Decidable neg] {e m : Nat} (he : e < 8) (hm : m < 16) :
    255 - (ulawCode neg e m).toNat = (if neg then 128 else 0) + 16 * e + m := by
  have hmant : 16 * e ||| m = 16 * e + m := (Nat.two_pow_add_eq_or_of_lt (i := 4) hm e).symm
  have hsign : 128 ||| (16 * e + m) = 128 + (16 * e + m) :=
    (Nat.two_pow_add_eq_or_of_lt (i := 7) (by omega : 16 * e + m < 2 ^ 7) 1).symm
  rw [ulawCode, BitVec.or_assoc, ← BitVec.ofNat_or, hmant, BitVec.toNat_not, BitVec.toNat_or, BitVec.toNat_ofNat,
    Nat.mod_eq_of_lt (by omega)]
  split
  · rw [show (0x80#8).toNat = 128 from rfl, hsign]
    omega
  · rw [show (0#8).toNat = 0 from rfl, Nat.zero_or]
    omega

/-- The exponent that R100 reads from a Byte. -/
def ulawExp (b : Byte) : Nat := (255 - b.toNat) / 16 % 8

/-- The mantissa that R100 reads from a Byte. -/
def ulawMant (b : Byte) : Nat := (255 - b.toNat) % 16

theorem ulawExp_lt (b : Byte) : ulawExp b < 8 := Nat.mod_lt _ (by decide)

theorem ulawMant_lt (b : Byte) : ulawMant b < 16 := Nat.mod_lt _ (by decide)

/-- Every Byte is the Byte of the fields that R100 reads from its complement. -/
theorem ulawCode_fields (b : Byte) : ulawCode (128 ≤ 255 - b.toNat) (ulawExp b) (ulawMant b) = b := by
  have hc := ulawCode_complement (128 ≤ 255 - b.toNat) (ulawExp_lt b) (ulawMant_lt b)
  have hb := b.isLt
  have hb' := (ulawCode (128 ≤ 255 - b.toNat) (ulawExp b) (ulawMant b)).isLt
  apply BitVec.eq_of_toNat_eq
  simp only [ulawExp, ulawMant] at hc hb' ⊢
  split at hc <;> omega

theorem ulawCode_mantissa_inj (neg : Prop) [Decidable neg] {e m m' : Nat} (he : e < 8) (hm : m < 16) (hm' : m' < 16) :
    ulawCode neg e m = ulawCode neg e m' ↔ m = m' := by
  refine ⟨fun h => ?_, fun h => h ▸ rfl⟩
  have hc := ulawCode_complement neg he hm
  rw [h, ulawCode_complement neg he hm'] at hc
  omega

/-! ### What the Byte decodes to -/

@[simp] theorem ulawMag_zero (m : Nat) : ulawMag 0 m = 16 * m + 8 := rfl

@[simp] theorem ulawMag_succ (k m : Nat) : ulawMag (k + 1) m = (16 * m + 264) * 2 ^ k := rfl

theorem ulawMag_pos (e m : Nat) : 0 < ulawMag e m := by
  cases e with
  | zero => exact Nat.succ_pos _
  | succ k => exact Nat.mul_pos (Nat.succ_pos _) (Nat.two_pow_pos k)

theorem ulawDecode_toInt (b : Byte) :
    (ulawDecode b).toInt =
      if 128 ≤ 255 - b.toNat then -(ulawMag (ulawExp b) (ulawMant b) : Int) else ulawMag (ulawExp b) (ulawMant b) := by
  have hlt := ulawMag_lt (ulawExp_lt b) (ulawMant_lt b)
  have hval : ulawDecodeInt b =
      if 128 ≤ 255 - b.toNat then -(ulawMag (ulawExp b) (ulawMant b) : Int) else ulawMag (ulawExp b) (ulawMant b) :=
    ulawDecodeInt_eq b
  rw [← hval]
  exact BitVec.toInt_ofInt_eq_self (by decide) (by split at hval <;> omega) (by split at hval <;> omega)

theorem ulawDecode_ulawCode (neg : Prop) [Decidable neg] {e m : Nat} (he : e < 8) (hm : m < 16) :
    (ulawDecode (ulawCode neg e m)).toInt = if neg then -(ulawMag e m : Int) else ulawMag e m := by
  have hc := ulawCode_complement neg he hm
  have hexp : ulawExp (ulawCode neg e m) = e := by
    rw [ulawExp, hc]
    split <;> omega
  have hmant : ulawMant (ulawCode neg e m) = m := by
    rw [ulawMant, hc]
    split <;> omega
  have hneg : 128 ≤ 255 - (ulawCode neg e m).toNat ↔ neg := by
    rw [hc]
    by_cases hn : neg
    · exact iff_of_true (by rw [if_pos hn]; omega) hn
    · exact iff_of_false (by rw [if_neg hn]; omega) hn
  simp only [ulawDecode_toInt, hexp, hmant, hneg]

/-! ### The round trip -/

/-- Every mantissa occurs with every exponent. -/
theorem exists_leastHalvings_mantissa (e : Nat) {m : Nat} (hm : m < 16) :
    ∃ q, LeastHalvings q e ∧ q / 2 ^ e % 16 = m := by
  cases e with
  | zero => exact ⟨m, leastHalvings_zero (by omega), by omega⟩
  | succ k =>
    refine ⟨(32 + m) * 2 ^ (k + 1), leastHalvings_succ ?_ ?_, ?_⟩
    · calc
        64 * 2 ^ k = 32 * 2 ^ (k + 1) := by ring
        _ ≤ (32 + m) * 2 ^ (k + 1) := Nat.mul_le_mul_right _ (Nat.le_add_right 32 m)
    · exact Nat.mul_lt_mul_of_pos_right (by omega) (Nat.two_pow_pos _)
    · rw [Nat.mul_div_cancel _ (Nat.two_pow_pos _)]
      omega

/-- `encode` is onto, on the Samples (R105 (b)). -/
theorem ulawEncode_surjective (b : Byte) : ∃ x : Sample, ulawEncode x.toInt = b := by
  obtain ⟨q, hq, hm⟩ := exists_leastHalvings_mantissa (ulawExp b) (ulawMant_lt b)
  have hpow : 2 ^ ulawExp b ≤ 2 ^ 7 := Nat.pow_le_pow_right (by decide) (Nat.le_of_lt_succ (ulawExp_lt b))
  have hlt := hq.lt
  obtain ⟨x, hneg, habs⟩ : ∃ x : Int, (x < 0 ↔ 128 ≤ 255 - b.toNat) ∧ x.natAbs = 4 * q + 1 := by
    by_cases hs : 128 ≤ 255 - b.toNat
    · exact ⟨-(4 * q + 1 : Nat), by omega, by omega⟩
    · exact ⟨(4 * q + 1 : Nat), by omega, by omega⟩
  have hxq : x.natAbs / 4 = q := by omega
  refine ⟨BitVec.ofInt 16 x, ?_⟩
  rw [BitVec.toInt_ofInt_eq_self (by decide) (by omega) (by omega), ulawEncode_of_least (ulawExp_lt b) (hxq.symm ▸ hq), hxq, hm]
  simp only [hneg]
  exact ulawCode_fields b

/-- The magnitude that R100 gives back has the exponent it was made of. -/
theorem leastHalvings_ulawMag (e : Nat) {m : Nat} (hm : m < 16) : LeastHalvings (ulawMag e m / 4) e := by
  cases e with
  | zero =>
    rw [ulawMag_zero]
    exact leastHalvings_zero (by omega)
  | succ k =>
    have hq : ulawMag (k + 1) m / 4 = (4 * m + 66) * 2 ^ k := by
      rw [ulawMag_succ]
      exact Nat.div_eq_of_eq_mul_right (by decide) (by ring)
    rw [hq]
    refine leastHalvings_succ (Nat.mul_le_mul_right _ (by omega)) ?_
    calc
      (4 * m + 66) * 2 ^ k < 128 * 2 ^ k := Nat.mul_lt_mul_of_pos_right (by omega) (Nat.two_pow_pos k)
      _ = 64 * 2 ^ (k + 1) := by ring

/-- The mantissa that a mantissa `m` of exponent `e` becomes when it is decoded and encoded again. -/
def mantissaBack (e m : Nat) : Nat := if e = 0 then (4 * m + 2) % 16 else (2 * m + 1) % 16

theorem mantissaBack_lt (e m : Nat) : mantissaBack e m < 16 := by
  unfold mantissaBack
  split <;> exact Nat.mod_lt _ (by decide)

theorem ulawMag_mantissa (e m : Nat) : ulawMag e m / 4 / 2 ^ e % 16 = mantissaBack e m := by
  cases e with
  | zero =>
    simp only [ulawMag_zero, mantissaBack, if_true]
    omega
  | succ k =>
    have hq : ulawMag (k + 1) m / 4 / 2 ^ (k + 1) = (16 * m + 264) / 8 := by
      rw [ulawMag_succ, Nat.div_div_eq_div_mul, show 4 * 2 ^ (k + 1) = 8 * 2 ^ k by ring,
        Nat.mul_div_mul_right _ _ (Nat.two_pow_pos k)]
    rw [hq, mantissaBack, if_neg (Nat.succ_ne_zero k)]
    omega

/-- A Byte that is decoded and encoded again keeps its sign and exponent. -/
theorem ulawEncode_ulawDecode (b : Byte) :
    ulawEncode (ulawDecode b).toInt = ulawCode (128 ≤ 255 - b.toNat) (ulawExp b) (mantissaBack (ulawExp b) (ulawMant b)) := by
  have hpos := ulawMag_pos (ulawExp b) (ulawMant b)
  have hval := ulawDecode_toInt b
  have hneg : (ulawDecode b).toInt < 0 ↔ 128 ≤ 255 - b.toNat := by split at hval <;> omega
  have habs : (ulawDecode b).toInt.natAbs = ulawMag (ulawExp b) (ulawMant b) := by split at hval <;> omega
  rw [ulawEncode_of_least (ulawExp_lt b) (habs.symm ▸ leastHalvings_ulawMag _ (ulawMant_lt b)), habs, ulawMag_mantissa]
  simp only [hneg]

/-- `encode` undoes `decode` exactly where the mantissa comes back (R105 (e)). -/
theorem ulawEncode_ulawDecode_eq_iff (b : Byte) :
    ulawEncode (ulawDecode b).toInt = b ↔ mantissaBack (ulawExp b) (ulawMant b) = ulawMant b := by
  rw [← ulawCode_mantissa_inj (128 ≤ 255 - b.toNat) (ulawExp_lt b) (mantissaBack_lt _ _) (ulawMant_lt b),
    ← ulawEncode_ulawDecode, ulawCode_fields]

/-- What an operand of the Sample range other than −32768 comes back as. -/
theorem ulawDecode_ulawEncode {x : Int} {e : Nat} (he : e < 8) (h : LeastHalvings (x.natAbs / 4) e) :
    (ulawDecode (ulawEncode x)).toInt =
      if x < 0 then -(ulawMag e (x.natAbs / 4 / 2 ^ e % 16) : Int) else ulawMag e (x.natAbs / 4 / 2 ^ e % 16) := by
  rw [ulawEncode_of_least he h, ulawDecode_ulawCode _ he (Nat.mod_lt _ (by decide))]

/-- The clamp of R101 is the first thing `encode` does. -/
theorem ulawEncode_clampSample (x : Int) : ulawEncode (clampSample x) = ulawEncode x := by
  have hidem : clampSample (clampSample x) = clampSample x := by
    unfold clampSample
    omega
  obtain ⟨e, he, h⟩ := exists_leastHalvings (q := (clampSample x).natAbs / 4) (n := 8) (by unfold clampSample; omega)
  have henc := ulawEncode_eq (x := clampSample x) he
  simp only [hidem] at henc
  rw [henc h, ulawEncode_eq he h]

/-- The round trip keeps the sign (R105 (d)); −32768 comes back as −8. -/
theorem ulawDecode_ulawEncode_neg_iff (x : Int) : (ulawDecode (ulawEncode x)).toInt < 0 ↔ x < 0 := by
  rcases le_or_gt x (-32768) with hx | hx
  · have hclamp : clampSample x = -32768 := by
      unfold clampSample
      omega
    have hval : (ulawDecode (ulawEncode (-32768))).toInt = -8 := by decide
    rw [← ulawEncode_clampSample, hclamp, hval]
    omega
  · have hlt : clampSample x < 0 ↔ x < 0 := by
      unfold clampSample
      omega
    obtain ⟨e, he, h⟩ := exists_leastHalvings_of_natAbs (x := clampSample x) (by unfold clampSample; omega)
    have hpos := ulawMag_pos e ((clampSample x).natAbs / 4 / 2 ^ e % 16)
    rw [← ulawEncode_clampSample, ulawDecode_ulawEncode he h]
    split <;> omega

/-- The distance of the round trip is that of the magnitudes, the sign being kept. -/
theorem ulawDecode_ulawEncode_sub_natAbs {x : Int} {e : Nat} (he : e < 8) (h : LeastHalvings (x.natAbs / 4) e) :
    ((ulawDecode (ulawEncode x)).toInt - x).natAbs =
      ((ulawMag e (x.natAbs / 4 / 2 ^ e % 16) : Int) - x.natAbs).natAbs := by
  rw [ulawDecode_ulawEncode he h]
  split <;> omega

/-- The error in the lowest segment (R105 (c)). -/
theorem codecError_segment_zero {x : Int} (hhi : x.natAbs ≤ 255) : ((ulawDecode (ulawEncode x)).toInt - x).natAbs ≤ 188 := by
  rw [ulawDecode_ulawEncode_sub_natAbs (by decide) (leastHalvings_zero (by omega)), ulawMag_zero]
  omega

/-- The error in the segment of the exponent k + 1 (R105 (c)): with r the six bits left of the magnitude, what comes back is
(16·(r mod 16) + 264)·2^k, and the magnitude is between 8·r and 8·r + 8 times 2^k. -/
theorem codecError_segment_succ {x : Int} {k : Nat} (hk : k < 7) (hlo : 256 * 2 ^ k ≤ x.natAbs) (hhi : x.natAbs < 512 * 2 ^ k) :
    ((ulawDecode (ulawEncode x)).toInt - x).natAbs ≤ 128 * 2 ^ k := by
  have hleast : LeastHalvings (x.natAbs / 4) (k + 1) := leastHalvings_succ (by omega) (by omega)
  have hstep : 0 < 8 * 2 ^ k := Nat.mul_pos (by decide) (Nat.two_pow_pos k)
  have hr : x.natAbs / 4 / 2 ^ (k + 1) = x.natAbs / (8 * 2 ^ k) := by
    rw [Nat.div_div_eq_div_mul, show 4 * 2 ^ (k + 1) = 8 * 2 ^ k by ring]
  obtain ⟨r, hrdef⟩ : ∃ r, x.natAbs / (8 * 2 ^ k) = r := ⟨_, rfl⟩
  have hr32 : 32 ≤ r := hrdef ▸ (Nat.le_div_iff_mul_le hstep).2 (by omega)
  have hr64 : r < 64 := hrdef ▸ (Nat.div_lt_iff_lt_mul hstep).2 (by omega)
  rw [ulawDecode_ulawEncode_sub_natAbs (Nat.succ_lt_succ hk) hleast, hr, hrdef, ulawMag_succ]
  have hover : (16 * (r % 16) + 264) * 2 ^ k ≤ x.natAbs + 128 * 2 ^ k := calc
    (16 * (r % 16) + 264) * 2 ^ k ≤ (8 * r + 128) * 2 ^ k := Nat.mul_le_mul_right _ (by omega)
    _ = r * (8 * 2 ^ k) + 128 * 2 ^ k := by ring
    _ ≤ x.natAbs + 128 * 2 ^ k := Nat.add_le_add_right (hrdef ▸ Nat.div_mul_le_self ..) _
  have hunder : x.natAbs ≤ (16 * (r % 16) + 264) * 2 ^ k + 128 * 2 ^ k := calc
    x.natAbs ≤ (r + 1) * (8 * 2 ^ k) := Nat.le_of_lt ((Nat.div_lt_iff_lt_mul hstep).1 (hrdef ▸ Nat.lt_succ_self _))
    _ = (8 * r + 8) * 2 ^ k := by ring
    _ ≤ (16 * (r % 16) + 264 + 128) * 2 ^ k := Nat.mul_le_mul_right _ (by omega)
    _ = (16 * (r % 16) + 264) * 2 ^ k + 128 * 2 ^ k := Nat.add_mul ..
  omega

/-- Settles O28: the search stops at the least exponent, which eight halvings reach. -/
theorem ulawEncFindsTheLeastExponent : Obligations.UlawEncFindsTheLeastExponent := by
  intro x s v q sign
  obtain ⟨e, he, h⟩ := exists_leastHalvings (q := q) (n := 8) (by omega)
  refine ⟨e, he, h.within, h.least, ?_⟩
  have henc : ulawEncode x.toInt = ~~~(sign ||| BitVec.ofNat 8 (16 * e) ||| BitVec.ofNat 8 (q / 2 ^ e % 16)) :=
    ulawEncode_eq he h
  rw [← henc]
  rfl

/-- Settles O30: the four properties, the sixteen Bytes by the mantissas that come back and the error segment by segment. -/
theorem codecRoundTripIsLossyAsStated : Obligations.CodecRoundTripIsLossyAsStated := by
  refine ⟨ulawEncode_surjective, fun b => ?fixed, fun x => (ulawDecode_ulawEncode_neg_iff x).symm,
    fun x row hrow hlo hhi => ?error⟩
  case fixed =>
    rw [ulawEncode_ulawDecode_eq_iff]
    revert b
    decide
  case error =>
    rcases List.mem_cons.1 hrow with rfl | hrow
    · exact codecError_segment_zero hhi
    · obtain ⟨k, hk, rfl⟩ : ∃ k < 7, row = (256 * 2 ^ k, 512 * 2 ^ k - 1, 128 * 2 ^ k) := by
        clear hlo hhi
        revert row
        decide
      exact codecError_segment_succ hk hlo (Nat.lt_of_le_sub_one (Nat.mul_pos (by decide) (Nat.two_pow_pos k)) hhi)

/-! ### The buffers -/

/-- A codec buffer command whose beats are there answers `OK` and puts the function of each beat on `DOUT` (R102, R103). -/
theorem codecBuffer_of_beats {o : Op} {len : Word} {f : Word → Word} {s : State} (h : len.toNat ≤ s.din.length) :
    codecBuffer o len f s =
      accept o 0#8 [] ((s.consume 2 len.toNat).emit ((s.din.take len.toNat).map f)) := by
  rw [codecBuffer, buffered, if_neg (Nat.not_lt_of_le h)]

/-- Settles O29: the two commands are codec buffers of the scalar functions. -/
theorem codecBuffersAreElementWise : Obligations.CodecBuffersAreElementWise :=
  fun _ _ h => ⟨congrArg Host.Outcome.next (codecBuffer_of_beats h), congrArg Host.Outcome.next (codecBuffer_of_beats h)⟩

end Sys2Proof.Machine

/-! ## Single-pole designers, creation and a clean chunk (R120 to R127, R140, R152, R172, R37)

Each designer gives its coefficients exactly where R218 lists no cause against the configuration. The eleven creations are then
one operation (`exec_creation`): `create` of the context that the operands make, unless the configuration is rejected. -/

namespace Sys2Proof.Machine
open F64

/-! ### The designers against the causes of R218 -/

theorem designAlpha_eq (f : Num → Num → Num) (fc fs : Num) :
    designAlpha f fc fs = if !(ratesRejected fc fs || !finite (f fc fs)) then some (f fc fs) else none := by
  rw [designAlpha, validFcFs_eq, Bool.not_or, Bool.not_not]

theorem designBp_eq (low high fs : Num) :
    designBp low high fs =
      if !(ratesRejected low fs || ratesRejected high fs || !finite (alphaHP low fs) || !finite (alphaLP high fs))
      then some ⟨alphaHP low fs, alphaLP high fs⟩ else none := by
  have hstages : (ratesRejected low fs || ratesRejected high fs || !finite (alphaHP low fs) || !finite (alphaLP high fs)) =
      ((ratesRejected low fs || !finite (alphaHP low fs)) || (ratesRejected high fs || !finite (alphaLP high fs))) := by
    ac_rfl
  rw [designBp, designAlpha_eq, designAlpha_eq, hstages]
  cases ratesRejected low fs || !finite (alphaHP low fs) <;>
    cases ratesRejected high fs || !finite (alphaLP high fs) <;> rfl

theorem designBq_eq (d : Num → Num → Num → BqCoef) (f fs q : Num) :
    designBq d f fs q =
      if !(ratesRejected f fs || qRejected q || !(d f fs q).allFinite) then some (d f fs q) else none := by
  rw [designBq, validBq_eq, Bool.not_or (_ || _), Bool.not_not]

theorem designFir_eq (nmax : Nat) (fc fs : Num) (n : Nat) :
    designFir nmax fc fs n =
      if !(ratesRejected fc fs || tapsRejected nmax n || isZero (firSum (firRaw fc fs n))
        || !finite (firSum (firRaw fc fs n)) || (firDesign fc fs n).any (fun c => !finite c))
      then some (firDesign fc fs n) else none := by
  simp only [designFir, validFir, validFcFs_eq, validTaps_eq, ← List.not_all_eq_any_not, Bool.not_or, Bool.not_not]

theorem givenNum_eq (v : Num) : givenNum v = if !!finite v then some v else none := by
  rw [givenNum, Bool.not_not]

theorem givenBp_eq (aH aL : Num) :
    givenBp aH aL = if !(!finite aH || !finite aL) then some ⟨aH, aL⟩ else none := by
  rw [givenBp, Bool.not_or, Bool.not_not, Bool.not_not]

theorem givenBq_eq (a0 a1 a2 b1 b2 : Num) :
    givenBq ⟨a0, a1, a2, b1, b2⟩ =
      if !([a0, a1, a2, b1, b2].any fun c => !finite c) then some ⟨a0, a1, a2, b1, b2⟩ else none := by
  simp [givenBq, BqCoef.allFinite, and_assoc]

theorem givenFir_eq (nmax : Nat) (cs : List Num) :
    givenFir nmax cs = if !(tapsRejected nmax cs.length || cs.any fun c => !finite c) then some cs else none := by
  rw [givenFir, validTaps_eq, ← List.not_all_eq_any_not, Bool.not_or, Bool.not_not]

theorem firDesign_length (fc fs : Num) (n : Nat) : (firDesign fc fs n).length = n := by
  simp [firDesign, firRaw]

/-! ### The eleven creations are one operation -/

/-- The context that the operands of a creation make: its kind, the designed or given coefficients, and the zero state of R37.
None for a command that creates no context. -/
def madeContext : Instr → Option Context
  | .createHp _ fc fs => some (newHp (alphaHP fc fs))
  | .createLp _ fc fs => some (newLp (alphaLP fc fs))
  | .createBp _ low high fs => some (newBp ⟨alphaHP low fs, alphaLP high fs⟩)
  | .createBqbp _ f fs q => some (newBq (bqDesignBp f fs q))
  | .createBqhp _ f fs q => some (newBq (bqDesignHp f fs q))
  | .createFir _ n fc fs => some (newFir (firDesign fc fs n.toNat))
  | .createcHp _ a => some (newHp a)
  | .createcLp _ a => some (newLp a)
  | .createcBp _ aH aL => some (newBp ⟨aH, aL⟩)
  | .createcBq _ a0 a1 a2 b1 b2 => some (newBq ⟨a0, a1, a2, b1, b2⟩)
  | .createcFir _ cs => some (newFir cs)
  | _ => none

/-- A creation writes the context that its operands make, unless R218 lists a cause against them. -/
theorem exec_creation {i : Instr} {k : Context} (hk : madeContext i = some k) (s : State) :
    exec i s =
      .next (create i.op i.ctx (if !configRejected s.par.nmax i then some k else none) (s.taken i)) := by
  cases i <;> cases hk
  case createHp | createLp => simp only [exec, execCreateHp, execCreateLp, designAlpha_eq, Option.map_if]; rfl
  case createBp => simp only [exec, execCreateBp, designBp_eq, Option.map_if]; rfl
  case createBqbp | createBqhp => simp only [exec, execCreateBqbp, execCreateBqhp, designBq_eq, Option.map_if]; rfl
  case createFir => simp only [exec, execCreateFir, designFir_eq, Option.map_if]; rfl
  case createcHp | createcLp => simp only [exec, execCreatecHp, execCreatecLp, givenNum_eq, Option.map_if]; rfl
  case createcBp => simp only [exec, execCreatecBp, givenBp_eq, Option.map_if]; rfl
  case createcBq => simp only [exec, execCreatecBq, givenBq_eq, Option.map_if]; rfl
  case createcFir => simp only [exec, execCreatecFir, givenFir_eq, Option.map_if]; rfl

theorem beats_of_madeContext {i : Instr} {k : Context} (hk : madeContext i = some k) : i.beats = 0 := by
  cases i <;> cases hk <;> rfl

theorem create_of_inRange {o : Op} {c : Byte} {k : Context} {s : State} (hr : c.toNat < s.par.nctx) :
    create o c (some k) s = accept o c [] (s.putCtx c.toNat k) := if_pos hr

/-- A creation without a cause of `CFG_INVALID`, of a context that exists. -/
theorem exec_creation_accepted {i : Instr} {s : State} {k : Context} (hk : madeContext i = some k)
    (hr : i.ctx.toNat < s.par.nctx) (hok : configRejected s.par.nmax i = false) :
    exec i s = .next { s with
      ctx := Bank.set s.ctx i.ctx.toNat k
      cmd := s.cmd.drop i.numWords
      rsp := s.rsp ++ [(i.op.code ++ i.ctx ++ 0#16 : Word)] } := by
  rw [exec_creation hk, hok, Bool.not_false, if_pos rfl, create_of_inRange (s := s.taken i) hr, ← respHeader_ok, State.taken,
    beats_of_madeContext hk]
  rfl

/-- Settles O41: the context is the one that the operands make. -/
theorem createGivesDesignedCoefficientsAndZeroState : Obligations.CreateGivesDesignedCoefficientsAndZeroState := by
  intro i s k hr hok hk
  refine exec_creation_accepted ?_ hr hok
  cases i <;> cases hk
  case createFir c n fc fs => simp only [madeContext, newFir, firDesign_length]
  all_goals rfl

/-- Settles O42: the context is the one that the operands make. -/
theorem createcGivesGivenCoefficientsAndZeroState : Obligations.CreatecGivesGivenCoefficientsAndZeroState := by
  intro i s k hr hok hk
  refine exec_creation_accepted ?_ hr hok
  cases i <;> cases hk <;> rfl

/-! ### The single-pole designers -/

theorem designAlpha_of_valid {f : Num → Num → Num} {fc fs : Num} (hv : validFcFs fc fs = true)
    (hf : finite (f fc fs) = true) : designAlpha f fc fs = some (f fc fs) := by
  rw [designAlpha, hv, hf]
  rfl

/-- Settles O37: a valid configuration with a finite α is answered with the two words of α. -/
theorem alphaDesignersAnswerTheFormula : Obligations.AlphaDesignersAnswerTheFormula := by
  intro fc fs s hv rc dt aH aL
  refine ⟨fun hf => ?hp, fun hf => ?lp⟩
  case hp =>
    have hα : designAlpha alphaHP fc fs = some aH := designAlpha_of_valid hv hf
    rw [exec, execAlphaHp, hα]
    rfl
  case lp =>
    have hα : designAlpha alphaLP fc fs = some aL := designAlpha_of_valid hv hf
    rw [exec, execAlphaLp, hα]
    rfl

/-! ### A clean chunk -/

theorem Flag.or_ofOvf (x : BitVec 32) (ovf : Bool) : x ||| Flag.ofOvf ovf = if ovf then x ||| 0x00000001#32 else x := by
  cases ovf
  · exact BitVec.or_zero
  · rfl

/-- Settles O43: the chunk's result is put away by `finishProc`. -/
theorem processingACleanChunkCompletes : Obligations.ProcessingACleanChunkCompletes := by
  intro kd c len s k k' ys ovf hr hk hlen hrun
  have hrun : runOfKind kd k ((s.din.take len.toNat).map beatS16) = .done k' ys ovf := hrun
  rw [exec_processCommand_active hr hk hlen, hrun, ← respHeader_ok, ← Flag.or_ofOvf]
  rfl

end Sys2Proof.Machine

/-! ## The band-pass cascade (R143, R144)

A band-pass chunk is the low-pass stage on the outputs of the high-pass stage. Said sample by sample this is the fold of `bpStep`
(R143); said with commands it is `PROC.HP` and `PROC.LP` on two contexts (R144). -/

namespace Sys2Proof.Machine

/-! ### Sample by sample -/

theorem bpStep_eq (co : BpCoef) (st : BpState) (x : Sample) :
    bpStep co st x =
      (hpStep co.alphaHP ⟨st.prevInHP, st.prevOutHP⟩ x).bind fun u =>
        (lpStep co.alphaLP st.prevOutLP u.out).map fun v => ⟨v.out, u.ovf || v.ovf, ⟨u.st.prevIn, u.st.prevOut, v.st⟩⟩ := by
  rw [bpStep]
  cases hpStep co.alphaHP ⟨st.prevInHP, st.prevOutHP⟩ x with
  | none => rfl
  | some u => dsimp only [Option.bind_some]; cases lpStep co.alphaLP st.prevOutLP u.out <;> rfl

theorem bpProcess_eq (co : BpCoef) (st : BpState) (xs : List Sample) :
    bpProcess co st xs =
      (hpProcess co.alphaHP ⟨st.prevInHP, st.prevOutHP⟩ xs).bind fun u =>
        (lpProcess co.alphaLP st.prevOutLP u.ys).map fun v => ⟨v.ys, u.ovf || v.ovf, ⟨u.st.prevIn, u.st.prevOut, v.st⟩⟩ := by
  rw [bpProcess]
  cases hpProcess co.alphaHP ⟨st.prevInHP, st.prevOutHP⟩ xs with
  | none => rfl
  | some u => dsimp only [Option.bind_some]; cases lpProcess co.alphaLP st.prevOutLP u.ys <;> rfl

/-- A band-pass chunk with one sample more at its front. The cascade meets the low-pass step on the first output before the
high-pass stage on the rest; no result depends on that order, because a chunk fails when either stage does. -/
theorem bpProcess_cons (co : BpCoef) (st : BpState) (x : Sample) (xs : List Sample) :
    bpProcess co st (x :: xs) =
      (bpStep co st x).bind fun o => (bpProcess co o.st xs).map fun r => ⟨o.out :: r.ys, o.ovf || r.ovf, r.st⟩ := by
  rw [bpProcess_eq, bpStep_eq, hpProcess, process_cons]
  cases hpStep co.alphaHP ⟨st.prevInHP, st.prevOutHP⟩ x with
  | none => rfl
  | some u =>
    cases hl : lpStep co.alphaLP st.prevOutLP u.out with
    | none => cases hu : process (hpStep co.alphaHP) u.st xs <;> simp [lpProcess, process_cons, hu, hl]
    | some v =>
      simp only [Option.bind_some, Option.map_some, bpProcess_eq, hpProcess, hl]
      cases process (hpStep co.alphaHP) u.st xs with
      | none => rfl
      | some us =>
        simp only [Option.bind_some, Option.map_some, lpProcess, process_cons, hl]
        cases process (lpStep co.alphaLP) v.st us.ys with
        | none => rfl
        | some vs => simp only [Option.map_some]; ac_rfl

/-- Settles O49, by induction on the chunk. -/
theorem bandpassCascadesSampleBySample : Obligations.BandpassCascadesSampleBySample := by
  intro co st xs
  induction xs generalizing st with
  | nil => rfl
  | cons x xs ih => simp only [bpProcess_cons, process_cons, ih]

/-! ### By commands -/

/-- `procCommand_accepted` for a context that is known, with the response header written out. -/
theorem procCommand_ran {kd : Kind} {c : Byte} {len : Word} {s a : State} {k : Context}
    (hk : Bank.get s.ctx c.toNat = some k) (h : exec (processCommand kd c len) s = .next a)
    (hrsp : a.rsp = s.rsp ++ [((processCommand kd c len).op.code ++ c ++ 0#16 : Word)]) :
    ∃ k' ys ovf, runOfKind kd k ((s.din.take len.toNat).map beatS16) = .done k' ys ovf ∧
      a = finishProc (processCommand kd c len).op c (.done k' ys ovf) (s.consume 2 len.toNat) := by
  rw [← respHeader_ok] at hrsp
  obtain ⟨-, -, k', k'', ys, ovf, hk', hrun, ha⟩ := procCommand_accepted h hrsp
  obtain rfl := Option.some.inj (hk.symm.trans hk')
  exact ⟨k'', ys, ovf, hrun, ha⟩

@[simp] theorem finishProc_done_ctx (o : Op) (c : Byte) (k : Context) (ys : List Sample) (ovf : Bool) (s : State) :
    (finishProc o c (.done k ys ovf) s).ctx = Bank.set s.ctx c.toNat k := rfl

@[simp] theorem finishProc_done_dout (o : Op) (c : Byte) (k : Context) (ys : List Sample) (ovf : Bool) (s : State) :
    (finishProc o c (.done k ys ovf) s).dout = s.dout ++ ys.map sampleWord := rfl

/-- The outputs of a chunk, put back on `DIN`, come in as they were (R51). -/
theorem map_beatS16_take_sampleWord {ys : List Sample} {n : Nat} (h : ys.length ≤ n) :
    ((ys.map sampleWord).take n).map beatS16 = ys := by
  rw [List.take_of_length_le (by simpa using h), List.map_map]
  exact (List.map_congr_left fun y _ => beatS16_sampleWord y).trans (List.map_id ys)

/-- Settles O48: the two accepted commands ran the two stages, on the second the outputs of the first, so that the band-pass
chunk is theirs. -/
theorem bandpassEqualsTwoSinglePoleContexts : Obligations.BandpassEqualsTwoSinglePoleContexts := by
  intro s a b t c0 c1 c2 len co st hne hlen h0 h1 h2 hr ha harsp hb hbrsp ht
  have hne : c1.toNat ≠ c2.toNat := fun h => hne (BitVec.eq_of_toNat_eq h)
  obtain ⟨k1, us, o1, hu, rfl⟩ := procCommand_ran (kd := .hp) h1 ha harsp
  obtain ⟨st1, hhp, rfl⟩ := ofRun_eq_done.1 hu
  obtain ⟨k2, ys, o2, hv, rfl⟩ := procCommand_ran (kd := .lp) ((Bank.get_set_other _ _ hne).trans h2) hb hbrsp
  have hus : us.length ≤ len.toNat := by
    rw [process_length _ hhp, List.length_map]
    exact List.length_take_le _ _
  simp only [finishProc_done_dout, State.consume_dout, List.drop_left, map_beatS16_take_sampleWord hus] at hv
  obtain ⟨st2, hlp, rfl⟩ := ofRun_eq_done.1 hv
  have hrun : runOfKind .bp (.bp co st) ((s.din.take len.toNat).map beatS16) =
      .done (.bp co ⟨st1.prevIn, st1.prevOut, st2⟩) ys (o1 || o2) :=
    congrArg (ofRun (.bp co)) (bpProcess_of_stages hhp hlp)
  have ht := (exec_processCommand_active (kd := .bp) hr h0 hlen).symm.trans ht
  rw [hrun] at ht
  obtain rfl := Host.Outcome.next.inj ht
  refine ⟨congrArg (fun w => s.rsp ++ [w]) (respHeader_ok .procBp c0), ?samples, _, Bank.get_set_same _ _ _, ?hp, ?lp⟩
  case samples => simp
  case hp => exact (Bank.get_set_other _ _ hne.symm).trans (Bank.get_set_same _ _ _)
  case lp => exact Bank.get_set_same _ _ _

end Sys2Proof.Machine

/-! ## The biquad designers (R150, R151, R155)

`BQD.BP` and `BQD.HP` differ in the designer alone: what a valid configuration is answered with is said once, for any designer. -/

namespace Sys2Proof.Machine
open F64

/-- The five coefficients in the order of the payload (R79). -/
def BqCoef.nums (co : BqCoef) : List Num := [co.a0, co.a1, co.a2, co.b1, co.b2]

theorem BqCoef.allFinite_eq_all_nums (co : BqCoef) : co.allFinite = co.nums.all finite := by
  simp [BqCoef.allFinite, BqCoef.nums, Bool.and_assoc]

theorem bqWords_eq_flatMap_nums (co : BqCoef) : bqWords co = co.nums.flatMap f64Words := by
  simp [bqWords, BqCoef.nums, f64Words]

theorem designBq_of_valid {d : Num → Num → Num → BqCoef} {f fs q : Num} (hv : validBq f fs q = true)
    (hf : (d f fs q).nums.all finite = true) : designBq d f fs q = some (d f fs q) := by
  rw [designBq, hv, BqCoef.allFinite_eq_all_nums, hf]
  rfl

/-- A biquad designer answers a valid configuration whose coefficients are finite with their words. -/
theorem design_designBq_of_valid (o : Op) {d : Num → Num → Num → BqCoef} {f fs q : Num} (s : State)
    (hv : validBq f fs q = true) (hf : (d f fs q).nums.all finite = true) :
    design o ((designBq d f fs q).map bqWords) (s.consume 7 0) = { s with
      cmd := s.cmd.drop 7
      rsp := s.rsp ++ (o.code ++ 0#8 ++ 0#16 : Word) :: (d f fs q).nums.flatMap f64Words } := by
  rw [designBq_of_valid hv hf, Option.map_some, bqWords_eq_flatMap_nums, ← respHeader_ok]
  rfl

/-- Settles O38: the five coefficients are those of `bqDesignBp`. -/
theorem bandpassBiquadDesignerAnswersTheFormula : Obligations.BandpassBiquadDesignerAnswersTheFormula := by
  intro f fs q s hv w0 al norm cs hf
  exact congrArg Host.Outcome.next (design_designBq_of_valid .bqdBp (d := bqDesignBp) s hv hf)

/-- Settles O39: the five coefficients are those of `bqDesignHp`. -/
theorem highpassBiquadDesignerAnswersTheFormula : Obligations.HighpassBiquadDesignerAnswersTheFormula := by
  intro f fs q s hv w0 al norm cw a0 cs hf
  exact congrArg Host.Outcome.next (design_designBq_of_valid .bqdHp (d := bqDesignHp) s hv hf)

end Sys2Proof.Machine

/-! ## The FIR family (R54, R170, R176)

In an addressed history one location stands for each of the last N inputs; in the plain convolution they are a list, newest
first. `FirState.Holds` relates the two, and a step keeps it. -/

namespace Sys2Proof.Machine
open F64

/-! ### Two recurrences that agree -/

/-- Two steps agree in their output and its saturation, and leave related states. -/
def StepOut.Agree {σ τ : Type} (R : σ → τ → Prop) (o : StepOut σ) (p : StepOut τ) : Prop :=
  o.out = p.out ∧ o.ovf = p.ovf ∧ R o.st p.st

/-- From related states two recurrences answer the same samples and the same saturation, or both fail, when their steps do. -/
theorem process_outputs_eq {σ τ : Type} {R : σ → τ → Prop} {f : σ → Sample → Option (StepOut σ)}
    {g : τ → Sample → Option (StepOut τ)} (hstep : ∀ s t x, R s t → Option.Rel (StepOut.Agree R) (f s x) (g t x))
    {s : σ} {t : τ} (h : R s t) (xs : List Sample) :
    (process f s xs).map (fun r => (r.ys, r.ovf)) = (process g t xs).map (fun r => (r.ys, r.ovf)) := by
  induction xs generalizing s t with
  | nil => rfl
  | cons x xs ih =>
    rw [process_cons, process_cons]
    have hsteps := hstep s t x h
    generalize f s x = fo, g t x = go at hsteps ⊢
    cases hsteps with
    | none => rfl
    | @some o p hop =>
      obtain ⟨hout, hovf, hst⟩ := hop
      have hrest := congrArg (Option.map fun q => (o.out :: q.1, o.ovf || q.2)) (ih hst)
      simpa [Option.map_map, Function.comp_def, ← hout, ← hovf] using hrest

/-! ### The circular buffer holds the window -/

/-- Behind the write position the history holds the window `w`, newest sample first, with 0 where `w` has ended: what tap j + 1
will read once the next sample is written at `wp`. -/
def FirState.Holds (n : Nat) (st : FirState) (w : List Sample) : Prop :=
  st.hist.length = n ∧ st.wp < n ∧ ∀ j, j + 1 < n → histRead st.hist (tapAddr n st.wp (j + 1)) = w.getD j 0#16

theorem histRead_histWrite_same {h : List Sample} {a : Nat} (ha : a < h.length) (x : Sample) :
    histRead (histWrite h a x) a = x := by
  rw [histRead, histWrite, List.getD_eq_getElem?_getD, List.getElem?_set_self ha, Option.getD_some]

theorem histRead_histWrite_other {h : List Sample} {a b : Nat} (hab : a ≠ b) (x : Sample) :
    histRead (histWrite h a x) b = histRead h b := by
  rw [histRead, histRead, histWrite, List.getD_eq_getElem?_getD, List.getElem?_set_ne hab, List.getD_eq_getElem?_getD]

theorem FirState.zero_holds {n : Nat} (hn : 0 < n) : FirState.Holds n ⟨List.replicate n 0#16, 0⟩ [] :=
  ⟨List.length_replicate, hn, fun j _ => List.getD_replicate _ (tapAddr_lt hn 0 (j + 1))⟩

/-- Once the new sample is written, tap j reads the sample that arrived j samples ago. -/
theorem FirState.Holds.histRead_tapAddr {n : Nat} {st : FirState} {w : List Sample} (h : st.Holds n w) (x : Sample) {j : Nat}
    (hj : j < n) : histRead (histWrite st.hist st.wp x) (tapAddr n st.wp j) = ((x :: w).take n).getD j 0#16 := by
  obtain ⟨hlen, hwp, hread⟩ := h
  rw [List.getD_eq_getElem?_getD, List.getElem?_take_of_lt hj]
  cases j with
  | zero => rw [tapAddr_zero hwp, histRead_histWrite_same (hlen ▸ hwp)]; rfl
  | succ j =>
    rw [histRead_histWrite_other (tapAddr_succ_ne hwp hj).symm, hread j hj, List.getElem?_cons_succ,
      List.getD_eq_getElem?_getD]

/-- The write and the advance of `wp` push the new sample onto the window. -/
theorem FirState.Holds.push {n : Nat} {st : FirState} {w : List Sample} (h : st.Holds n w) (x : Sample) :
    FirState.Holds n ⟨histWrite st.hist st.wp x, (st.wp + 1) % n⟩ ((x :: w).take n) := by
  have ⟨hlen, hwp, _⟩ := h
  refine ⟨(List.length_set ..).trans hlen, Nat.mod_lt _ (Nat.zero_lt_of_lt hwp), fun j hj' => ?_⟩
  have hj : j < n := Nat.lt_of_succ_lt hj'
  rw [tapAddr_advance hwp hj]
  exact h.histRead_tapAddr x hj

/-- The convolution sum over the buffer is the one over the window. -/
theorem FirState.Holds.firAcc_eq {n : Nat} {st : FirState} {w : List Sample} (h : st.Holds n w) (cs : List Num) (x : Sample) :
    firAcc n cs (histWrite st.hist st.wp x) st.wp =
      (List.range n).foldl
        (fun acc j => add acc (mul (sampleNum (((x :: w).take n).getD j 0#16)) (cs.getD j zero))) zero :=
  List.foldl_ext _ _ _ fun acc j hj => by rw [h.histRead_tapAddr x (List.mem_range.1 hj)]

theorem firStep_agrees_directFirStep {n : Nat} (cs : List Num) (st : FirState) (w : List Sample) (x : Sample)
    (h : st.Holds n w) : Option.Rel (StepOut.Agree (FirState.Holds n)) (firStep n cs st x) (directFirStep n cs w x) := by
  simp only [firStep, directFirStep, h.firAcc_eq]
  split
  · exact .some ⟨rfl, rfl, h.push x⟩
  · exact .none

/-- Settles O52: the zero state holds the empty window, and from related states the steps agree. -/
theorem firIsTheDirectConvolution : Obligations.FirIsTheDirectConvolution := by
  intro n cs xs hn
  exact process_outputs_eq (firStep_agrees_directFirStep cs) (FirState.zero_holds hn) xs

/-! ### The designer -/

theorem firSum_map {α : Type} (r : α → Num) (is : List α) :
    firSum (is.map r) = is.foldl (fun acc i => add acc (r i)) zero := List.foldl_map

/-- The design in one pass over the taps. -/
theorem firDesign_eq (fc fs : Num) (n : Nat) :
    firDesign fc fs n =
      (List.range n).map fun i => div (firTap (omega fc fs) n i) (firSum (firRaw fc fs n)) := by
  rw [firDesign, firRaw, List.map_map]
  rfl

theorem designFir_of_valid {nmax : Nat} {fc fs : Num} {n : Nat} (hv : validFir nmax fc fs n = true)
    (hz : isZero (firSum (firRaw fc fs n)) = false) (hs : finite (firSum (firRaw fc fs n)) = true)
    (hf : (firDesign fc fs n).all finite = true) : designFir nmax fc fs n = some (firDesign fc fs n) := by
  rw [designFir, hv, hz, hs, hf]
  rfl

/-- The FIR designer answers a valid configuration whose sum and coefficients R218 (d) allows with the coefficients' words. -/
theorem exec_firdLp_of_valid {n : BitVec 16} {fc fs : Num} {s : State} (hv : validFir s.par.nmax fc fs n.toNat = true)
    (hz : isZero (firSum (firRaw fc fs n.toNat)) = false) (hs : finite (firSum (firRaw fc fs n.toNat)) = true)
    (hf : (firDesign fc fs n.toNat).all finite = true) :
    exec (.firdLp n fc fs) s = .next { s with
      cmd := s.cmd.drop 5
      rsp := s.rsp ++ (Op.firdLp.code ++ 0#8 ++ 0#16 : Word) :: (firDesign fc fs n.toNat).flatMap f64Words } := by
  rw [exec, execFirdLp, designFir_of_valid hv hz hs hf, ← respHeader_ok]
  rfl

/-- Settles O40: the windowed sinc is `firTap`, its normalisation `firDesign`. -/
theorem firDesignerAnswersTheWindowedSinc : Obligations.FirDesignerAnswersTheWindowedSinc := by
  intro n fc fs s hv w m r sum cs hz hs hf
  have hsum : firSum (firRaw fc fs n.toNat) = sum := firSum_map r _
  have hcs : firDesign fc fs n.toNat = cs := by rw [firDesign_eq, hsum]; rfl
  rw [← hcs] at hf ⊢
  rw [← hsum] at hz hs
  exact exec_firdLp_of_valid hv hz hs hf

end Sys2Proof.Machine

/-! ## The context and system commands (R190 to R198)

What each of them does on an ACTIVE context is said once. A state image is then a way of writing a context down: an image with no
fault of R192 is read as the context whose image it is (`parseState_of_imageSound`), and the image of a context that holds
allowed values as that context (`parseState_stateImage`). -/

namespace Sys2Proof.Machine

/-! ### The commands on an ACTIVE context -/

/-- The state after an accepted command, the lower half of the response header written as one field. -/
theorem accept_eq (o : Op) (c : Byte) (payload : List Word) (s : State) :
    accept o c payload s = { s with rsp := s.rsp ++ (o.code ++ c ++ 0#16 : Word) :: payload } := by
  rw [accept, respHeader_ok]
  rfl

theorem withContext_of_active {o : Op} {c : Byte} {s : State} {go : Context → State} {k : Context}
    (hr : c.toNat < s.par.nctx) (hk : Bank.get s.ctx c.toNat = some k) : withContext o c s go = go k := by
  rw [withContext, inRange, if_pos hr, hk]

theorem withContext_of_inactive {o : Op} {c : Byte} {s : State} {go : Context → State} (hr : c.toNat < s.par.nctx)
    (hk : Bank.get s.ctx c.toNat = none) : withContext o c s go = refuse o c .ctxInactive s := by
  rw [withContext, inRange, if_pos hr, hk]

section
variable {c : Byte} {s : State} {k : Context} (hr : c.toNat < s.par.nctx) (hk : Bank.get s.ctx c.toNat = some k)
include hr hk

theorem exec_stateRd_active :
    exec (.stateRd c) s = .next (accept .stateRd c (ctxcfg k :: stateImage k) (s.consume 1 0)) :=
  congrArg Host.Outcome.next (withContext_of_active (s := s.consume 1 0) hr hk)

theorem exec_coefRd_active :
    exec (.coefRd c) s = .next (accept .coefRd c (ctxcfg k :: coefImage k) (s.consume 1 0)) :=
  congrArg Host.Outcome.next (withContext_of_active (s := s.consume 1 0) hr hk)

theorem exec_release_active :
    exec (.release c) s = .next (accept .release c [] ((s.consume 1 0).dropCtx c.toNat)) :=
  congrArg Host.Outcome.next (withContext_of_active (s := s.consume 1 0) hr hk)

theorem exec_stateWr_active (ws : List Word) :
    exec (.stateWr c ws) s = .next (stateWritten c (parseState k ws) (s.consume (2 + ws.length) 0)) :=
  congrArg Host.Outcome.next (withContext_of_active (s := s.consume (2 + ws.length) 0) hr hk)

/-- An image that is read as `k'` is stored as `k'`. -/
theorem exec_stateWr_of_parseState {ws : List Word} {k' : Context} (hp : parseState k ws = some k') :
    exec (.stateWr c ws) s = .next (accept .stateWr c [] ((s.consume (2 + ws.length) 0).putCtx c.toNat k')) := by
  rw [exec_stateWr_active hr hk, hp]
  rfl

end

theorem exec_release_inactive {c : Byte} {s : State} (hr : c.toNat < s.par.nctx)
    (hk : Bank.get s.ctx c.toNat = none) :
    exec (.release c) s = .next (refuse .release c .ctxInactive (s.consume 1 0)) :=
  congrArg Host.Outcome.next (withContext_of_inactive (s := s.consume 1 0) hr hk)

/-- Settles O54: the images field by field are `stateImage` and `coefImage`. -/
theorem contextReadsAnswerTheImages : Obligations.ContextReadsAnswerTheImages := by
  intro c s k hr hk num smp
  rw [exec_stateRd_active hr hk, exec_coefRd_active hr hk, accept_eq, accept_eq]
  cases k <;> exact ⟨rfl, rfl⟩

/-- Settles O59: the released context reads as INACTIVE, so that the second release finds none. -/
theorem releaseEndsTheContext : Obligations.ReleaseEndsTheContext := by
  intro c s k hr hk
  have hnone := Bank.get_erase_same s.ctx c.toNat
  refine ⟨_, exec_release_active hr hk, hnone, fun d hd => Bank.get_erase_other _ hd.symm, ?frame,
    exec_release_inactive hr hnone⟩
  case frame => exact accept_eq ..

/-- Settles O60: the word is the encoding of the command, so that a step decodes it. -/
theorem statusReadAnswersStatus : Obligations.StatusReadAnswersStatus := by
  refine ⟨rfl, fun _ => rfl, fun s ws hh hcmd => ?runs, fun _ _ hh _ => step_of_halt hh⟩
  case runs =>
    have hd : decode s.cmd = .instr .statusRd := decode_eq_instr_iff.2 ⟨rfl, ws, hcmd⟩
    have hdrop : s.cmd.drop 1 = ws := by rw [hcmd]; rfl
    rw [step_of_instr hh hd, ← hdrop]
    rfl

/-! ### State images -/

theorem parseSample_of_signExtended {w : Word} (h : sampleWord (beatS16 w) = w) : parseSample w = some (beatS16 w) :=
  if_pos h

theorem parseNum_of_finite {lo hi : Word} (h : F64.finite (f64 lo hi) = true) : parseNum lo hi = some (f64 lo hi) :=
  if_pos h

theorem parseSamples_of_signExtended {ws : List Word} (h : ∀ w ∈ ws, sampleWord (beatS16 w) = w) :
    parseSamples ws = some (ws.map beatS16) := by
  induction ws with
  | nil => rfl
  | cons w ws ih =>
    obtain ⟨hw, hws⟩ := List.forall_mem_cons.1 h
    rw [parseSamples, parseSample_of_signExtended hw, ih hws]
    rfl

theorem map_sampleWord_map_beatS16 {ws : List Word} (h : ∀ w ∈ ws, sampleWord (beatS16 w) = w) :
    (ws.map beatS16).map sampleWord = ws := by
  rw [List.map_map]
  exact (List.map_congr_left h).trans (List.map_id ws)

/-- An image without one of the faults that R192 lists. -/
structure ImageSound (k : Context) (ws : List Word) : Prop where
  length : ws.length = stateImageWords k.kind k.ntaps
  samples : ∀ w ∈ imageSamples k.kind ws, sampleWord (beatS16 w) = w
  nums : ∀ p ∈ imageNums k.kind ws, F64.finite (f64 p.1 p.2) = true
  wp : k.kind = .fir → ∀ w ∈ ws.head?, w.toNat < k.ntaps

theorem imageSound_of_not_imageRejected {k : Context} {ws : List Word} (h : imageRejected k ws = false) :
    ImageSound k ws := by
  simp only [imageRejected, Bool.or_eq_false_iff] at h
  obtain ⟨⟨⟨hlen, hsamples⟩, hnums⟩, hwp⟩ := h
  constructor
  case length => simpa using hlen
  case samples => simpa [sampleWord, beatS16] using hsamples
  case nums => simpa using hnums
  case wp =>
    intro hkind w hw
    simpa [hkind, Option.mem_def.1 hw] using hwp

/-- A sound image is read as a context whose image it is. -/
theorem parseState_of_imageSound {k : Context} {ws : List Word} (h : ImageSound k ws) :
    ∃ k', parseState k ws = some k' ∧ stateImage k' = ws := by
  obtain ⟨hlen, hs, hn, hwp⟩ := h
  cases k with
  | hp a st =>
    match ws, hlen with
    | [w, l, h], _ =>
      have hw : sampleWord (beatS16 w) = w := hs w (.head _)
      have hy : F64.finite (f64 l h) = true := hn (l, h) (.head _)
      exact ⟨.hp a ⟨beatS16 w, f64 l h⟩, by simp [parseState, parseSample_of_signExtended hw, parseNum_of_finite hy],
        by simp [stateImage, hw]⟩
  | lp a y =>
    match ws, hlen with
    | [l, h], _ =>
      have hy : F64.finite (f64 l h) = true := hn (l, h) (.head _)
      exact ⟨.lp a (f64 l h), by simp [parseState, parseNum_of_finite hy], by simp [stateImage]⟩
  | bp co st =>
    match ws, hlen with
    | [w, l, h, l', h'], _ =>
      have hw : sampleWord (beatS16 w) = w := hs w (.head _)
      have hy : F64.finite (f64 l h) = true := hn (l, h) (.head _)
      have hy' : F64.finite (f64 l' h') = true := hn (l', h') (.tail _ (.head _))
      exact ⟨.bp co ⟨beatS16 w, f64 l h, f64 l' h'⟩,
        by simp [parseState, parseSample_of_signExtended hw, parseNum_of_finite hy, parseNum_of_finite hy'],
        by simp [stateImage, hw]⟩
  | bq co st =>
    match ws, hlen with
    | [w, w', l, h, l', h'], _ =>
      have hw : sampleWord (beatS16 w) = w := hs w (.head _)
      have hw' : sampleWord (beatS16 w') = w' := hs w' (.tail _ (.head _))
      have hy : F64.finite (f64 l h) = true := hn (l, h) (.head _)
      have hy' : F64.finite (f64 l' h') = true := hn (l', h') (.tail _ (.head _))
      exact ⟨.bq co ⟨beatS16 w, beatS16 w', f64 l h, f64 l' h'⟩,
        by simp [parseState, parseSample_of_signExtended hw, parseSample_of_signExtended hw', parseNum_of_finite hy,
          parseNum_of_finite hy'],
        by simp [stateImage, hw, hw']⟩
  | fir n cs st =>
    have hlen : ws.length = n + 1 := hlen.trans (Nat.add_comm 1 n)
    obtain ⟨w, ws, rfl⟩ := List.exists_cons_of_length_eq_add_one hlen
    have hsize : ws.length = n := Nat.succ.inj hlen
    have hlt : w.toNat < n := hwp rfl w rfl
    have hhist : ∀ x ∈ ws, sampleWord (beatS16 x) = x := hs
    exact ⟨.fir n cs ⟨ws.map beatS16, w.toNat⟩, by simp [parseState, hsize, hlt, parseSamples_of_signExtended hhist],
      by simp [stateImage, map_sampleWord_map_beatS16 hhist]⟩

/-- Settles O55: a sound image is read as the context whose image it is. -/
theorem stateWriteStoresTheImage : Obligations.StateWriteStoresTheImage := by
  intro c ws s k hr hk hok
  obtain ⟨k', hp, himage⟩ := parseState_of_imageSound (imageSound_of_not_imageRejected hok)
  refine ⟨k', (parseState_some hp).1, himage, ?_⟩
  rw [exec_stateWr_of_parseState hr hk hp, accept_eq]
  rfl

/-- A state image has the number of words of R191. -/
theorem stateImage_length {k : Context} {nmax : Nat} (hok : k.ok nmax = true) :
    (stateImage k).length = stateImageWords k.kind k.ntaps := by
  cases k with
  | hp | lp | bp | bq => rfl
  | fir n cs st =>
    simp only [Context.ok, Bool.and_eq_true, decide_eq_true_eq] at hok
    obtain ⟨⟨-, hhist⟩, -⟩ := hok
    simp [stateImage, Context.kind, Context.ntaps, stateImageWords, hhist, Nat.add_comm]

/-- Settles O56: the image is read as the context that is there, and writing that back changes nothing. -/
theorem stateImageRoundTripChangesNothing : Obligations.StateImageRoundTripChangesNothing := by
  intro c s k hinv hk
  have hr : c.toNat < s.par.nctx := hinv.bank_wf.2 _ (Bank.mem_of_get hk)
  have hok : k.ok s.par.nmax = true := hinv.bank_sound.get hk
  have hp : parseState k (stateImage k) = some k := parseState_stateImage hinv.nmax_range.2 rfl hok
  rw [exec_stateWr_of_parseState hr hk hp, State.putCtx_of_get (s := s.consume _ 0) hinv.bank_wf hk, accept_eq,
    stateImage_length hok]
  rfl

/-- A `PROC` command whose recurrence gives a result puts it away. -/
theorem exec_processCommand_of_done {kd : Kind} {c : Byte} {len : Word} {s : State} {k k' : Context} {ys : List Sample}
    {ovf : Bool} (hr : c.toNat < s.par.nctx) (hk : Bank.get s.ctx c.toNat = some k) (hlen : len.toNat ≤ s.din.length)
    (hrun : runOfKind kd k ((s.din.take len.toNat).map beatS16) = .done k' ys ovf) :
    exec (processCommand kd c len) s =
      .next (finishProc (processCommand kd c len).op c (.done k' ys ovf) (s.consume 2 len.toNat)) := by
  rw [exec_processCommand_active hr hk hlen, hrun]

/-- Settles O57: the image is read as the context it was taken of, so that `PROC` runs on that context and `STATE.RD` reads the
context it left. -/
theorem commandsComputeThePureFunction : Obligations.CommandsComputeThePureFunction := by
  intro kd c len s k k1 k2 ys ovf hr hn hk hcoef hok hlen hrun
  have hp : parseState k (stateImage k1) = some k1 := parseState_stateImage hn hcoef hok
  refine ⟨_, _, _, exec_stateWr_of_parseState hr hk hp,
    exec_processCommand_of_done hr (Bank.get_set_same s.ctx c.toNat k1) hlen hrun,
    exec_stateRd_active hr (Bank.get_set_same _ c.toNat k2), rfl, ?rsp⟩
  case rsp => exact congrArg State.rsp (accept_eq ..)

/-! ### Coefficient images -/

/-- The `CREATEC` command of context `c` that gives the coefficients of `k` (R195). -/
def replayCommand (c : Byte) : Context → Instr
  | .hp a _ => .createcHp c a
  | .lp a _ => .createcLp c a
  | .bp co _ => .createcBp c co.alphaHP co.alphaLP
  | .bq co _ => .createcBq c co.a0 co.a1 co.a2 co.b1 co.b2
  | .fir _ cs _ => .createcFir c cs

theorem replayCommand_op (c : Byte) (k : Context) : (replayCommand c k).op = createcOp k.kind := by cases k <;> rfl

@[simp] theorem replayCommand_ctx (c : Byte) (k : Context) : (replayCommand c k).ctx = c := by cases k <;> rfl

theorem replayCommand_operandWords (c : Byte) (k : Context) : (replayCommand c k).operandWords = coefImage k := by
  cases k <;> rfl

/-- A FIR context that holds allowed values has N coefficients, all finite, for a tap count N. -/
theorem ok_fir {nmax n : Nat} {cs : List Num} {st : FirState} (hok : (Context.fir n cs st).ok nmax = true) :
    validTaps nmax n = true ∧ cs.length = n ∧ cs.all F64.finite = true := by
  simp only [Context.ok, Bool.and_eq_true, decide_eq_true_eq] at hok
  obtain ⟨⟨⟨⟨hn, hlen⟩, hfin⟩, -⟩, -⟩ := hok
  exact ⟨hn, hlen, hfin⟩

/-- The command makes the context as creation leaves it. -/
theorem madeContext_replayCommand (c : Byte) {k : Context} {nmax : Nat} (hok : k.ok nmax = true) :
    madeContext (replayCommand c k) = some k.zeroed := by
  cases k with
  | hp | lp | bp | bq => rfl
  | fir n cs st =>
    obtain ⟨-, rfl, -⟩ := ok_fir hok
    rfl

theorem coefPart_zeroed (k : Context) : k.zeroed.coefPart = k.coefPart := by cases k <;> rfl

theorem replayCommand_wellFormed (c : Byte) {k : Context} {nmax : Nat} (hn : nmax ≤ 65535) (hok : k.ok nmax = true) :
    (replayCommand c k).wellFormed = true := by
  cases k with
  | hp | lp | bp | bq => rfl
  | fir n cs st =>
    obtain ⟨htaps, hlen, -⟩ := ok_fir hok
    simp only [validTaps, Bool.and_eq_true, decide_eq_true_eq] at htaps
    exact decide_eq_true (by omega)

/-- Nothing in R218 (d) and (e) speaks against the coefficients of a context that holds allowed values. -/
theorem configRejected_replayCommand (c : Byte) {k : Context} {nmax : Nat} (hok : k.ok nmax = true) :
    configRejected nmax (replayCommand c k) = false := by
  cases k with
  | hp | lp | bp | bq => simp_all [Context.ok, BqCoef.allFinite, replayCommand, configRejected]
  | fir n cs st =>
    obtain ⟨htaps, rfl, hfin⟩ := ok_fir hok
    rw [validTaps_eq, Bool.not_eq_true'] at htaps
    rw [replayCommand, configRejected, htaps, ← List.not_all_eq_any_not, hfin]
    rfl

/-- Settles O58: the command that gives the coefficients is accepted and makes the context as creation leaves it. -/
theorem coefficientImageReplaysAsCreatec : Obligations.CoefficientImageReplaysAsCreatec := by
  intro c s k hr hn hok
  have hrun := exec_creation_accepted (s := s) (madeContext_replayCommand c hok) (by rwa [replayCommand_ctx])
    (configRejected_replayCommand c hok)
  rw [replayCommand_ctx] at hrun
  exact ⟨replayCommand c k, _, k.zeroed, replayCommand_wellFormed c hn hok, replayCommand_op c k, replayCommand_ctx c k,
    replayCommand_operandWords c k, hrun, Bank.get_set_same .., coefPart_zeroed k, rfl⟩

end Sys2Proof.Machine

/-! ## Refusals (R211 to R220)

A command that is turned away ends in `refuse`, from the state that `taken` leaves once its words and beats are read. That a cause
leads there is said code by code; that no other command answers the code is read off the codes a command can answer
(`exec_answers`). -/

namespace Sys2Proof.Machine
open F64

/-! ### The code of a response, its flag and its state -/

/-- One response has one code. -/
theorem code_of_response {o : Op} {c : Byte} {x y : Code} {r t p q : List Word} (hx : t = r ++ respHeader o c x :: p)
    (hy : t = r ++ respHeader o c y :: q) : x = y :=
  respHeader_inj (List.cons.inj (List.append_cancel_left (hx.symm.trans hy))).1

/-- A command answers a header with a code. A code other than `OK` sets its bit of `STATUS`, and one other than `NUM_NONFINITE`
besides does nothing else (R212, R213). -/
theorem Ends.answer {i : Instr} {s t : State} (h : Ends i s t) :
    ∃ code payload, t.rsp = s.rsp ++ respHeader i.op i.ctx code :: payload ∧
      (code ≠ .ok → t.status = s.status ||| code.flag) ∧
      (code ≠ .ok → code ≠ .numNonfinite → t = refuse i.op i.ctx code (s.taken i)) := by
  cases h with
  | refused code => exact ⟨code, [], rfl, fun _ => rfl, fun _ _ => rfl⟩
  | nonfinite => exact ⟨.numNonfinite, [], rfl, fun _ => rfl, fun _ hne => absurd rfl hne⟩
  | answered payload => exact ⟨.ok, payload, rfl, fun hne => absurd rfl hne, fun hne => absurd rfl hne⟩
  | coded | created | processed | loaded | released =>
    exact ⟨.ok, [], rfl, fun hne => absurd rfl hne, fun hne => absurd rfl hne⟩

/-- Settles O14: the code of the response is the one the command was refused with. -/
theorem refusalChangesNothingElse : Obligations.RefusalChangesNothingElse := by
  intro i s t code hok hnum hb h hrsp
  obtain ⟨code', payload, hrsp', -, hrefused⟩ := (exec_ends h hb).answer
  obtain rfl : code' = code := code_of_response hrsp' hrsp
  obtain rfl := hrefused hok hnum
  rfl

/-- Bits 1 to 4 of `STATUS` are the flags of the codes other than `OK` (R213). -/
theorem Code.flag_and_refusals_eq_zero_iff (code : Code) : code.flag &&& 0x0000001E#32 = 0#32 ↔ code = .ok := by
  cases code <;> decide

theorem refusalFree_iff_of_status {s t : State} {f : BitVec 32} (h : t.status = s.status ||| f) :
    t.refusalFree = true ↔ s.refusalFree = true ∧ f &&& 0x0000001E#32 = 0#32 := by
  simp only [State.refusalFree, beq_iff_eq]
  rw [h, BitVec.and_or_distrib_right, BitVec.or_eq_zero_iff]

/-- Settles O16: a code other than `OK` would have set one of the bits. -/
theorem cleanStatusMeansNoRefusal : Obligations.CleanStatusMeansNoRefusal := by
  intro s t h hfree
  rcases step_cases h with rfl | ⟨-, h0, -, -, rfl⟩ | ⟨-, i, hd, -, -, hends⟩
  · exact ⟨hfree, .inl rfl⟩
  · obtain ⟨-, hill⟩ := (refusalFree_iff_of_status (refuseIllegal_status h0 s)).1 hfree
    cases (Code.flag_and_refusals_eq_zero_iff .illegal).1 hill
  · obtain ⟨f, hf⟩ := hends.status
    obtain ⟨code, payload, hrsp, hflag, -⟩ := hends.answer
    have hok : code = .ok := by
      by_contra hne
      exact hne ((Code.flag_and_refusals_eq_zero_iff code).1 ((refusalFree_iff_of_status (hflag hne)).1 hfree).2)
    rw [hok, respHeader_ok] at hrsp
    exact ⟨((refusalFree_iff_of_status hf).1 hfree).1, .inr ⟨i, payload, hd, hrsp⟩⟩

/-! ### `STATE_INVALID` (R220) -/

theorem signExtended_of_parseSample {w : Word} {x : Sample} (h : parseSample w = some x) : sampleWord (beatS16 w) = w := by
  rw [parseSample] at h
  split at h
  · assumption
  · cases h

theorem signExtended_of_parseSamples {ws : List Word} {xs : List Sample} (h : parseSamples ws = some xs) :
    ∀ w ∈ ws, sampleWord (beatS16 w) = w := by
  induction ws generalizing xs with
  | nil => exact nofun
  | cons w ws ih =>
    rw [parseSamples] at h
    split at h
    next hw hws => exact List.forall_mem_cons.2 ⟨signExtended_of_parseSample hw, ih hws⟩
    next => cases h

theorem finite_of_parseNum {lo hi : Word} {v : Num} (h : parseNum lo hi = some v) : finite (f64 lo hi) = true := by
  obtain ⟨rfl, hv⟩ := parseNum_finite h
  exact hv

/-- An image that is read has none of the faults of R220. -/
theorem imageSound_of_parseState {k k' : Context} {ws : List Word} (h : parseState k ws = some k') : ImageSound k ws := by
  unfold parseState at h
  split at h
  next w l h' =>
    split at h
    next hw hy =>
      exact ⟨rfl, List.forall_mem_singleton.2 (signExtended_of_parseSample hw),
        List.forall_mem_singleton.2 (finite_of_parseNum hy), nofun⟩
    next => cases h
  next l h' =>
    split at h
    next hy => exact ⟨rfl, nofun, List.forall_mem_singleton.2 (finite_of_parseNum hy), nofun⟩
    next => cases h
  next w l h' l' h'' =>
    split at h
    next hw hy hz =>
      exact ⟨rfl, List.forall_mem_singleton.2 (signExtended_of_parseSample hw),
        List.forall_mem_cons.2 ⟨finite_of_parseNum hy, List.forall_mem_singleton.2 (finite_of_parseNum hz)⟩, nofun⟩
    next => cases h
  next w w' l h' l' h'' =>
    split at h
    next hw hw' hy hy' =>
      exact ⟨rfl,
        List.forall_mem_cons.2 ⟨signExtended_of_parseSample hw, List.forall_mem_singleton.2 (signExtended_of_parseSample hw')⟩,
        List.forall_mem_cons.2 ⟨finite_of_parseNum hy, List.forall_mem_singleton.2 (finite_of_parseNum hy')⟩, nofun⟩
    next => cases h
  next n cs _ w ws =>
    split at h
    next hsize =>
      obtain ⟨hlen, hwp⟩ := hsize
      split at h
      next hs =>
        refine ⟨?length, signExtended_of_parseSamples hs, nofun, ?wp⟩
        case length => rw [List.length_cons, hlen]; exact Nat.add_comm n 1
        case wp => rintro - w' ⟨⟩; exact hwp
      next => cases h
    next => cases h
  next => cases h

theorem imageRejected_eq_false_of_imageSound {k : Context} {ws : List Word} (h : ImageSound k ws) :
    imageRejected k ws = false := by
  obtain ⟨hlen, hs, hn, hwp⟩ := h
  simp only [imageRejected, Bool.or_eq_false_iff]
  refine ⟨⟨⟨?len, ?samples⟩, ?nums⟩, ?wp⟩
  case len => simpa using hlen
  case samples => simpa [sampleWord, beatS16] using hs
  case nums => simpa using hn
  case wp =>
    by_cases hkind : k.kind = .fir
    · cases hhead : ws.head? with
      | none => simp
      | some w => simp [hkind, hwp hkind w hhead]
    · simp [hkind]

theorem parseState_of_imageRejected {k : Context} {ws : List Word} (h : imageRejected k ws = true) :
    parseState k ws = none := by
  rw [Option.eq_none_iff_forall_ne_some]
  intro k' hk'
  rw [imageRejected_eq_false_of_imageSound (imageSound_of_parseState hk')] at h
  cases h

/-- Settles O25: an image with a fault is read as no context. -/
theorem invalidImageIsRefused : Obligations.InvalidImageIsRefused := by
  intro c ws s k hr hk hrej
  rw [exec_stateWr_active hr hk, parseState_of_imageRejected hrej]
  rfl

/-! ### `NUM_NONFINITE` (R219) -/

/-- Settles O26: the chunk's result is no context, and the one that was there is erased. -/
theorem nonfiniteValueReleasesTheContext : Obligations.NonfiniteValueReleasesTheContext := by
  intro kd c len s k hr hk hlen hrun
  refine ⟨refuseNonfinite (processCommand kd c len).op c (s.consume 2 len.toNat), ?runs, Bank.get_erase_same _ _,
    fun d hd => Bank.get_erase_other _ hd.symm, rfl⟩
  case runs =>
    rw [exec_processCommand_active hr hk hlen, hrun]
    rfl

/-! ### `ILLEGAL` (R214) -/

/-- The upper half of a header under the code of `ILLEGAL`. -/
theorem upper_or_illegal (h : Word) :
    h &&& 0xFFFF0000#32 ||| 0x00000001#32 = hdrOpc h ++ hdrCtx h ++ 0#8 ++ Code.illegal.byte := by
  have hopc : hdrOpc h ++ hdrCtx h = h.extractLsb' 16 16 := BitVec.extractLsb'_append_extractLsb'_eq_extractLsb' rfl
  have hhalves : h.extractLsb' 16 16 ++ h.extractLsb' 0 16 = h :=
    (BitVec.extractLsb'_append_extractLsb'_eq_extractLsb' rfl).trans BitVec.extractLsb'_eq_self
  calc
    h &&& 0xFFFF0000#32 ||| 0x00000001#32
      = (h.extractLsb' 16 16 ++ h.extractLsb' 0 16) &&& (BitVec.allOnes 16 ++ 0#16) ||| (0#16 ++ 1#16) := by
        rw [hhalves]
        rfl
    _ = h.extractLsb' 16 16 ++ (0#8 ++ 1#8) := by
        rw [BitVec.and_append, BitVec.or_append, BitVec.and_allOnes, BitVec.and_zero, BitVec.or_zero]
        rfl
    _ = hdrOpc h ++ hdrCtx h ++ 0#8 ++ Code.illegal.byte := by
        rw [hopc, BitVec.append_assoc]
        rfl

/-- The decoder calls a word illegal where no row of the opcode table matches it (R80, R81). -/
theorem decode_of_no_row {h : Word} (ws : List Word) (hrow : ∀ row ∈ opcodeRows, h &&& row.2.2 ≠ row.2.1) :
    ∃ why, decode (h :: ws) = .illegal h why := by
  cases ho : headerOp h with
  | error why => exact ⟨why, by rw [decode, ho]⟩
  | ok o =>
    obtain ⟨row, hmem, -, he⟩ := (headerIsAcceptedByItsTableRow h o).1 ho
    exact absurd he (hrow row hmem)

/-- Settles O6: no row of the table is what the decoder calls illegal. -/
theorem illegalHeaderHaltsTheBlock : Obligations.IllegalHeaderHaltsTheBlock := by
  refine ⟨fun s h ws hh hcmd hrow => ?refused, fun _ => step_of_halt, fun _ _ => ⟨rfl, fun _ => rfl⟩⟩
  case refused =>
    obtain ⟨why, hd⟩ := decode_of_no_row ws hrow
    have hdrop : s.cmd.drop 1 = ws := by rw [hcmd]; rfl
    rw [step_of_illegal hh (hcmd ▸ hd), upper_or_illegal, ← hdrop]
    rfl

/-! ### `CTX_RANGE` and `CTX_INACTIVE` (R215, R216) -/

theorem madeContext_of_creates {i : Instr} (h : i.creates = true) : ∃ k, madeContext i = some k := by
  cases i <;> cases h <;> exact ⟨_, rfl⟩

/-- A command that uses a context which must be there checks that first (R211). -/
theorem exec_checks_context {i : Instr} {s : State} (hn : i.op.namesCtx = true) (hc : i.creates = false)
    (hb : i.beats ≤ s.din.length) : ∃ go, exec i s = .next (withContext i.op i.ctx (s.taken i) go) := by
  cases i <;> cases hn <;> cases hc
  case procHp | procLp | procBp | procBq | procFir => exact ⟨_, congrArg Host.Outcome.next (if_neg (Nat.not_lt.2 hb))⟩
  case stateRd | stateWr | coefRd | release => exact ⟨_, rfl⟩

/-- A command that names a context checks its index first (R211). -/
theorem exec_checks_range {i : Instr} {s : State} (hn : i.op.namesCtx = true) (hb : i.beats ≤ s.din.length) :
    ∃ go, exec i s = .next (inRange i.op i.ctx (s.taken i) go) := by
  cases hc : i.creates with
  | true =>
    obtain ⟨k, hk⟩ := madeContext_of_creates hc
    exact ⟨_, exec_creation hk s⟩
  | false =>
    obtain ⟨go, hgo⟩ := exec_checks_context hn hc hb
    exact ⟨_, hgo⟩

/-- Settles O21: the check of the index comes before all else. -/
theorem contextOutOfRangeIsRefused : Obligations.ContextOutOfRangeIsRefused := by
  refine ⟨fun i s hn hr hb => ?refused, fun i s h256 => h256 ▸ i.ctx.isLt⟩
  case refused =>
    obtain ⟨go, hgo⟩ := exec_checks_range hn hb
    have hout : inRange i.op i.ctx (s.taken i) go = refuse i.op i.ctx .ctxRange (s.taken i) := if_neg (Nat.not_lt.2 hr)
    rw [hgo, hout]
    rfl

/-- Settles O22: no command but creation goes on without its context. -/
theorem inactiveContextIsRefused : Obligations.InactiveContextIsRefused := by
  intro i s hn hc hr hk hb
  obtain ⟨go, hgo⟩ := exec_checks_context hn hc hb
  rw [hgo, withContext_of_inactive (s := s.taken i) hr hk]
  rfl

/-! ### The designers against the causes of R218 -/

/-- The payload of a designer: the words of the coefficients that its operands give. None for a command that is no designer. -/
def designedWords : Instr → Option (List Word)
  | .alphaHp fc fs => some (f64Words (alphaHP fc fs))
  | .alphaLp fc fs => some (f64Words (alphaLP fc fs))
  | .bqdBp f fs q => some (bqWords (bqDesignBp f fs q))
  | .bqdHp f fs q => some (bqWords (bqDesignHp f fs q))
  | .firdLp n fc fs => some ((firDesign fc fs n.toNat).flatMap f64Words)
  | _ => none

/-- A designer answers its payload, unless R218 lists a cause against its operands. -/
theorem exec_designer {i : Instr} {ws : List Word} (hw : designedWords i = some ws) (s : State) :
    exec i s =
      .next (design i.op (if !configRejected s.par.nmax i then some ws else none) (s.taken i)) := by
  cases i <;> cases hw
  case alphaHp | alphaLp => simp only [exec, execAlphaHp, execAlphaLp, designAlpha_eq, Option.map_if]; rfl
  case bqdBp | bqdHp => simp only [exec, execBqdBp, execBqdHp, designBq_eq, Option.map_if]; rfl
  case firdLp => simp only [exec, execFirdLp, designFir_eq, Option.map_if]; rfl

theorem ctx_of_designedWords {i : Instr} {ws : List Word} (hw : designedWords i = some ws) : i.ctx = 0#8 := by
  cases i <;> cases hw <;> rfl

theorem beats_of_designedWords {i : Instr} {ws : List Word} (hw : designedWords i = some ws) : i.beats = 0 := by
  cases i <;> cases hw <;> rfl

theorem namesCtx_of_madeContext {i : Instr} {k : Context} (hk : madeContext i = some k) : i.op.namesCtx = true := by
  cases i <;> cases hk <;> rfl

/-- R218 speaks of creations and designers only. -/
theorem madeContext_or_designedWords_of_configRejected {nmax : Nat} {i : Instr} (h : configRejected nmax i = true) :
    (∃ k, madeContext i = some k) ∨ ∃ ws, designedWords i = some ws := by
  cases i
  case createHp | createLp | createBp | createBqbp | createBqhp | createFir => exact .inl ⟨_, rfl⟩
  case createcHp | createcLp | createcBp | createcBq | createcFir => exact .inl ⟨_, rfl⟩
  case alphaHp | alphaLp | bqdBp | bqdHp | firdLp => exact .inr ⟨_, rfl⟩
  all_goals cases h

/-- A creation or a designer against which R218 lists a cause, on a context that exists if it names one. -/
theorem exec_of_configRejected {i : Instr} {s : State} (h : configRejected s.par.nmax i = true)
    (hr : i.op.namesCtx = true → i.ctx.toNat < s.par.nctx) :
    exec i s = .next (refuse i.op i.ctx .cfgInvalid (s.consume i.numWords 0)) := by
  rcases madeContext_or_designedWords_of_configRejected h with ⟨k, hk⟩ | ⟨ws, hw⟩
  · rw [exec_creation hk, h, State.taken, beats_of_madeContext hk]
    exact congrArg Host.Outcome.next (if_pos (hr (namesCtx_of_madeContext hk)))
  · rw [exec_designer hw, h, State.taken, beats_of_designedWords hw, ctx_of_designedWords hw]
    rfl

/-! ### The codes a command can answer -/

/-- What an answer tells of the command that gave it: `KIND_MISMATCH` that it is a `PROC` (R217), `CFG_INVALID` that R218 lists a
cause against its operands. Of the other codes nothing is claimed here. -/
def Cause (nmax : Nat) (i : Instr) : Code → Prop
  | .kindMismatch => ∃ kd c len, i = processCommand kd c len
  | .cfgInvalid => configRejected nmax i = true
  | _ => True

/-- `t` has answered one of the codes in `P`, where `r` was on `RSP` before. -/
def Answers (P : Code → Prop) (o : Op) (c : Byte) (r : List Word) (t : State) : Prop :=
  ∃ code payload, P code ∧ t.rsp = r ++ respHeader o c code :: payload

namespace Answers

variable {P : Code → Prop} {o : Op} {c : Byte} {s : State}

theorem accept {payload : List Word} (hok : P .ok) : Answers P o c s.rsp (Machine.accept o c payload s) :=
  ⟨.ok, payload, hok, rfl⟩

theorem refuse {code : Code} (h : P code) : Answers P o c s.rsp (Machine.refuse o c code s) := ⟨code, [], h, rfl⟩

theorem design {p : Option (List Word)} (hok : P .ok) (hcfg : p = none → P .cfgInvalid) :
    Answers P o 0#8 s.rsp (Machine.design o p s) := by
  rcases design_cases o p s with ⟨ws, -, e⟩ | ⟨hp, e⟩ <;> rw [e]
  · exact accept hok
  · exact refuse (hcfg hp)

theorem create {k : Option Context} (hok : P .ok) (hrange : P .ctxRange) (hcfg : k = none → P .cfgInvalid) :
    Answers P o c s.rsp (Machine.create o c k s) := by
  rcases create_cases o c k s with ⟨x, -, -, e⟩ | ⟨-, e⟩ | ⟨-, hk, e⟩ <;> rw [e]
  · exact accept (s := s.putCtx c.toNat x) hok
  · exact refuse hrange
  · exact refuse (hcfg hk)

theorem withContext {go : Context → State} (hrange : P .ctxRange) (hinactive : P .ctxInactive)
    (hgo : ∀ k, Answers P o c s.rsp (go k)) : Answers P o c s.rsp (Machine.withContext o c s go) := by
  rcases withContext_cases o c s go with ⟨k, -, -, e⟩ | ⟨-, e⟩ | ⟨-, -, e⟩ <;> rw [e]
  · exact hgo k
  · exact refuse hrange
  · exact refuse hinactive

theorem finishProc {r : ProcResult} (hok : P .ok) (hkind : P .kindMismatch) (hnum : P .numNonfinite) :
    Answers P o c s.rsp (Machine.finishProc o c r s) := by
  cases r with
  | mismatch => exact refuse hkind
  | nonfinite => exact ⟨.numNonfinite, [], hnum, rfl⟩
  | done k ys ovf => exact ⟨.ok, [], hok, rfl⟩

theorem stateWritten {x : Option Context} (hok : P .ok) (himage : P .stateInvalid) :
    Answers P .stateWr c s.rsp (Machine.stateWritten c x s) := by
  cases x with
  | none => exact refuse himage
  | some k => exact accept (s := s.putCtx c.toNat k) hok

theorem buffered {len : Word} {go : List Word → State → State}
    (hgo : Answers P o c s.rsp (go (s.din.take len.toNat) (s.consume 2 len.toNat))) :
    Machine.buffered len s go = s ∨ Answers P o c s.rsp (Machine.buffered len s go) := by
  rcases buffered_cases len s go with ⟨-, e⟩ | ⟨-, e⟩ <;> rw [e]
  · exact .inl rfl
  · exact .inr hgo

end Answers

theorem configRejected_of_ite_eq_none {α : Type} {nmax : Nat} {i : Instr} {x : α}
    (h : (if !configRejected nmax i then some x else none) = none) : configRejected nmax i = true := by
  simpa using h

section
variable {i : Instr} {s t : State} (h : exec i s = .next t)
include h

theorem creation_answers {k : Context} (hk : madeContext i = some k) :
    Answers (Cause s.par.nmax i) i.op i.ctx s.rsp t := by
  rw [exec_creation hk] at h
  cases h
  exact .create (s := s.taken i) trivial trivial configRejected_of_ite_eq_none

theorem designer_answers {ws : List Word} (hw : designedWords i = some ws) :
    Answers (Cause s.par.nmax i) i.op i.ctx s.rsp t := by
  rw [exec_designer hw] at h
  cases h
  rw [ctx_of_designedWords hw]
  exact .design (s := s.taken i) trivial configRejected_of_ite_eq_none

end

theorem processCommand_answers {kd : Kind} {c : Byte} {len : Word} {s t : State}
    (h : exec (processCommand kd c len) s = .next t) :
    t = s ∨ Answers (Cause s.par.nmax (processCommand kd c len)) (processCommand kd c len).op c s.rsp t := by
  have hkind : Cause s.par.nmax (processCommand kd c len) .kindMismatch := ⟨kd, c, len, rfl⟩
  rw [exec_processCommand] at h
  cases h
  exact Answers.buffered (.withContext (s := s.consume _ _) trivial trivial fun _ =>
    .finishProc (s := s.consume _ _) trivial hkind trivial)

/-- A command waits, or it answers a code for its cause. -/
theorem exec_answers {i : Instr} {s t : State} (h : exec i s = .next t) :
    t = s ∨ Answers (Cause s.par.nmax i) i.op i.ctx s.rsp t := by
  cases i
  case createHp | createLp | createBp | createBqbp | createBqhp | createFir => exact .inr (creation_answers h rfl)
  case createcHp | createcLp | createcBp | createcBq | createcFir => exact .inr (creation_answers h rfl)
  case alphaHp | alphaLp | bqdBp | bqdHp | firdLp => exact .inr (designer_answers h rfl)
  case procHp => exact processCommand_answers (kd := .hp) h
  case procLp => exact processCommand_answers (kd := .lp) h
  case procBp => exact processCommand_answers (kd := .bp) h
  case procBq => exact processCommand_answers (kd := .bq) h
  case procFir => exact processCommand_answers (kd := .fir) h
  all_goals cases h
  case ulawDec | ulawEnc | statusRd => exact .inr (.accept (s := s.consume _ _) trivial)
  case ulawDecb | ulawEncb => exact Answers.buffered (.accept (s := State.emit _ _) trivial)
  case stateRd | coefRd =>
    exact .inr (.withContext (s := s.consume _ _) trivial trivial fun _ => .accept (s := s.consume _ _) trivial)
  case release =>
    exact .inr (.withContext (s := s.consume _ _) trivial trivial fun _ => .accept (s := State.dropCtx _ _) trivial)
  case stateWr c ws =>
    exact .inr (.withContext (s := s.consume _ _) trivial trivial fun k =>
      .stateWritten (x := parseState k ws) (s := s.consume _ _) trivial trivial)

/-! ### `KIND_MISMATCH` and `CFG_INVALID` (R217, R218) -/

/-- The code of a response has its cause in the command. -/
theorem cause_of_response {i : Instr} {s t : State} {code : Code} {payload : List Word} (h : exec i s = .next t)
    (hrsp : t.rsp = s.rsp ++ respHeader i.op i.ctx code :: payload) : Cause s.par.nmax i code := by
  rcases exec_answers h with rfl | ⟨code', payload', hcause, hrsp'⟩
  · simp at hrsp
  · exact code_of_response hrsp' hrsp ▸ hcause

/-- Settles O23: the recurrence of a kind does not run on the registers of another, and the code has no other `Cause`. -/
theorem wrongKindIsRefused : Obligations.WrongKindIsRefused := by
  refine ⟨fun kd c len s k hr hk hkind hlen => ?refused, fun i s t hproc h payload hrsp => ?never⟩
  case refused =>
    rw [exec_processCommand_active hr hk hlen, (runOfKind_eq_mismatch_iff kd k _).2 hkind]
    rfl
  case never =>
    obtain ⟨kd, c, len, rfl⟩ : ∃ kd c len, i = processCommand kd c len := cause_of_response (code := .kindMismatch) h hrsp
    exact hproc kd c len rfl

/-- Settles O24: a creation or a designer has no result where its operands are rejected, and the code has no other `Cause`. -/
theorem invalidConfigurationIsRefused : Obligations.InvalidConfigurationIsRefused := by
  refine ⟨fun i s hrej hr => exec_of_configRejected hrej hr, fun i s t hok h payload hrsp => ?never⟩
  case never =>
    have hrej : configRejected s.par.nmax i = true := cause_of_response (code := .cfgInvalid) h hrsp
    rw [hok] at hrej
    cases hrej

end Sys2Proof.Machine

/-! ## Waiting (R61, R248) -/

namespace Sys2Proof.Machine

/-- Settles O8: the step waits for the words, which it decodes before it runs a command; `exec` waits for the beats, of which only
the buffer commands take any. -/
theorem missingWordsAndBeatsAreWaitedFor : Obligations.MissingWordsAndBeatsAreWaitedFor :=
  ⟨fun _ => step_of_incomplete, fun _ _ => exec_waits⟩

end Sys2Proof.Machine
